-- ==== Sys2Proof/Word.lean ====
section
/-! DEFINITION. The word types of CORE (00_scope.md R9: all values are unsigned). -/

namespace Sys2Proof

/-- `u8`, "also written byte" (R9). -/
abbrev Byte := BitVec 8

/-- `u32` (R9): the command argument and the block index. -/
abbrev Word := BitVec 32

/-- Four bytes in arrival order: `b0` is the first on the wire (R9). The extended response and the operand of its two
decoders. -/
structure Bytes4 where
  b0 : Byte
  b1 : Byte
  b2 : Byte
  b3 : Byte
  deriving DecidableEq, Repr

/-- The six bytes of a command frame in wire order (R72). -/
structure Frame6 where
  b0 : Byte
  b1 : Byte
  b2 : Byte
  b3 : Byte
  b4 : Byte
  b5 : Byte
  deriving DecidableEq, Repr

end Sys2Proof
end

