-- ==== Sys2Proof/Machine/Bytes.lean ====
section
/-! DEFINITION. Byte order (20_memory.md R52): every multi-byte quantity of CORE has its first byte in the most significant
place. -/

namespace Sys2Proof.Machine

/-- `a ++ b` of R9 for two bytes: `a` is the more significant. -/
def be16 (a b : Byte) : BitVec 16 := a ++ b

/-- `ext[0] ++ ext[1] ++ ext[2] ++ ext[3]` of R78, and the argument order of R72. -/
def be32 (a b c d : Byte) : Word := a ++ b ++ c ++ d

/-- `w: u32` of R78. -/
def wordOf (e : Bytes4) : Word := be32 e.b0 e.b1 e.b2 e.b3

/-- The four bytes of a 32-bit value, most significant first (R72). -/
def bytesOf (w : Word) : Bytes4 :=
  ⟨w.extractLsb 31 24, w.extractLsb 23 16, w.extractLsb 15 8, w.extractLsb 7 0⟩

/-- Four bytes as a sequence, first on the wire first. -/
def listOf4 (e : Bytes4) : List Byte := [e.b0, e.b1, e.b2, e.b3]

/-- The first four bytes of a sequence. -/
def bytes4At (l : List Byte) : Bytes4 := ⟨l.getD 0 0, l.getD 1 0, l.getD 2 0, l.getD 3 0⟩

/-- A frame as a sequence, `frame[0]` first (R72). -/
def listOf6 (f : Frame6) : List Byte := [f.b0, f.b1, f.b2, f.b3, f.b4, f.b5]

/-- The `n` bytes of a number, most significant first: the bytes of an opcode-table word as the wire orders them. -/
def beBytes : Nat → Nat → List Byte
  | 0, _ => []
  | n + 1, w => BitVec.ofNat 8 (w / 2 ^ (8 * n)) :: beBytes n w

end Sys2Proof.Machine
end

