-- ==== Sys2Proof/Config.lean ====
section
/-! DEFINITION. The constants of 00_scope.md R7, the parameters of R8, and the free values (what no rule constrains). -/

namespace Sys2Proof

namespace Config

/-- `N_PROBE` (R7): attempts of the interface-condition probe. -/
def nProbe : Nat := 3

/-- `N_ACMD` (R7): attempts of the application-command init loop. -/
def nAcmd : Nat := 20

/-- `CHECK_PATTERN` (R7). -/
def checkPattern : Byte := 0xAA

/-- `VHS_27_36` (R7). -/
def vhs2736 : BitVec 4 := 0b0001

/-- `START_TOKEN` (R7). -/
def startToken : Byte := 0xFE

/-- `FILL` (R8): the byte CORE sends while it only receives; decided by the spec (D12). -/
def fill : Byte := 0xFF

/-- `BLOCK_LEN` (R7). -/
def blockLen : Nat := 512

/-- `REG_LEN` (R7). -/
def regLen : Nat := 16

/-- `TRAILER_LEN` (R7). -/
def trailerLen : Nat := 2

/-- `TABLE_LEN` (R7). -/
def tableLen : Nat := 256

/-- FREE VALUE: whether transport call number `k` answers `TErr`, when no scripted answer is left. R12: "every answer byte and
every `TErr` is an unconstrained input (a draw)". Log 6. -/
opaque freeFails : Nat → Bool

/-- FREE VALUE: byte `i` of the answer to transport call number `k`, when no scripted byte is left. R12. Log 6. -/
opaque freeByte : Nat → Nat → Byte

end Config

/-- The parameters the spec leaves OPEN (R8). The two poll budgets are "at least 1": each is held as its excess over 1, so
that a budget of 0, which U15 wants refused, cannot be written. Log 8. -/
structure Config where
  r1PollExtra : Nat
  tokenPollExtra : Nat
  tByte : Nat
  tBuf : Nat
  deriving DecidableEq, Repr, Inhabited

namespace Config

/-- `N_R1_POLL` (R8): bytes polled for an R1 before the wait gives up. -/
def nR1Poll (c : Config) : Nat := c.r1PollExtra + 1

/-- `N_TOKEN_POLL` (R8): bytes polled for the start-data-token before the wait gives up. -/
def nTokenPoll (c : Config) : Nat := c.tokenPollExtra + 1

/-- FREE VALUE: the parameters of the instance after reset. The spec gives no value ("Do not assume: any default", 91 N3), so
nothing can evaluate this one. Log 8. -/
opaque chosen : Config

end Config

end Sys2Proof
end

