-- ==== Sys2Proof/Syntax.lean ====
section
/-! DEFINITION. The spec's enumerations and records, and `Instr`: one constructor per row of spec/opcode_table.json. -/

namespace Sys2Proof

/-- The card class (R13, R21). -/
inductive CardClass where
  | unclassified
  | legacyV1
  | standardV2
  | highCapacityV2
  deriving DecidableEq, Repr

/-- The addressing mode (R22). -/
inductive Addressing where
  | byteAddressed
  | blockAddressed
  deriving DecidableEq, Repr

/-- The clock regime handed to the Transport Port (R219). -/
inductive SpeedClass where
  | init
  | operational
  deriving DecidableEq, Repr

/-- The statuses of R236, in the order of their codes. -/
inductive Status where
  | ok
  | timeout
  | commandChecksumError
  | dataChecksumError
  | illegalCommandError
  | addressError
  | parameterError
  | protocolMismatch
  | notReady
  | genericCardError
  | initTimeout
  | tableNotBuilt
  | badOperation
  deriving DecidableEq, Repr

/-- The fields of an R1 byte (R76), bit 0 first. -/
structure R1Status where
  idle : Bool
  eraseReset : Bool
  illegalCommand : Bool
  crcError : Bool
  eraseSeqError : Bool
  addressError : Bool
  parameterError : Bool
  zeroBit : Bool
  deriving DecidableEq, Repr

/-- The operating-condition view of the extended response (R78, R87). -/
structure OcrView where
  powerUpDone : Bool
  ccs : Bool
  voltageWindow : BitVec 9
  deriving DecidableEq, Repr

/-- The interface-condition view of the extended response (R79, R87). -/
structure IfCondView where
  voltageAcceptedRange : BitVec 4
  checkPattern : Byte
  deriving DecidableEq, Repr

/-- The Card Identification view of a register block (R82); `productName` is five bytes, the first received first. -/
structure CidRegister where
  manufacturerId : Byte
  oemId : BitVec 16
  productName : List Byte
  revision : Byte
  serialNumber : BitVec 32
  manufactureDate : BitVec 12
  deriving DecidableEq, Repr

/-- The Card-Specific Data view of a register block (R83). -/
structure CsdRegister where
  layout : BitVec 2
  readAccessTime : Byte
  maxTransferSpeed : Byte
  commandClasses : BitVec 12
  readBlockLength : BitVec 4
  deviceSize : BitVec 22
  deriving DecidableEq, Repr

/-- The rows of spec/opcode_table.json: 20 host operations (R86), 10 command frames (R71, R74), and what CORE receives: the R1
byte (R76), the start token (R199) and the two views of the extended response (R78, R79). A frame's `crc` is the checksum field
as it stands in bits 7:1. -/
inductive Instr where
  | buildTable
  | crc7 (msg : List Byte)
  | crc16 (data : List Byte)
  | encodeCmd (index : BitVec 6) (arg : Word)
  | decodeR1 (b : Byte)
  | encodeR1 (r : R1Status)
  | decodeOcr (e : Bytes4)
  | decodeIfCond (e : Bytes4)
  | decodeCid (p : List Byte)
  | decodeCsd (p : List Byte)
  | negotiate
  | readBlock (index : Word)
  | readCid
  | readCsd
  | setDataChecksum (enabled : Bool)
  | setSpeedClass (class_ : SpeedClass)
  | cardClass
  | blockLength
  | sessionReset
  | blockAddressing
  | cmd0 (arg : Word) (crc : BitVec 7)
  | cmd8 (arg : Word) (crc : BitVec 7)
  | cmd9 (arg : Word) (crc : BitVec 7)
  | cmd10 (arg : Word) (crc : BitVec 7)
  | cmd17 (arg : Word) (crc : BitVec 7)
  | cmd41 (arg : Word) (crc : BitVec 7)
  | cmd55 (arg : Word) (crc : BitVec 7)
  | cmd58 (arg : Word) (crc : BitVec 7)
  | cmd59 (arg : Word) (crc : BitVec 7)
  | cmdAny (index : BitVec 6) (arg : Word) (crc : BitVec 7)
  | r1Response (r : R1Status)
  | startToken
  | ocrView (e : Bytes4)
  | ifCondView (e : Bytes4)
  deriving DecidableEq, Repr

end Sys2Proof
end

