-- ==== Sys2Proof/Machine/Checksum.lean ====
section
/-! DEFINITION. The Checksum Unit's arithmetic (40_checksum.md), apart from state: the table's entries (R111), the command
checksum over a given table (R113) and in its bitwise form (R114), and the data checksum (R116). -/

namespace Sys2Proof.Machine

/-- "if v[7] == 1: v <- v ^ 0x89" (R111). -/
def reduceTop (v : Byte) : Byte := if v.getLsbD 7 then v ^^^ 0x89#8 else v

/-- `n` rounds of "v <- (v << 1) & 0xFF" and the reduction (R111). -/
def shiftReduce : Nat → Byte → Byte
  | 0, v => v
  | n + 1, v => shiftReduce n (reduceTop (v <<< 1))

/-- `crc7_table[i]` (R111): one reduction before the loop, then seven rounds. -/
def tableEntry (i : Byte) : Byte := shiftReduce 7 (reduceTop i)

/-- The table index of R113: `((acc7 << 1) & 0xFF) ^ msg[k]`. -/
def crc7Index (acc : BitVec 7) (b : Byte) : Byte := (acc.setWidth 8 <<< 1) ^^^ b

/-- CRC7 (R113) over a table given as a reading function. -/
def crc7Over (entry : Nat → Byte) (msg : List Byte) : BitVec 7 :=
  msg.foldl (fun acc b => (entry (crc7Index acc b).toNat).setWidth 7) 0

/-- One bit of the bitwise form (R114); `0x09` is `0x89` without its x^7 term. -/
def crc7Bit (c : BitVec 7) (x : Bool) : BitVec 7 :=
  if (c.getLsbD 6 ^^ x) then (c <<< 1) ^^^ 0x09#7 else c <<< 1

/-- One byte of the bitwise form (R114): bits 7 down to 0. -/
def crc7Byte (c : BitVec 7) (b : Byte) : BitVec 7 :=
  [7, 6, 5, 4, 3, 2, 1, 0].foldl (fun c k => crc7Bit c (b.getLsbD k)) c

/-- CRC7 without the table (R114). -/
def crc7Bits (msg : List Byte) : BitVec 7 := msg.foldl crc7Byte 0

/-- One step of the data checksum's register (R116), for bit `x` of the data. -/
def crc16Bit (r : BitVec 16) (x : Bool) : BitVec 16 :=
  if (r.getLsbD 0 ^^ x) then (r >>> 1) ^^^ 0x8408#16 else r >>> 1

/-- `n` steps over the byte `d`, bit 0 first (R116: "d <- d >> 1"). -/
def crc16Steps : Nat → BitVec 16 → Byte → BitVec 16
  | 0, r, _ => r
  | n + 1, r, d => crc16Steps n (crc16Bit r (d.getLsbD 0)) (d >>> 1)

/-- `reg16` after the last byte (R116). -/
def crc16Reg (data : List Byte) : BitVec 16 := data.foldl (fun r d => crc16Steps 8 r d) 0xFFFF

/-- The complement and the exchange of the two bytes (R116). -/
def crc16Finish (r : BitVec 16) : BitVec 16 := ((~~~r <<< 8) &&& 0xFF00#16) ||| (~~~r >>> 8)

/-- CRC16 (R116). -/
def crc16 (data : List Byte) : BitVec 16 := crc16Finish (crc16Reg data)

end Sys2Proof.Machine
end

