-- ==== Sys2Proof/Machine/Codec.lean ====
section
/-! DEFINITION. The Frame Codec's formats (30_encoding.md, 41_frame_codec.md), apart from state: packing and unpacking a
command frame (R71, R72, R132), the two views of the extended response (R78, R79) and of the register block (R82, R83). -/

namespace Sys2Proof.Machine

/-- The five frame bytes the command checksum covers (R72). -/
def frameHead (index : BitVec 6) (arg : Word) : List Byte :=
  (0x40#8 ||| index.setWidth 8) :: listOf4 (bytesOf arg)

/-- The frame of R72 for a given checksum. -/
def packFrame (index : BitVec 6) (arg : Word) (crc : BitVec 7) : Frame6 :=
  let a := bytesOf arg
  ⟨0x40#8 ||| index.setWidth 8, a.b0, a.b1, a.b2, a.b3, (crc.setWidth 8 <<< 1) ||| 0x01#8⟩

/-- `f[0][5:0]` (R132). -/
def frameIndex (f : Frame6) : BitVec 6 := f.b0.extractLsb 5 0

/-- `f[1] ++ f[2] ++ f[3] ++ f[4]` (R132). -/
def frameArg (f : Frame6) : Word := be32 f.b1 f.b2 f.b3 f.b4

/-- `f[5][7:1]` (R132). -/
def frameCrc (f : Frame6) : BitVec 7 := f.b5.extractLsb 7 1

/-- The start, transmission and end bits stand as R71 says: `f[0][7:6]` = `0b01` and `f[5][0]` = 1. -/
def frameFramed (f : Frame6) : Bool := f.b0.extractLsb 7 6 == 0b01 && f.b5.getLsbD 0

/-- The checksum a well-formed frame carries (R132), by the table-free form of R114. -/
def frameChecksum (index : BitVec 6) (arg : Word) : BitVec 7 := crc7Bits (frameHead index arg)

/-- A well-formed frame (R132). -/
def frameWellFormed (f : Frame6) : Bool :=
  frameFramed f && frameCrc f == crc7Bits [f.b0, f.b1, f.b2, f.b3, f.b4]

/-- DECODE_OCR's function (R136). -/
def ocrOf (e : Bytes4) : OcrView where
  powerUpDone := (wordOf e).getLsbD 31
  ccs := (wordOf e).getLsbD 30
  voltageWindow := (wordOf e).extractLsb 23 15

/-- DECODE_IFCOND's function (R137). -/
def ifCondOf (e : Bytes4) : IfCondView where
  voltageAcceptedRange := (wordOf e).extractLsb 11 8
  checkPattern := (wordOf e).extractLsb 7 0

/-- DECODE_CID's function (R140); a block shorter than 16 bytes, which WellFormed refuses, reads as 0 beyond its end. -/
def cidOf (p : List Byte) : CidRegister where
  manufacturerId := p.getD 0 0
  oemId := be16 (p.getD 1 0) (p.getD 2 0)
  productName := [p.getD 3 0, p.getD 4 0, p.getD 5 0, p.getD 6 0, p.getD 7 0]
  revision := p.getD 8 0
  serialNumber := be32 (p.getD 9 0) (p.getD 10 0) (p.getD 11 0) (p.getD 12 0)
  manufactureDate := (p.getD 13 0).extractLsb 3 0 ++ p.getD 14 0

/-- The device size field (R141): 12 bits widened to 22 in layout 0, 22 bits in the others. -/
def deviceSizeOf (p : List Byte) : BitVec 22 :=
  if (p.getD 0 0).extractLsb 7 6 = 0 then
    ((p.getD 6 0).extractLsb 1 0 ++ p.getD 7 0 ++ (p.getD 8 0).extractLsb 7 6 : BitVec 12).setWidth 22
  else (p.getD 7 0).extractLsb 5 0 ++ p.getD 8 0 ++ p.getD 9 0

/-- DECODE_CSD's function (R141). -/
def csdOf (p : List Byte) : CsdRegister where
  layout := (p.getD 0 0).extractLsb 7 6
  readAccessTime := p.getD 1 0
  maxTransferSpeed := p.getD 3 0
  commandClasses := p.getD 4 0 ++ (p.getD 5 0).extractLsb 7 4
  readBlockLength := (p.getD 5 0).extractLsb 3 0
  deviceSize := deviceSizeOf p

end Sys2Proof.Machine
end

