-- ==== Sys2Proof/Machine/Flags.lean ====
section
/-! DEFINITION. The flag-like state of CORE (10_state.md R36): the R1 flags, their decoding and encoding (R76, R133, R134), the
mapping of a read command's R1 to one error (R202, R240), and the numeric codes of the enumerations (R21, R22, R86, R236). -/

namespace Sys2Proof.Machine

/-- DECODE_R1's function (R133), bit positions of R76. -/
def decodeR1Byte (b : Byte) : R1Status where
  idle := b.getLsbD 0
  eraseReset := b.getLsbD 1
  illegalCommand := b.getLsbD 2
  crcError := b.getLsbD 3
  eraseSeqError := b.getLsbD 4
  addressError := b.getLsbD 5
  parameterError := b.getLsbD 6
  zeroBit := b.getLsbD 7

/-- `flag ? mask : 0` of R134. -/
def flagMask (flag : Bool) (mask : Byte) : Byte := if flag then mask else 0

/-- ENCODE_R1's function (R134). -/
def encodeR1Byte (r : R1Status) : Byte :=
  flagMask r.idle 0x01 ||| flagMask r.eraseReset 0x02 ||| flagMask r.illegalCommand 0x04
    ||| flagMask r.crcError 0x08 ||| flagMask r.eraseSeqError 0x10 ||| flagMask r.addressError 0x20
    ||| flagMask r.parameterError 0x40 ||| flagMask r.zeroBit 0x80

/-- The error a read command's R1 byte raises, `none` for `0x00` (R202, R240: the first matching line). -/
def r1Error (b : Byte) : Option Status :=
  if b = 0x00 then none
  else if b.getLsbD 3 then some .commandChecksumError
  else if b.getLsbD 2 then some .illegalCommandError
  else if b.getLsbD 5 then some .addressError
  else if b.getLsbD 6 then some .parameterError
  else some .genericCardError

/-- The status codes of R236. -/
def statusCode : Status → Byte
  | .ok => 0x00
  | .timeout => 0x01
  | .commandChecksumError => 0x02
  | .dataChecksumError => 0x03
  | .illegalCommandError => 0x04
  | .addressError => 0x05
  | .parameterError => 0x06
  | .protocolMismatch => 0x07
  | .notReady => 0x08
  | .genericCardError => 0x09
  | .initTimeout => 0x0A
  | .tableNotBuilt => 0x0B
  | .badOperation => 0x0C

/-- The numbers of the card class (R21). -/
def cardClassCode : CardClass → BitVec 2
  | .unclassified => 0
  | .legacyV1 => 1
  | .standardV2 => 2
  | .highCapacityV2 => 3

/-- The numbers of the addressing mode (R22). -/
def addressingCode : Addressing → BitVec 1
  | .byteAddressed => 0
  | .blockAddressed => 1

/-- The numbers of the speed class (R86). -/
def speedClassCode : SpeedClass → BitVec 1
  | .init => 0
  | .operational => 1

end Sys2Proof.Machine
end

