-- ==== Sys2Proof/WellFormed.lean ====
section
/-! DEFINITION. Which terms of `Instr` are instructions of the spec. -/

namespace Sys2Proof

/-- The nine indices that have a row of their own (R74). -/
def listedIndices : List (BitVec 6) := [0, 8, 9, 10, 17, 41, 55, 58, 59]

/-- Register blocks have 16 bytes (R82); a frame carries the checksum of its first five bytes (R132); the general frame row
stands for the indices without a row of their own (R74); an R1 response has its mandatory-zero bit clear (R76, R77). -/
def Instr.wellFormed : Instr → Bool
  | .buildTable => true
  | .crc7 _ => true
  | .crc16 _ => true
  | .encodeCmd _ _ => true
  | .decodeR1 _ => true
  | .encodeR1 _ => true
  | .decodeOcr _ => true
  | .decodeIfCond _ => true
  | .decodeCid p => p.length == 16
  | .decodeCsd p => p.length == 16
  | .negotiate => true
  | .readBlock _ => true
  | .readCid => true
  | .readCsd => true
  | .setDataChecksum _ => true
  | .setSpeedClass _ => true
  | .cardClass => true
  | .blockLength => true
  | .sessionReset => true
  | .blockAddressing => true
  | .cmd0 arg crc => crc == Machine.frameChecksum 0 arg
  | .cmd8 arg crc => crc == Machine.frameChecksum 8 arg
  | .cmd9 arg crc => crc == Machine.frameChecksum 9 arg
  | .cmd10 arg crc => crc == Machine.frameChecksum 10 arg
  | .cmd17 arg crc => crc == Machine.frameChecksum 17 arg
  | .cmd41 arg crc => crc == Machine.frameChecksum 41 arg
  | .cmd55 arg crc => crc == Machine.frameChecksum 55 arg
  | .cmd58 arg crc => crc == Machine.frameChecksum 58 arg
  | .cmd59 arg crc => crc == Machine.frameChecksum 59 arg
  | .cmdAny index arg crc => crc == Machine.frameChecksum index arg && !listedIndices.contains index
  | .r1Response r => !r.zeroBit
  | .startToken => true
  | .ocrView _ => true
  | .ifCondView _ => true

end Sys2Proof
end

