-- ==== Sys2Proof/Decode.lean ====
section
/-! DEFINITION. Decoding and encoding. Host operations are read from the request port's byte stream: the select code of R86,
then the operands (their layout is the model's own, log 2). The wire-format rows of the table are read from the six bytes of a
frame (R72), the R1 byte (R76), the token byte (R199) or the four bytes of the extended response (R78, R79); nothing in those
bytes says which of the two views applies (R138), so the port names it. -/

namespace Sys2Proof

/-- Where an instruction's bytes stand. -/
inductive Port where
  | request
  | frame
  | r1
  | token
  | ocr
  | ifCond
  deriving DecidableEq, Repr

/-- What the decoder answers. `needMore`: the bytes end inside an instruction. `badCode`: a select code no row has (R84).
The others name the field that fits no encoding: an operand outside its type (R86, R87), the start, transmission or end bit of
a frame (R71), the mandatory-zero bit of an R1 (R76), a token byte other than `0xFE` (R199). -/
inductive Decoded where
  | instr (i : Instr) (rest : List Byte)
  | needMore
  | badCode (code : Byte) (rest : List Byte)
  | badOperand
  | badFrame
  | badR1
  | badToken
  deriving DecidableEq, Repr

/-- A byte sequence of any length on the request port: `01` before each byte, `00` after the last (log 2). -/
inductive MessageRead where
  | message (m rest : List Byte)
  | needMore
  | badOperand
  deriving DecidableEq, Repr

/-- Reading a byte sequence (log 2). -/
def readMessage : List Byte → MessageRead
  | [] => .needMore
  | [m] => if m = 0 then .message [] [] else if m = 1 then .needMore else .badOperand
  | m :: b :: rest =>
    if m = 0 then .message [] (b :: rest)
    else if m = 1 then
      match readMessage rest with
      | .message l r => .message (b :: l) r
      | .needMore => .needMore
      | .badOperand => .badOperand
    else .badOperand

/-- Writing a byte sequence (log 2). -/
def writeMessage : List Byte → List Byte
  | [] => [0]
  | b :: l => 1 :: b :: writeMessage l

/-- An operation whose only operand is a byte sequence. -/
def withMessage (mk : List Byte → Instr) (l : List Byte) : Decoded :=
  match readMessage l with
  | .message m rest => .instr (mk m) rest
  | .needMore => .needMore
  | .badOperand => .badOperand

/-- An operation whose only operand is four bytes. -/
def withFour (mk : Bytes4 → Instr) : List Byte → Decoded
  | a :: b :: c :: d :: rest => .instr (mk ⟨a, b, c, d⟩) rest
  | _ => .needMore

/-- An operation whose only operand is sixteen bytes. -/
def withSixteen (mk : List Byte → Instr) (l : List Byte) : Decoded :=
  if l.length < 16 then .needMore else .instr (mk (l.take 16)) (l.drop 16)

/-- An operation whose only operand is a two-valued one: `00` or `01`. -/
def withBool (mk : Bool → Instr) : List Byte → Decoded
  | [] => .needMore
  | b :: rest => if b = 0 then .instr (mk false) rest else if b = 1 then .instr (mk true) rest else .badOperand

/-- ENCODE_CMD's operands: the index in one byte, then the argument, most significant byte first. -/
def withIndexArg : List Byte → Decoded
  | i :: a :: b :: c :: d :: rest =>
    if i.toNat < 64 then .instr (.encodeCmd (i.setWidth 6) (Machine.be32 a b c d)) rest else .badOperand
  | _ => .needMore

/-- The operation of a select code (R86) and the operands that follow it. -/
def decodeOperation (code : Byte) (l : List Byte) : Decoded :=
  match code.toNat with
  | 0x00 => .instr .buildTable l
  | 0x01 => withMessage .crc7 l
  | 0x02 => withMessage .crc16 l
  | 0x03 => withIndexArg l
  | 0x04 =>
    match l with
    | [] => .needMore
    | b :: rest => .instr (.decodeR1 b) rest
  | 0x05 =>
    match l with
    | [] => .needMore
    | b :: rest => .instr (.encodeR1 (Machine.decodeR1Byte b)) rest
  | 0x06 => withFour .decodeOcr l
  | 0x07 => withFour .decodeIfCond l
  | 0x08 => withSixteen .decodeCid l
  | 0x09 => withSixteen .decodeCsd l
  | 0x0A => .instr .negotiate l
  | 0x0B => withFour (fun e => .readBlock (Machine.wordOf e)) l
  | 0x0C => .instr .readCid l
  | 0x0D => .instr .readCsd l
  | 0x0E => withBool .setDataChecksum l
  | 0x0F => withBool (fun operational => .setSpeedClass (if operational then .operational else .init)) l
  | 0x10 => .instr .cardClass l
  | 0x11 => .instr .blockLength l
  | 0x12 => .instr .sessionReset l
  | 0x13 => .instr .blockAddressing l
  | _ => .badCode code l

/-- The row of a framed command (R74): the nine listed indices have rows of their own. -/
def frameInstr (index : BitVec 6) (arg : Word) (crc : BitVec 7) : Instr :=
  match index.toNat with
  | 0 => .cmd0 arg crc
  | 8 => .cmd8 arg crc
  | 9 => .cmd9 arg crc
  | 10 => .cmd10 arg crc
  | 17 => .cmd17 arg crc
  | 41 => .cmd41 arg crc
  | 55 => .cmd55 arg crc
  | 58 => .cmd58 arg crc
  | 59 => .cmd59 arg crc
  | _ => .cmdAny index arg crc

/-- A frame's six bytes (R72, R132); the checksum field is read as it stands, and WellFormed judges it. -/
def decodeFrame : List Byte → Decoded
  | a :: b :: c :: d :: e :: g :: rest =>
    let f : Frame6 := ⟨a, b, c, d, e, g⟩
    if Machine.frameFramed f then
      .instr (frameInstr (Machine.frameIndex f) (Machine.frameArg f) (Machine.frameCrc f)) rest
    else .badFrame
  | _ => .needMore

/-- The decoder: total on any bytes at any port. -/
def decode (port : Port) (l : List Byte) : Decoded :=
  match port, l with
  | .request, [] => .needMore
  | .request, code :: rest => decodeOperation code rest
  | .frame, l => decodeFrame l
  | .r1, [] => .needMore
  | .r1, b :: rest => if b.getLsbD 7 then .badR1 else .instr (.r1Response (Machine.decodeR1Byte b)) rest
  | .token, [] => .needMore
  | .token, b :: rest => if b = Config.startToken then .instr .startToken rest else .badToken
  | .ocr, l => withFour .ocrView l
  | .ifCond, l => withFour .ifCondView l

/-- The port an instruction's bytes stand at. -/
def Instr.port : Instr → Port
  | .cmd0 _ _ | .cmd8 _ _ | .cmd9 _ _ | .cmd10 _ _ | .cmd17 _ _ | .cmd41 _ _ | .cmd55 _ _ | .cmd58 _ _
  | .cmd59 _ _ | .cmdAny _ _ _ => .frame
  | .r1Response _ => .r1
  | .startToken => .token
  | .ocrView _ => .ocr
  | .ifCondView _ => .ifCond
  | .buildTable | .crc7 _ | .crc16 _ | .encodeCmd _ _ | .decodeR1 _ | .encodeR1 _ | .decodeOcr _ | .decodeIfCond _
  | .decodeCid _ | .decodeCsd _ | .negotiate | .readBlock _ | .readCid | .readCsd | .setDataChecksum _
  | .setSpeedClass _ | .cardClass | .blockLength | .sessionReset | .blockAddressing => .request

/-- A two-valued operand as a byte. -/
def boolByte (b : Bool) : Byte := if b then 1 else 0

/-- A frame's bytes (R72). -/
def encodeFrame (index : BitVec 6) (arg : Word) (crc : BitVec 7) : List Byte :=
  Machine.listOf6 (Machine.packFrame index arg crc)

/-- The bytes of a well-formed instruction, from the same tables (R72, R76, R86, R199). -/
def encode : Instr → List Byte
  | .buildTable => [0x00]
  | .crc7 m => 0x01 :: writeMessage m
  | .crc16 m => 0x02 :: writeMessage m
  | .encodeCmd index arg => 0x03 :: index.setWidth 8 :: Machine.listOf4 (Machine.bytesOf arg)
  | .decodeR1 b => [0x04, b]
  | .encodeR1 r => [0x05, Machine.encodeR1Byte r]
  | .decodeOcr e => 0x06 :: Machine.listOf4 e
  | .decodeIfCond e => 0x07 :: Machine.listOf4 e
  | .decodeCid p => 0x08 :: p
  | .decodeCsd p => 0x09 :: p
  | .negotiate => [0x0A]
  | .readBlock index => 0x0B :: Machine.listOf4 (Machine.bytesOf index)
  | .readCid => [0x0C]
  | .readCsd => [0x0D]
  | .setDataChecksum enabled => [0x0E, boolByte enabled]
  | .setSpeedClass .init => [0x0F, 0]
  | .setSpeedClass .operational => [0x0F, 1]
  | .cardClass => [0x10]
  | .blockLength => [0x11]
  | .sessionReset => [0x12]
  | .blockAddressing => [0x13]
  | .cmd0 arg crc => encodeFrame 0 arg crc
  | .cmd8 arg crc => encodeFrame 8 arg crc
  | .cmd9 arg crc => encodeFrame 9 arg crc
  | .cmd10 arg crc => encodeFrame 10 arg crc
  | .cmd17 arg crc => encodeFrame 17 arg crc
  | .cmd41 arg crc => encodeFrame 41 arg crc
  | .cmd55 arg crc => encodeFrame 55 arg crc
  | .cmd58 arg crc => encodeFrame 58 arg crc
  | .cmd59 arg crc => encodeFrame 59 arg crc
  | .cmdAny index arg crc => encodeFrame index arg crc
  | .r1Response r => [Machine.encodeR1Byte r]
  | .startToken => [Config.startToken]
  | .ocrView e => Machine.listOf4 e
  | .ifCondView e => Machine.listOf4 e

/-- The port at which a word of the opcode table is read. 48 bits: a frame. 32 bits: the operating-condition view (the two views
share every word, R138). 8 bits: a select code where R86 has one, else the token `0xFE`, else an R1 byte when bit 7 is 0
(log 14). -/
def tablePort (nbits w : Nat) : Port :=
  if nbits = 48 then .frame
  else if nbits = 32 then .ocr
  else if w < 0x14 then .request
  else if w = 0xFE then .token
  else if w < 0x80 then .r1
  else .request

/-- The longest operand of fixed length after a select code: the sixteen bytes of DECODE_CID. -/
def longestOperand : Nat := 16

/-- The bytes of a word of the opcode table, most significant first (`frame[0]` is bits 47:40, R71), and operand bytes of 0
after it where the row is a select code. -/
def tableBytes (nbits w : Nat) : List Byte :=
  Machine.beBytes (nbits / 8) w ++ (if nbits = 8 then List.replicate longestOperand 0 else [])

/-- The instruction the decoder reads from a word of the opcode table. -/
def decodeTableWord (nbits w : Nat) : Option Instr :=
  match decode (tablePort nbits w) (tableBytes nbits w) with
  | .instr i _ => some i
  | .needMore => none
  | .badCode _ _ => none
  | .badOperand => none
  | .badFrame => none
  | .badR1 => none
  | .badToken => none

end Sys2Proof
end

