-- ==== Sys2Proof/Machine/State.lean ====
section
/-! DEFINITION. The state of CORE (10_state.md), the reasons a step can stop, and the state after reset (R38, R265). -/

namespace Sys2Proof.Machine

/-- A byte storage: cells with strictly rising addresses, none holding 0, which is what an unlisted address reads as (log 11). -/
abbrev Memory := List Host.Cell

/-- The Negotiation State Machine's states (R27). -/
inductive NState where
  | idle
  | start
  | resetIdle
  | probeInterface
  | readOcrInitial
  | acmdInitLoop
  | readOcrFinal
  | ready
  | failed
  deriving DecidableEq, Repr

/-- The Block Transfer Engine's phases (R28). -/
inductive BState where
  | bIdle
  | bCommand
  | bToken
  | bData
  | bCheck
  deriving DecidableEq, Repr

/-- A call on the Transport Port (R252), with the timeout CORE hands over where the boundary has one (R251). -/
inductive Call where
  | select
  | deselect
  | xbyte (out : Byte) (timeout : Nat)
  | send (bytes : List Byte) (timeout : Nat)
  | recv (n : Nat) (timeout : Nat)
  | setDiv (class_ : SpeedClass)
  deriving DecidableEq, Repr

/-- An answer of the Transport Port: `TErr`, or success with the bytes received during the call. A call takes as many of the bytes
as it asks for; bytes that are missing are free values and bytes too many are dropped (log 6). -/
inductive Answer where
  | tErr
  | data (bytes : List Byte)
  deriving DecidableEq, Repr

/-- What an operation returns with status `Ok` (R86). `block`: the 512 bytes stand in `State.outBlock`. `cid`, `csd`: for READ_CID
and READ_CSD the sixteen bytes stand in `State.outReg`. An error returns no value (R236). -/
inductive Value where
  | none
  | u7 (v : BitVec 7)
  | u16 (v : BitVec 16)
  | frame (f : Frame6)
  | r1Status (r : R1Status)
  | byte (b : Byte)
  | ocr (v : OcrView)
  | ifCond (v : IfCondView)
  | cid (v : CidRegister)
  | csd (v : CsdRegister)
  | cardClass (c : CardClass)
  | u32 (w : Word)
  | addressing (a : Addressing)
  | block
  deriving DecidableEq, Repr

/-- A delivered result: exactly one status, and a value (R235). -/
structure Response where
  status : Status
  value : Value
  deriving DecidableEq, Repr

/-- A wire item at the internal sequencer: the model's own, so that the table's wire-format rows can be run alone (log 13). -/
structure WireItem where
  port : Port
  bytes : List Byte
  deriving DecidableEq, Repr

/-- The reasons a step faults: none. Every error of the spec is a status an operation returns (R235, R245), and a Transport Port
call always returns (R278; log 7). -/
inductive Fault
  deriving DecidableEq, Repr

/-- The reasons a step is refused. -/
inductive Refusal where
  /-- Raised by `exec` for a row without a meaning; no row is left so. Safe. -/
  | notModelled (mnemonic : String)
  /-- Raised by `step` for a request whose operand byte lies outside the operand's type (R86, R87: `index: u6`, `enabled: bool`,
  `class: Init or Operational`), which the request port of the spec cannot carry. Safe (log 3). -/
  | operandOutsideType
  deriving DecidableEq, Repr

/-- The state of CORE, with its ports. -/
structure State where
  -- the Card Session registers (R21, R22, R23)
  cardClass : CardClass
  blockAddressing : Addressing
  checksumEnabled : Bool
  -- the Checksum Table (R24) and its flag (R25)
  table : Memory
  tableBuilt : Bool
  -- FSM state (R27, R28), busy (R35), chip-select ownership (R33)
  nstate : NState
  bstate : BState
  busy : Bool
  csHeld : Bool
  -- checksum accumulators (R26)
  acc7 : BitVec 7
  reg16 : BitVec 16
  -- frame and response registers (R29)
  frame : Frame6
  r1 : Byte
  ext : Bytes4
  -- counters (R30)
  probeLeft : Nat
  acmdDone : Nat
  pollLeft : Nat
  -- negotiation scratch (R31)
  cls : CardClass
  voltageAccepted : Bool
  -- data buffers (R32), two separate storages by DESIGN CHOICE (log 24), and the host's result arrays (R50, R204)
  dbuf : Memory
  rbuf : Memory
  outBlock : Memory
  outReg : Memory
  -- configuration (R8, R37)
  cfg : Config
  -- request port and result (R3, R235)
  reqPort : List Byte
  resp : Option Response
  -- Transport Port: answers to come (R12) and, the model's own, the count of answered calls (log 6)
  answers : List Answer
  draws : Nat
  -- the model's own observations of the last step (log 19)
  calls : List Call
  npath : List NState
  bpath : List BState
  -- the model's own wire item (log 13)
  wire : Option WireItem
  deriving DecidableEq, Repr

/-- CORE after reset (R38, R265), "CORE waits for the first operation" (R266). Values R38 leaves unspecified are those of log 10; the
parameters are a free value (log 8). -/
def State.reset : State where
  cardClass := .unclassified
  blockAddressing := .byteAddressed
  checksumEnabled := false
  table := []
  tableBuilt := false
  nstate := .idle
  bstate := .bIdle
  busy := false
  csHeld := false
  acc7 := 0
  reg16 := 0
  frame := ⟨0, 0, 0, 0, 0, 0⟩
  r1 := 0
  ext := ⟨0, 0, 0, 0⟩
  probeLeft := 0
  acmdDone := 0
  pollLeft := 0
  cls := .unclassified
  voltageAccepted := false
  dbuf := []
  rbuf := []
  outBlock := []
  outReg := []
  cfg := Config.chosen
  reqPort := []
  resp := none
  answers := []
  draws := 0
  calls := []
  npath := []
  bpath := []
  wire := none

end Sys2Proof.Machine
end

