-- ==== Sys2Proof/Machine/Ops.lean ====
section
/-! DEFINITION. The named operations over memory, the Transport Port, the FSM registers and the session (10_state.md,
60_exceptions.md), and the one operation that takes an error: the exit procedure (R245). -/

namespace Sys2Proof.Machine

/-- The byte at an address; 0 where none is listed (log 11). -/
def Memory.read : Memory → Nat → Byte
  | [], _ => 0
  | (k, b) :: m, a => if a = k then b else Memory.read m a

/-- The cells that hold a sequence from address `a` on, bytes 0 left out. -/
def Memory.cells : Nat → List Byte → Memory
  | _, [] => []
  | a, b :: bs => if b = 0 then Memory.cells (a + 1) bs else (a, b) :: Memory.cells (a + 1) bs

/-- A whole space written at once: "every space is read at one width only (a whole block, a whole register, a whole table entry)"
(R53), and CORE writes each whole. -/
def Memory.ofBytes (bs : List Byte) : Memory := Memory.cells 0 bs

/-- Canonical from address `lo` on: addresses strictly rising and below `size`, no listed byte 0. -/
def Memory.wfFrom (size : Nat) : Nat → Memory → Bool
  | _, [] => true
  | lo, (k, b) :: m => decide (lo ≤ k) && decide (k < size) && !(b == 0) && Memory.wfFrom size (k + 1) m

/-- The canonical form of a space of `size` bytes. -/
def Memory.wf (size : Nat) (m : Memory) : Bool := Memory.wfFrom size 0 m

/-- The outcome of one internal procedure: a value and the state, or an error raised (R10: "`raise E`"). -/
inductive Proc (α : Type) where
  | done (a : α) (s : State)
  | raised (e : Status) (s : State)

/-- Procedures in sequence: an error ends the operation at once (R247, R249). -/
def Proc.andThen {α β : Type} (p : Proc α) (f : α → State → Proc β) : Proc β :=
  match p with
  | .done a s => f a s
  | .raised e s => .raised e s

/-! ### The Transport Port (R252) -/

/-- One call recorded on the Transport Port, in order (R60). -/
def logCall (c : Call) (s : State) : State := { s with calls := s.calls ++ [c] }

/-- `T.select()` (R33, R252). -/
def tSelect (s : State) : State := { s with calls := s.calls ++ [.select], csHeld := true }

/-- `T.deselect()` (R33, R252). -/
def tDeselect (s : State) : State := { s with calls := s.calls ++ [.deselect], csHeld := false }

/-- `T.set_div(class)` (R219, R252). -/
def tSetDiv (c : SpeedClass) (s : State) : State := logCall (.setDiv c) s

/-- The first `n` bytes of an answer, from byte `i` on; a missing byte is the free value of call `k` (log 6). -/
def fitBytes (k : Nat) : Nat → Nat → List Byte → List Byte
  | 0, _, _ => []
  | n + 1, i, [] => Config.freeByte k i :: fitBytes k n (i + 1) []
  | n + 1, i, b :: bs => b :: fitBytes k n (i + 1) bs

/-- The next answer: `none` for `TErr`, else its `n` bytes. R12: "every answer byte and every `TErr` is an unconstrained input". -/
def nextAnswer (n : Nat) (s : State) : Option (List Byte) :=
  match s.answers with
  | .tErr :: _ => none
  | .data bs :: _ => some (fitBytes s.draws n 0 bs)
  | [] => if Config.freeFails s.draws then none else some (fitBytes s.draws n 0 [])

/-- The answer is consumed (R60 b). -/
def consumeAnswer (s : State) : State := { s with answers := s.answers.tail, draws := s.draws + 1 }

/-- A call that is answered: `TErr` becomes `Timeout` at once, with no retry (R158). -/
def tCall (c : Call) (n : Nat) (s : State) : Proc (List Byte) :=
  match nextAnswer n s with
  | none => .raised .timeout (consumeAnswer (logCall c s))
  | some bs => .done bs (consumeAnswer (logCall c s))

/-- `T.xbyte(0xFF)`: always the filler byte (R152, R252). -/
def tXbyte (s : State) : Proc Byte :=
  (tCall (.xbyte Config.fill s.cfg.tByte) 1 s).andThen fun bs s => .done (bs.headD 0) s

/-- `T.send(bytes)`: "Bytes the transport receives while sending are discarded" (R151). -/
def tSend (bytes : List Byte) (s : State) : Proc Unit :=
  (tCall (.send bytes s.cfg.tBuf) 0 s).andThen fun _ s => .done () s

/-- `T.recv(n)` (R252). -/
def tRecv (n : Nat) (s : State) : Proc (List Byte) := tCall (.recv n s.cfg.tBuf) n s

/-! ### FSM registers -/

/-- `nstate <- n` inside NEGOTIATE (R27: "each transition of 43_negotiation.md writes it"). -/
def enterN (n : NState) (s : State) : State := { s with nstate := n, npath := s.npath ++ [n] }

/-- `bstate <- b` inside the read transaction (R28). -/
def enterB (b : BState) (s : State) : State := { s with bstate := b, bpath := s.bpath ++ [b] }

/-! ### Working registers (R26, R29, R30, R31), the buffers and the table -/

/-- `poll_left <- n` (R30). -/
def setPollLeft (n : Nat) (s : State) : State := { s with pollLeft := n }

/-- `probe_left <- n` (R30). -/
def setProbeLeft (n : Nat) (s : State) : State := { s with probeLeft := n }

/-- `acmd_done <- n` (R30). -/
def setAcmdDone (n : Nat) (s : State) : State := { s with acmdDone := n }

/-- `cls <- c` (R31). -/
def setCls (c : CardClass) (s : State) : State := { s with cls := c }

/-- `voltage_accepted <- v` (R31). -/
def setVoltage (v : Bool) (s : State) : State := { s with voltageAccepted := v }

/-- `r1 <- b` (R29, R153). -/
def setR1 (b : Byte) (s : State) : State := { s with r1 := b }

/-- `ext[0..3] <- e` (R29, R154). -/
def setExt (e : Bytes4) (s : State) : State := { s with ext := e }

/-- `frame <- f` (R29). -/
def setFrame (f : Frame6) (s : State) : State := { s with frame := f }

/-- `acc7` written by a command checksum (R26). -/
def setAcc7 (v : BitVec 7) (s : State) : State := { s with acc7 := v }

/-- `reg16` written by a data checksum (R26). -/
def setReg16 (v : BitVec 16) (s : State) : State := { s with reg16 := v }

/-- `dbuf` written whole (R32). -/
def setDbuf (bs : List Byte) (s : State) : State := { s with dbuf := Memory.ofBytes bs }

/-- `rbuf` written whole (R32). -/
def setRbuf (bs : List Byte) (s : State) : State := { s with rbuf := Memory.ofBytes bs }

/-- The host's 512-byte `out` written whole (R204). -/
def setOutBlock (bs : List Byte) (s : State) : State := { s with outBlock := Memory.ofBytes bs }

/-- The host's 16-byte `out` written whole (R204). -/
def setOutReg (bs : List Byte) (s : State) : State := { s with outReg := Memory.ofBytes bs }

/-- `bstate <- BIdle` at the end of the read transaction (R198). -/
def endRead (s : State) : State := { s with bstate := .bIdle }

/-- All entries of `crc7_table`, and `table_built` (R112). -/
def setTable (m : Memory) (s : State) : State := { s with table := m, tableBuilt := true }

/-- `S.checksum_enabled <- v` (R218). -/
def setChecksumEnabled (v : Bool) (s : State) : State := { s with checksumEnabled := v }

/-! ### The session -/

/-- Not ready: `S.card_class` = `Unclassified` (R248). -/
def sessionReady (s : State) : Bool := decide (s.cardClass ≠ .unclassified)

/-- The teardown (R222): the three session registers to their reset values; the table is not touched. -/
def teardown (s : State) : State :=
  { s with cardClass := .unclassified, blockAddressing := .byteAddressed, checksumEnabled := false }

/-- The addressing mode the invariant of R22 fixes for a class (R186). -/
def addressingOf (c : CardClass) : Addressing := if c = .highCapacityV2 then .blockAddressed else .byteAddressed

/-- The commit of R186: class and addressing together; `S.checksum_enabled` is not written. -/
def commitSession (c : CardClass) (s : State) : State := { s with cardClass := c, blockAddressing := addressingOf c }

/-! ### Operations and errors -/

/-- A step begins: the observations of the last step are cleared (log 19). -/
def beginStep (s : State) : State := { s with calls := [], npath := [], bpath := [] }

/-- The request port accepts an operation (R35). -/
def accept (s : State) : State := { s with calls := [], npath := [], bpath := [], busy := true }

/-- "if cs_held: T.deselect()" (R245). -/
def releaseCs (s : State) : State := if s.csHeld then tDeselect s else s

/-- "nstate <- Idle; bstate <- BIdle; deliver status E; busy <- false" (R245). -/
def deliver (st : Status) (v : Value) (s : State) : State :=
  { s with nstate := .idle, bstate := .bIdle, resp := some ⟨st, v⟩, busy := false }

/-- TAKING AN ERROR: the exit procedure of R245, which every `raise` runs; "the successful end of an operation does the same with
status `Ok`". It saves nothing and goes nowhere else: there is no handler, and there is nothing to return from (R245, R247). -/
def exit (st : Status) (v : Value) (s : State) : State := deliver st v (releaseCs s)

/-- The end of an operation: a value with status `Ok`, or the error it met first (R235, R249). -/
def finish : Proc Value → State
  | .done v s => exit .ok v s
  | .raised e s => exit e .none s

/-- One host operation, from acceptance to result (R12, R35). -/
def runOperation (body : State → Proc Value) (s : State) : Host.Outcome State Fault Refusal :=
  .next (finish (body (accept s)))

/-- One internal procedure run alone (R150: it "either returns a value or raises an error"; an error runs the exit procedure). No
result is delivered when it returns (log 13). -/
def runInternal (body : State → Proc Unit) (s : State) : Host.Outcome State Fault Refusal :=
  match body (beginStep s) with
  | .done _ s' => .next s'
  | .raised e s' => .next (exit e .none s')

/-- "if not table_built: raise TableNotBuilt" (R243, R249), before anything else. -/
def needTable (s : State) : Proc Unit := if s.tableBuilt then .done () s else .raised .tableNotBuilt s

/-- The not-ready gate (R248, R249). -/
def needReady (s : State) : Proc Unit := if sessionReady s then .done () s else .raised .notReady s

/-- The bytes of a request leave the request port (R60 c). -/
def takeRequest (rest : List Byte) (s : State) : State := { s with reqPort := rest }

/-- The wire item leaves the internal sequencer (log 13). -/
def takeWire (s : State) : State := { s with wire := none }

/-- A request whose select code no row has: `BadOperation`, no state change, no transport call (R84, R244). -/
def badOperation (s : State) : State := exit .badOperation .none (accept s)

end Sys2Proof.Machine
end

