-- ==== Sys2Proof/Machine/Operands.lean ====
section
/-! DEFINITION. How each command argument is built (R56, R75) and how the data transfers are sized (R55). -/

namespace Sys2Proof.Machine

/-- The argument of READ_BLOCK's frame (R56): the index, or `index * 512` at 32 bits. -/
def translateIndex (a : Addressing) (index : Word) : Word :=
  if a = .blockAddressed then index else index * 512

/-- The argument of index 8 (R75): `arg[11:8]` the voltage range, `arg[7:0]` the check pattern; `0x000001AA`. -/
def probeArg : Word := (0 : BitVec 20) ++ Config.vhs2736 ++ Config.checkPattern

/-- The argument of index 41 (R75, R178): bit 30 set unless the card was classified `LegacyV1`. -/
def hcsArg (cls : CardClass) : Word := if cls = .legacyV1 then 0x00000000 else 0x40000000

/-- The two data transfers (R55): a block, or a register block. -/
inductive Transfer where
  | block
  | register
  deriving DecidableEq, Repr

/-- Payload bytes of a transfer (R55). -/
def payloadLen : Transfer → Nat
  | .block => Config.blockLen
  | .register => Config.regLen

/-- The buffer a transfer is received in (R198: `dbuf` for 512 bytes, `rbuf` for 16). DESIGN CHOICE (log 24): R32 says of `rbuf` that
"it may share storage with `dbuf`"; the two are kept apart, so a transfer leaves the other buffer as it was. -/
def storeBuffer (t : Transfer) (bs : List Byte) (s : State) : State :=
  match t with
  | .block => setDbuf bs s
  | .register => setRbuf bs s

/-- The payload written to the host's `out` (R204). -/
def deliverPayload (t : Transfer) (payload : List Byte) (s : State) : State :=
  match t with
  | .block => setOutBlock payload s
  | .register => setOutReg payload s

/-- The received checksum `rx` = `buf[n] ++ buf[n+1]` (R200). -/
def trailerOf (n : Nat) (buf : List Byte) : BitVec 16 := be16 (buf.getD n 0) (buf.getD (n + 1) 0)

end Sys2Proof.Machine
end

