-- ==== Sys2Proof/Machine/Exchange.lean ====
section
/-! DEFINITION. The command exchange procedures (42_command_exchange.md) and what CORE does with each item it receives. -/

namespace Sys2Proof.Machine

/-- CRC7 over the machine's table (R113); `acc7` ends with the result. -/
def crc7OverTable (msg : List Byte) (s : State) : BitVec 7 := crc7Over (Memory.read s.table) msg

/-- ENCODE_CMD's function (R131) with the machine's table. -/
def buildFrame (index : BitVec 6) (arg : Word) (s : State) : Frame6 :=
  packFrame index arg (crc7OverTable (frameHead index arg) s)

/-- The frame and the accumulator registers written (R26, R29, R131). -/
def loadFrame (index : BitVec 6) (arg : Word) (s : State) : State :=
  setFrame (buildFrame index arg s) (setAcc7 (crc7OverTable (frameHead index arg) s) s)

/-- `send_frame` (R151). -/
def sendFrame (index : BitVec 6) (arg : Word) (s : State) : Proc Unit :=
  tSend (listOf6 (buildFrame index arg s)) (loadFrame index arg s)

/-- The loop of `wait_r1` with `n` polls left (R153). -/
def pollR1 : Nat → State → Proc Byte
  | 0, s => .raised .timeout (setPollLeft 0 s)
  | n + 1, s =>
    (tXbyte (setPollLeft (n + 1) s)).andThen fun b s =>
      if b.getLsbD 7 then pollR1 n s else .done b (setR1 b s)

/-- `wait_r1` (R153). -/
def waitR1 (s : State) : Proc Byte := pollR1 s.cfg.nR1Poll s

/-- `read_ext` (R154). -/
def readExt (s : State) : Proc Unit :=
  (tRecv 4 s).andThen fun bs s => .done () (setExt (bytes4At bs) s)

/-- `xchg_short` (R155). -/
def xchgShort (index : BitVec 6) (arg : Word) (s : State) : Proc Byte :=
  (sendFrame index arg (tSelect s)).andThen fun _ s =>
    (waitR1 s).andThen fun b s => .done b (tDeselect s)

/-- `xchg_long` (R156); the extended response, when read, stands in `ext`. -/
def xchgLong (index : BitVec 6) (arg : Word) (wantExt : Byte → Bool) (s : State) : Proc Byte :=
  (sendFrame index arg (tSelect s)).andThen fun _ s =>
    (waitR1 s).andThen fun b s =>
      if wantExt b then (readExt s).andThen fun _ s => .done b (tDeselect s) else .done b (tDeselect s)

/-- `want_ext` of index 8: "R1 does not report illegal-command" (R156, R171). -/
def wantIfCond (b : Byte) : Bool := !b.getLsbD 2

/-- `want_ext` of index 58: only with the idle flag in ReadOcrInitial (R176), always in ReadOcrFinal (R184) and, as the command
set's "long" response says (R74), in any other state (log 15). -/
def wantOcr (n : NState) (b : Byte) : Bool := if n = .readOcrInitial then b.getLsbD 0 else true

/-- The echo of the probe matches: the check pattern alone is compared (R174). -/
def echoMatches (e : Bytes4) : Bool := (ifCondOf e).checkPattern == Config.checkPattern

/-- What the interface-condition view decides in ProbeInterface (R174). -/
def judgeIfCond (s : State) : State :=
  if s.nstate = .probeInterface ∧ echoMatches s.ext then setVoltage true (setCls .standardV2 s) else s

/-- What the operating-condition view decides: the class in ReadOcrFinal (R184), nothing elsewhere (R176). -/
def judgeOcr (s : State) : State :=
  if s.nstate = .readOcrFinal then
    setCls (if (ocrOf s.ext).ccs then .highCapacityV2 else .standardV2) s
  else s

/-- The start token seen in the token wait: the data phase begins (R198, R199). -/
def takeToken (s : State) : State := if s.bstate = .bToken then enterB .bData s else s

end Sys2Proof.Machine
end

