-- ==== Sys2Proof/Machine/BlockTransfer.lean ====
section
/-! DEFINITION. The Block Transfer Engine (44_block_transfer.md): the read transaction and READ_BLOCK, READ_CID, READ_CSD. -/

namespace Sys2Proof.Machine

/-- The loop of `wait_token` with `n` polls left (R199): every byte other than `0xFE` is filler. -/
def pollToken : Nat → State → Proc Unit
  | 0, s => .raised .timeout (setPollLeft 0 s)
  | n + 1, s =>
    (tXbyte (setPollLeft (n + 1) s)).andThen fun b s =>
      if b = Config.startToken then .done () (takeToken s) else pollToken n s

/-- `wait_token` (R199), entered with `bstate <- BToken` (R198). -/
def waitToken (s : State) : Proc Unit :=
  pollToken s.cfg.nTokenPoll (enterB .bToken s)

/-- Phase `BCommand` (R198, R202): send the frame, wait for R1, judge it. -/
def readCommand (index : BitVec 6) (arg : Word) (s : State) : Proc Unit :=
  (sendFrame index arg (tSelect (enterB .bCommand s))).andThen fun _ s =>
    (waitR1 s).andThen fun b s =>
      match r1Error b with
      | none => .done () s
      | some e => .raised e s

/-- The comparison of R201: with `check`, the payload's CRC16 must equal the trailer, `reg16` ending with the recomputed register
(R116); on a mismatch the payload is delivered all the same (R204). -/
def validate (t : Transfer) (check : Bool) (payload : List Byte) (rx : BitVec 16) (s : State) : Proc (List Byte) :=
  if check then
    if crc16 payload = rx then .done payload (setReg16 (crc16Reg payload) s)
    else .raised .dataChecksumError (deliverPayload t payload (setReg16 (crc16Reg payload) s))
  else .done payload s

/-- Phase `BCheck` (R198, R200, R201): split and validate. -/
def checkData (t : Transfer) (check : Bool) (buf : List Byte) (s : State) : Proc (List Byte) :=
  validate t check (buf.take (payloadLen t)) (trailerOf (payloadLen t) buf) (enterB .bCheck s)

/-- Phase `BData` and the split (R200): one receive of n + 2 bytes. -/
def receiveData (t : Transfer) (s : State) : Proc (List Byte) :=
  (tRecv (payloadLen t + Config.trailerLen) s).andThen fun buf s => .done buf (storeBuffer t buf s)

/-- `read_data` (R198): one chip-select hold over everything. -/
def readData (index : BitVec 6) (arg : Word) (t : Transfer) (check : Bool) (s : State) : Proc (List Byte) :=
  (readCommand index arg s).andThen fun _ s =>
    (waitToken s).andThen fun _ s =>
      (receiveData t s).andThen fun buf s =>
        (checkData t check buf s).andThen fun payload s => .done payload (endRead (tDeselect s))

/-- The entry checks of the three reads (R197): the table, then the gate. -/
def readEntry (s : State) : Proc Unit := (needTable s).andThen fun _ s => needReady s

/-- READ_BLOCK (R196). -/
def readBlockBody (index : Word) (s : State) : Proc Value :=
  (readEntry s).andThen fun _ s =>
    (readData 17 (translateIndex s.blockAddressing index) .block s.checksumEnabled s).andThen fun payload s =>
      .done .block (deliverPayload .block payload s)

/-- The register reads (R205): argument 0, 16 bytes, never checked. -/
def readRegisterBody (index : BitVec 6) (view : List Byte → Value) (s : State) : Proc Value :=
  (readEntry s).andThen fun _ s =>
    (readData index 0 .register false s).andThen fun payload s =>
      .done (view payload) (deliverPayload .register payload s)

/-- READ_BLOCK, select code 0x0B. -/
def execReadBlock (index : Word) (s : State) : Host.Outcome State Fault Refusal := runOperation (readBlockBody index) s

/-- READ_CID (R206), select code 0x0C. -/
def execReadCid (s : State) : Host.Outcome State Fault Refusal :=
  runOperation (readRegisterBody 10 fun p => .cid (cidOf p)) s

/-- READ_CSD (R207), select code 0x0D. -/
def execReadCsd (s : State) : Host.Outcome State Fault Refusal :=
  runOperation (readRegisterBody 9 fun p => .csd (csdOf p)) s

end Sys2Proof.Machine
end

