-- ==== Sys2Proof/Machine/ChecksumOps.lean ====
section
/-! DEFINITION. BUILD_TABLE, CRC7 and CRC16 (40_checksum.md). -/

namespace Sys2Proof.Machine

/-- The 256 entries of R111. -/
def tableBytesOfSpec : List Byte := (List.range Config.tableLen).map fun i => tableEntry (BitVec.ofNat 8 i)

/-- The Checksum Table with the contents of R111. -/
def builtTable : Memory := Memory.ofBytes tableBytesOfSpec

/-- BUILD_TABLE (R112), select code 0x00: all 256 entries and the flag. -/
def execBuildTable (s : State) : Host.Outcome State Fault Refusal :=
  runOperation (fun s => .done .none (setTable builtTable s)) s

/-- CRC7 (R113), select code 0x01. -/
def execCrc7 (msg : List Byte) (s : State) : Host.Outcome State Fault Refusal :=
  runOperation (fun s => (needTable s).andThen fun _ s =>
    .done (.u7 (crc7OverTable msg s)) (setAcc7 (crc7OverTable msg s) s)) s

/-- CRC16 (R116), select code 0x02: "it does not use the table". -/
def execCrc16 (data : List Byte) (s : State) : Host.Outcome State Fault Refusal :=
  runOperation (fun s => .done (.u16 (crc16 data)) (setReg16 (crc16Reg data) s)) s

end Sys2Proof.Machine
end

