-- ==== Sys2Proof/Machine/CodecOps.lean ====
section
/-! DEFINITION. The Frame Codec's operations (41_frame_codec.md). Only ENCODE_CMD can fail, and only for want of the table (R130,
R131). -/

namespace Sys2Proof.Machine

/-- ENCODE_CMD's effect (R131): the frame register written and returned. -/
def encodeBody (index : BitVec 6) (arg : Word) (s : State) : Proc Value :=
  (needTable s).andThen fun _ s => .done (.frame (buildFrame index arg s)) (loadFrame index arg s)

/-- An operation that only computes a value: "Writes no state, reads no state, no transport call, no error" (R133). -/
def pureOperation (v : Value) (s : State) : Host.Outcome State Fault Refusal := runOperation (fun s => .done v s) s

/-- ENCODE_CMD (R131), select code 0x03. -/
def execEncodeCmd (index : BitVec 6) (arg : Word) (s : State) : Host.Outcome State Fault Refusal :=
  runOperation (encodeBody index arg) s

/-- DECODE_R1 (R133), select code 0x04. -/
def execDecodeR1 (b : Byte) (s : State) : Host.Outcome State Fault Refusal := pureOperation (.r1Status (decodeR1Byte b)) s

/-- ENCODE_R1 (R134), select code 0x05. -/
def execEncodeR1 (r : R1Status) (s : State) : Host.Outcome State Fault Refusal := pureOperation (.byte (encodeR1Byte r)) s

/-- DECODE_OCR (R136), select code 0x06. -/
def execDecodeOcr (e : Bytes4) (s : State) : Host.Outcome State Fault Refusal := pureOperation (.ocr (ocrOf e)) s

/-- DECODE_IFCOND (R137), select code 0x07. -/
def execDecodeIfCond (e : Bytes4) (s : State) : Host.Outcome State Fault Refusal := pureOperation (.ifCond (ifCondOf e)) s

/-- DECODE_CID (R140), select code 0x08. -/
def execDecodeCid (p : List Byte) (s : State) : Host.Outcome State Fault Refusal := pureOperation (.cid (cidOf p)) s

/-- DECODE_CSD (R141), select code 0x09. -/
def execDecodeCsd (p : List Byte) (s : State) : Host.Outcome State Fault Refusal := pureOperation (.csd (csdOf p)) s

end Sys2Proof.Machine
end

