-- ==== Sys2Proof/Machine/Negotiation.lean ====
section
/-! DEFINITION. The Negotiation State Machine (43_negotiation.md): NEGOTIATE, one definition per state of R165. -/

namespace Sys2Proof.Machine

/-- Entry (R167 b, c): a session that is not `Unclassified` is torn down first; the scratch is cleared. -/
def negotiateEntry (s : State) : State :=
  setCls .unclassified (setVoltage false (if sessionReady s then teardown s else s))

/-- States `Start` (R168: nothing is done in it) and `ResetIdle` (R169): index 0 once, its R1 not inspected. -/
def resetIdle (s : State) : Proc Unit :=
  (xchgShort 0 0 (enterN .resetIdle (enterN .start s))).andThen fun _ s => .done () s

/-- Attempts of `ProbeInterface` while `n` are left (R171 to R175). -/
def probeLoop : Nat → State → Proc Unit
  | 0, s => .raised .protocolMismatch s
  | n + 1, s =>
    (xchgLong 8 probeArg wantIfCond s).andThen fun b s =>
      if b.getLsbD 2 then .done () (setCls .legacyV1 s)
      else if echoMatches s.ext then .done () (judgeIfCond s)
      else probeLoop n (setProbeLeft n s)

/-- State `ProbeInterface` (R170). -/
def probeInterface (s : State) : Proc Unit :=
  probeLoop Config.nProbe (setProbeLeft Config.nProbe (enterN .probeInterface s))

/-- State `ReadOcrInitial` (R176), skipped on the legacy path (R172). -/
def readOcrInitial (s : State) : Proc Unit :=
  if s.cls = .legacyV1 then .done () s
  else
    (xchgLong 58 0 (wantOcr .readOcrInitial) (enterN .readOcrInitial s)).andThen fun _ s => .done () (judgeOcr s)

/-- Iterations of `AcmdInitLoop` while `n` are left (R180, R181): test-after, on bit 0 of the R1 of index 41. -/
def acmdLoop : Nat → Word → State → Proc Unit
  | 0, _, s => .raised .initTimeout s
  | n + 1, hcs, s =>
    (xchgShort 55 0 s).andThen fun _ s =>
      (xchgShort 41 hcs s).andThen fun b s =>
        if b.getLsbD 0 then acmdLoop n hcs (setAcmdDone (s.acmdDone + 1) s)
        else .done () (setAcmdDone (s.acmdDone + 1) s)

/-- State `AcmdInitLoop` (R178). -/
def acmdInitLoop (s : State) : Proc Unit :=
  acmdLoop Config.nAcmd (hcsArg s.cls) (setAcmdDone 0 (enterN .acmdInitLoop s))

/-- State `ReadOcrFinal` (R184), skipped on the legacy path (R182). -/
def readOcrFinal (s : State) : Proc Unit :=
  if s.cls = .legacyV1 then .done () s
  else
    (xchgLong 58 0 (wantOcr .readOcrFinal) (enterN .readOcrFinal s)).andThen fun _ s => .done () (judgeOcr s)

/-- State `Ready` (R186): commit, and the class is the result. -/
def becomeReady (s : State) : Proc Value :=
  .done (.cardClass s.cls) (commitSession s.cls (enterN .ready s))

/-- The states in their order (R165, R189). -/
def negotiationStates (s : State) : Proc Value :=
  (resetIdle s).andThen fun _ s =>
    (probeInterface s).andThen fun _ s =>
      (readOcrInitial s).andThen fun _ s =>
        (acmdInitLoop s).andThen fun _ s =>
          (readOcrFinal s).andThen fun _ s => becomeReady s

/-- An error of a state takes the machine to `Failed` (R187); nothing is committed. -/
def toFailed : Proc Value → Proc Value
  | .done v s => .done v s
  | .raised e s => .raised e (enterN .failed s)

/-- NEGOTIATE (R166, R189). -/
def negotiateBody (s : State) : Proc Value :=
  (needTable s).andThen fun _ s => toFailed (negotiationStates (negotiateEntry s))

/-- NEGOTIATE, select code 0x0A. -/
def execNegotiate (s : State) : Host.Outcome State Fault Refusal := runOperation negotiateBody s

end Sys2Proof.Machine
end

