-- ==== Sys2Proof/Machine/Session.lean ====
section
/-! DEFINITION. The Card Session facade (45_session.md): two toggles, three queries and the teardown. None is gated (R216). -/

namespace Sys2Proof.Machine

/-- SET_DATA_CHECKSUM (R218), select code 0x0E: "No transport call". -/
def execSetDataChecksum (enabled : Bool) (s : State) : Host.Outcome State Fault Refusal :=
  runOperation (fun s => .done .none (setChecksumEnabled enabled s)) s

/-- SET_SPEED_CLASS (R219), select code 0x0F: "exactly one `T.set_div(class)`"; CORE keeps no copy. -/
def execSetSpeedClass (c : SpeedClass) (s : State) : Host.Outcome State Fault Refusal :=
  runOperation (fun s => .done .none (tSetDiv c s)) s

/-- CARD_CLASS (R220), select code 0x10. -/
def execCardClass (s : State) : Host.Outcome State Fault Refusal := pureOperation (.cardClass s.cardClass) s

/-- BLOCK_LENGTH (R221), select code 0x11: 512 while Ready, 0 otherwise. -/
def execBlockLength (s : State) : Host.Outcome State Fault Refusal :=
  pureOperation (.u32 (if sessionReady s then 512 else 0)) s

/-- SESSION_RESET (R222), select code 0x12. -/
def execSessionReset (s : State) : Host.Outcome State Fault Refusal := runOperation (fun s => .done .none (teardown s)) s

/-- BLOCK_ADDRESSING (R223), select code 0x13. -/
def execBlockAddressing (s : State) : Host.Outcome State Fault Refusal := pureOperation (.addressing s.blockAddressing) s

end Sys2Proof.Machine
end

