-- ==== Sys2Proof/Machine/Wire.lean ====
section
/-! DEFINITION. The table's wire-format rows run alone (log 13). A command frame CORE sends (R74) is the internal procedure CORE runs
with it: a short exchange (R155), a long one (R156) or the read transaction (R198), for any argument. The two rows CORE never sends,
index 59 (R75) and the general frame (R131), are ENCODE_CMD's (log 16). What CORE receives, the R1 byte, the token and the two
views, has the effect its arrival has. -/

namespace Sys2Proof.Machine

/-- A short exchange alone, once the table is known to be built (R150). -/
def shortExchange (index : BitVec 6) (arg : Word) (s : State) : Proc Unit :=
  (needTable s).andThen fun _ s => (xchgShort index arg s).andThen fun _ s => .done () s

/-- A long exchange alone. -/
def longExchange (index : BitVec 6) (arg : Word) (wantExt : Byte → Bool) (s : State) : Proc Unit :=
  (needTable s).andThen fun _ s => (xchgLong index arg wantExt s).andThen fun _ s => .done () s

/-- A read transaction alone; the payload stays in the data buffer. -/
def readExchange (index : BitVec 6) (arg : Word) (t : Transfer) (check : Bool) (s : State) : Proc Unit :=
  (needTable s).andThen fun _ s => (readData index arg t check s).andThen fun _ s => .done () s

/-- CMD0 go-idle (R74: short). -/
def execCmd0 (arg : Word) (s : State) : Host.Outcome State Fault Refusal := runInternal (shortExchange 0 arg) s

/-- CMD8 send-interface-condition (R74: "long, interface-condition view; short when R1 reports illegal-command"). -/
def execCmd8 (arg : Word) (s : State) : Host.Outcome State Fault Refusal := runInternal (longExchange 8 arg wantIfCond) s

/-- CMD9 send-CSD (R74: data, 16 bytes; R205: never checked). -/
def execCmd9 (arg : Word) (s : State) : Host.Outcome State Fault Refusal :=
  runInternal (readExchange 9 arg .register false) s

/-- CMD10 send-CID (R74: data, 16 bytes; R205: never checked). -/
def execCmd10 (arg : Word) (s : State) : Host.Outcome State Fault Refusal :=
  runInternal (readExchange 10 arg .register false) s

/-- CMD17 read-single-block (R74: data, 512 bytes; R201: checked when the session says so). -/
def execCmd17 (arg : Word) (s : State) : Host.Outcome State Fault Refusal :=
  runInternal (readExchange 17 arg .block s.checksumEnabled) s

/-- CMD41 send-application-op-condition (R74: short). -/
def execCmd41 (arg : Word) (s : State) : Host.Outcome State Fault Refusal := runInternal (shortExchange 41 arg) s

/-- CMD55 application-command marker (R74: short). -/
def execCmd55 (arg : Word) (s : State) : Host.Outcome State Fault Refusal := runInternal (shortExchange 55 arg) s

/-- CMD58 read-OCR (R74: long; R176, R184: when the payload is read depends on the negotiation state, log 15). -/
def execCmd58 (arg : Word) (s : State) : Host.Outcome State Fault Refusal :=
  runInternal (longExchange 58 arg (wantOcr s.nstate)) s

/-- CMD59 toggle-checksum (R75: "CORE never sends it; ENCODE_CMD will encode it like any index"). -/
def execCmd59 (arg : Word) (s : State) : Host.Outcome State Fault Refusal := runOperation (encodeBody 59 arg) s

/-- The general frame, "via ENCODE_CMD" (R131). -/
def execCmdAny (index : BitVec 6) (arg : Word) (s : State) : Host.Outcome State Fault Refusal :=
  runOperation (encodeBody index arg) s

/-- The R1 response byte (R76) arrives: "r1 <- b" when its bit 7 is 0, else it is filler and nothing is stored (R77, R153). -/
def execR1Response (r : R1Status) (s : State) : Host.Outcome State Fault Refusal :=
  .next (if r.zeroBit then beginStep s else setR1 (encodeR1Byte r) (beginStep s))

/-- The start-data-token arrives (R199): consumed, and in the token wait the data phase begins. -/
def execStartToken (s : State) : Host.Outcome State Fault Refusal := .next (takeToken (beginStep s))

/-- The extended response arrives and is read under the operating-condition view (R78, R154, R176, R184). -/
def execOcrView (e : Bytes4) (s : State) : Host.Outcome State Fault Refusal :=
  .next (judgeOcr (setExt e (beginStep s)))

/-- The extended response arrives and is read under the interface-condition view (R79, R154, R174). -/
def execIfCondView (e : Bytes4) (s : State) : Host.Outcome State Fault Refusal :=
  .next (judgeIfCond (setExt e (beginStep s)))

end Sys2Proof.Machine
end

