-- ==== Sys2Proof/Machine/Dispatch.lean ====
section
/-! DEFINITION. One arm per row of spec/opcode_table.json. -/

namespace Sys2Proof.Machine

def exec (i : Instr) (s : State) : Host.Outcome State Fault Refusal :=
  match i with
  | .buildTable => Sys2Proof.Machine.execBuildTable s
  | .crc7 msg => Sys2Proof.Machine.execCrc7 msg s
  | .crc16 data => Sys2Proof.Machine.execCrc16 data s
  | .encodeCmd index arg => Sys2Proof.Machine.execEncodeCmd index arg s
  | .decodeR1 b => Sys2Proof.Machine.execDecodeR1 b s
  | .encodeR1 r => Sys2Proof.Machine.execEncodeR1 r s
  | .decodeOcr e => Sys2Proof.Machine.execDecodeOcr e s
  | .decodeIfCond e => Sys2Proof.Machine.execDecodeIfCond e s
  | .decodeCid p => Sys2Proof.Machine.execDecodeCid p s
  | .decodeCsd p => Sys2Proof.Machine.execDecodeCsd p s
  | .negotiate => Sys2Proof.Machine.execNegotiate s
  | .readBlock index => Sys2Proof.Machine.execReadBlock index s
  | .readCid => Sys2Proof.Machine.execReadCid s
  | .readCsd => Sys2Proof.Machine.execReadCsd s
  | .setDataChecksum enabled => Sys2Proof.Machine.execSetDataChecksum enabled s
  | .setSpeedClass c => Sys2Proof.Machine.execSetSpeedClass c s
  | .cardClass => Sys2Proof.Machine.execCardClass s
  | .blockLength => Sys2Proof.Machine.execBlockLength s
  | .sessionReset => Sys2Proof.Machine.execSessionReset s
  | .blockAddressing => Sys2Proof.Machine.execBlockAddressing s
  | .cmd0 arg _ => Sys2Proof.Machine.execCmd0 arg s
  | .cmd8 arg _ => Sys2Proof.Machine.execCmd8 arg s
  | .cmd9 arg _ => Sys2Proof.Machine.execCmd9 arg s
  | .cmd10 arg _ => Sys2Proof.Machine.execCmd10 arg s
  | .cmd17 arg _ => Sys2Proof.Machine.execCmd17 arg s
  | .cmd41 arg _ => Sys2Proof.Machine.execCmd41 arg s
  | .cmd55 arg _ => Sys2Proof.Machine.execCmd55 arg s
  | .cmd58 arg _ => Sys2Proof.Machine.execCmd58 arg s
  | .cmd59 arg _ => Sys2Proof.Machine.execCmd59 arg s
  | .cmdAny index arg _ => Sys2Proof.Machine.execCmdAny index arg s
  | .r1Response r => Sys2Proof.Machine.execR1Response r s
  | .startToken => Sys2Proof.Machine.execStartToken s
  | .ocrView e => Sys2Proof.Machine.execOcrView e s
  | .ifCondView e => Sys2Proof.Machine.execIfCondView e s

end Sys2Proof.Machine
end

