-- ==== Sys2Proof/Machine/Fetch.lean ====
section
/-! DEFINITION. What a step does with what it fetched. -/

namespace Sys2Proof.Machine

/-- A decoded item is run. The checksum field of a frame row is CORE's own to compute (R131, R151), so a step does not read it: the
frame sent carries the right checksum whatever the item's field holds (log 17). -/
def runDecoded (i : Instr) (s : State) : Host.Outcome State Fault Refusal := exec i s

/-- What a step does with what the decoder read, `take` taking the bytes read from where they stood. An incomplete item is waited for
(R266, log 5). An unassigned select code is answered with `BadOperation` (R244, log 4). A byte that is no R1 is filler (R77, R153; U3:
"skipped as filler", "Never a fault"), and so is a byte that is no token (R199; U10: "Not a fault of its own"): it is taken and the
wait stands as it was. Six bytes that are no frame (R132) are taken and nothing is sent (log 13). -/
def runRead (take : List Byte → State → State) (d : Decoded) (s : State) : Host.Outcome State Fault Refusal :=
  match d with
  | .instr i rest => runDecoded i (take rest s)
  | .needMore => .next s
  | .badCode _ rest => .next (badOperation (take rest s))
  | .badOperand => .refused .operandOutsideType
  | .badFrame => .next (beginStep (take [] s))
  | .badR1 => .next (beginStep (take [] s))
  | .badToken => .next (beginStep (take [] s))

/-- The wire item at the internal sequencer (log 13). -/
def stepWire (w : WireItem) (s : State) : Host.Outcome State Fault Refusal :=
  runRead (fun _ s => takeWire s) (decode w.port w.bytes) s

/-- The request at the request port (R35, R60 c). -/
def stepRequest (s : State) : Host.Outcome State Fault Refusal := runRead takeRequest (decode .request s.reqPort) s

/-- One step: a wire item if one stands at the internal sequencer; else, "While `busy` the request port accepts nothing" (R35); else
the next request (R60 c). -/
def stepOnce (s : State) : Host.Outcome State Fault Refusal :=
  match s.wire with
  | some w => stepWire w s
  | none => if s.busy then .next s else stepRequest s

/-- The state in which the next step fetches the given bytes at the given port. -/
def placeBytes (port : Port) (bytes : List Byte) (s : State) : State :=
  if port = .request then { s with reqPort := bytes, wire := none, busy := false }
  else { s with wire := some ⟨port, bytes⟩ }

end Sys2Proof.Machine
end

