-- ==== Sys2Proof/Machine/Step.lean ====
section
/-! DEFINITION. One step of CORE. -/

namespace Sys2Proof.Machine

/-- One step: one host operation, whole (R12, R35), or one wire item (log 13). -/
def step (s : State) : Host.Outcome State Fault Refusal := stepOnce s

/-- `s` with a word of the opcode table where the next step fetches: at the request port (the host issues that operation), or at the
internal sequencer for a wire-format row (log 12). -/
def State.withFetchWord (s : State) (nbits w : Nat) : State := placeBytes (tablePort nbits w) (tableBytes nbits w) s

end Sys2Proof.Machine
end

