-- ==== Sys2Proof/Safety.lean ====
section
/-! DEFINITION. What a safe state and a safe run of CORE are, in the terms the statements use: the invariant, the chip-select
discipline of a call list, states that agree on a part, and scripted Transport Port answers. -/

namespace Sys2Proof

open Machine

/-! ### The invariant -/

/-- A state between two operations: the session invariant (R22), chip-select released and no operation in flight (R33, R35,
R245), the FSMs at rest (R27, R28), a built table with the contents of R111, canonical storages of their sizes (R24, R32, R50; log
11), counters within their bounds (R30: "No counter wraps"). -/
structure Inv (s : State) : Prop where
  session : s.blockAddressing = .blockAddressed ↔ s.cardClass = .highCapacityV2
  released : s.csHeld = false
  quiet : s.busy = false
  nAtRest : s.nstate = .idle
  bAtRest : s.bstate = .bIdle
  tableContents : s.tableBuilt = true → s.table = builtTable
  tableWf : Memory.wf Config.tableLen s.table = true
  dbufWf : Memory.wf 514 s.dbuf = true
  rbufWf : Memory.wf 18 s.rbuf = true
  outBlockWf : Memory.wf Config.blockLen s.outBlock = true
  outRegWf : Memory.wf Config.regLen s.outReg = true
  probeBound : s.probeLeft ≤ Config.nProbe
  acmdBound : s.acmdDone ≤ Config.nAcmd
  pollBound : s.pollLeft ≤ max s.cfg.nR1Poll s.cfg.nTokenPoll

/-- Between two operations, with the table built (R267). -/
def Built (s : State) : Prop := Inv s ∧ s.tableBuilt = true

/-- Between two operations, after a successful NEGOTIATE (R248, R269). -/
def Ready (s : State) : Prop := Built s ∧ s.cardClass ≠ .unclassified

/-! ### Chip-select discipline of a call list -/

/-- Chip-select after a list of calls, `none` where the list breaks the discipline of R157 and R252: no `select` while held, no
`deselect` while released, bytes moved only while held. -/
def csAfter : Bool → List Call → Option Bool
  | held, [] => some held
  | held, .select :: cs => if held then none else csAfter true cs
  | held, .deselect :: cs => if held then csAfter false cs else none
  | held, .xbyte _ _ :: cs => if held then csAfter held cs else none
  | held, .send _ _ :: cs => if held then csAfter held cs else none
  | held, .recv _ _ :: cs => if held then csAfter held cs else none
  | held, .setDiv _ :: cs => csAfter held cs

/-- How many calls of a list are of a kind. -/
def countCalls (p : Call → Bool) (cs : List Call) : Nat := (cs.filter p).length

/-- A `T.select()`. -/
def isSelect (c : Call) : Bool := match c with
  | .select => true
  | _ => false

/-- A `T.deselect()`. -/
def isDeselect (c : Call) : Bool := match c with
  | .deselect => true
  | _ => false

/-- A `T.xbyte`. -/
def isXbyte (c : Call) : Bool := match c with
  | .xbyte _ _ => true
  | _ => false

/-- A `T.send`. -/
def isSend (c : Call) : Bool := match c with
  | .send _ _ => true
  | _ => false

/-- A `T.recv`. -/
def isRecv (c : Call) : Bool := match c with
  | .recv _ _ => true
  | _ => false

/-- A `T.set_div`. -/
def isSetDiv (c : Call) : Bool := match c with
  | .setDiv _ => true
  | _ => false

/-- A `T.send` of a frame with the given first byte (R72: `0x40 | index`). -/
def isSendOf (first : Byte) (c : Call) : Bool := match c with
  | .send bytes _ => bytes.head? == some first
  | _ => false

/-! ### States that agree on a part -/

/-- The three session registers agree (R21, R22, R23). -/
def SameSession (s t : State) : Prop :=
  t.cardClass = s.cardClass ∧ t.blockAddressing = s.blockAddressing ∧ t.checksumEnabled = s.checksumEnabled

/-- The Checksum Table and its flag agree (R24, R25). -/
def SameTable (s t : State) : Prop := (∀ a, Memory.read t.table a = Memory.read s.table a) ∧ t.tableBuilt = s.tableBuilt

/-- Every byte of the host's result arrays agrees (R50, R204). -/
def SameOut (s t : State) : Prop :=
  (∀ a, Memory.read t.outBlock a = Memory.read s.outBlock a) ∧ (∀ a, Memory.read t.outReg a = Memory.read s.outReg a)

/-- Every byte of the data buffers agrees (R32). -/
def SameBuffers (s t : State) : Prop :=
  (∀ a, Memory.read t.dbuf a = Memory.read s.dbuf a) ∧ (∀ a, Memory.read t.rbuf a = Memory.read s.rbuf a)

/-- The configuration, the request port and the internal sequencer agree (R37). -/
def SameInputs (s t : State) : Prop := t.cfg = s.cfg ∧ t.reqPort = s.reqPort ∧ t.wire = s.wire

/-- What NEGOTIATE leaves alone, whatever its outcome (R166, R38): the table, the data buffers, the result arrays, the data
checksum's register, the inputs. -/
def NegotiateFrame (s t : State) : Prop :=
  SameTable s t ∧ SameOut s t ∧ SameBuffers s t ∧ SameInputs s t ∧ t.reg16 = s.reg16

/-- What every read operation leaves alone, whatever its outcome (R196, R206, R207): the session, the table, the registers only
NEGOTIATE writes, the extended response, the inputs. -/
def ReadFrame (s t : State) : Prop :=
  SameSession s t ∧ SameTable s t ∧ SameInputs s t ∧ t.ext = s.ext ∧ t.probeLeft = s.probeLeft ∧ t.acmdDone = s.acmdDone ∧
    t.cls = s.cls ∧ t.voltageAccepted = s.voltageAccepted

/-- `s` after an operation that made no transport call and wrote nothing else: the result stands at the port, nothing is in flight
and the FSMs are at rest (R245). -/
def answered (s : State) (st : Status) (v : Value) : State :=
  { s with resp := some ⟨st, v⟩, busy := false, nstate := .idle, bstate := .bIdle, calls := [], npath := [], bpath := [] }

/-! ### The polynomial of the command checksum -/

/-- The product over GF(2) of a byte and `g` (R111), in 16 bits. -/
def polyMul (q : Byte) (g : BitVec 16) : BitVec 16 :=
  (List.range 8).foldl (fun acc k => if q.getLsbD k then acc ^^^ (g <<< k) else acc) 0

/-- The loop of R113 over a table: `acc7 <- crc7_table[((acc7 << 1) & 0xFF) ^ msg[k]]`. -/
def tableFold (m : Memory) (msg : List Byte) : BitVec 7 :=
  msg.foldl (fun acc b => (Memory.read m ((acc.setWidth 8 <<< 1) ^^^ b).toNat).setWidth 7) 0

/-- The loop of R114: no table, the bits of each byte from bit 7 down to bit 0. -/
def bitFold (msg : List Byte) : BitVec 7 :=
  msg.foldl (fun c b => [7, 6, 5, 4, 3, 2, 1, 0].foldl
    (fun c k => if (c.getLsbD 6 ^^ b.getLsbD k) then (c <<< 1) ^^^ 0x09#7 else c <<< 1) c) 0

/-- The register of R116 after its last byte, each byte's bit 0 first. -/
def crc16Loop (data : List Byte) : BitVec 16 :=
  data.foldl (fun r b => [0, 1, 2, 3, 4, 5, 6, 7].foldl
    (fun r k => if (r.getLsbD 0 ^^ b.getLsbD k) then (r >>> 1) ^^^ 0x8408#16 else r >>> 1) r) 0xFFFF#16

/-- The result of R116: the complement of the register, its two bytes exchanged. -/
def crc16Result (data : List Byte) : BitVec 16 :=
  (~~~crc16Loop data).extractLsb 7 0 ++ (~~~crc16Loop data).extractLsb 15 8

/-- The six bytes of R72 for a given checksum. -/
def frameOf (index : BitVec 6) (arg : Word) (crc : BitVec 7) : Frame6 :=
  ⟨0b01#2 ++ index, arg.extractLsb 31 24, arg.extractLsb 23 16, arg.extractLsb 15 8, arg.extractLsb 7 0, crc ++ 1#1⟩

/-- The five bytes of R72 that the checksum covers. -/
def frameBody (index : BitVec 6) (arg : Word) : List Byte :=
  [0b01#2 ++ index, arg.extractLsb 31 24, arg.extractLsb 23 16, arg.extractLsb 15 8, arg.extractLsb 7 0]

/-- The frame of R72 with the checksum of R114. -/
def sentFrame (index : BitVec 6) (arg : Word) : Frame6 := frameOf index arg (bitFold (frameBody index arg))

/-- The record of R76 for a byte: bit 0 is `idle`, bit 7 is `zero_bit`. -/
def r1Fields (b : Byte) : R1Status :=
  ⟨b.getLsbD 0, b.getLsbD 1, b.getLsbD 2, b.getLsbD 3, b.getLsbD 4, b.getLsbD 5, b.getLsbD 6, b.getLsbD 7⟩

/-- The byte of R76 for a record, by its masks. -/
def r1ByteOf (r : R1Status) : Byte :=
  (if r.idle then 0x01#8 else 0) + (if r.eraseReset then 0x02#8 else 0) + (if r.illegalCommand then 0x04#8 else 0)
    + (if r.crcError then 0x08#8 else 0) + (if r.eraseSeqError then 0x10#8 else 0) + (if r.addressError then 0x20#8 else 0)
    + (if r.parameterError then 0x40#8 else 0) + (if r.zeroBit then 0x80#8 else 0)

/-- The 128 bits `q[127:0]` of a register block (R82): the first byte is bits 127:120. -/
def blockBits (p : List Byte) : BitVec 128 := p.foldl (fun q b => (q <<< 8) ||| b.setWidth 128) 0

/-! ### Scripted transport answers -/

/-- The answers of a wait for R1: filler bytes, then the R1 byte (R153). -/
structure R1Wait where
  fillers : List Byte
  r1 : Byte
  deriving DecidableEq, Repr

/-- A wait that ends within the budget: fewer fillers than polls, each with bit 7 set, and an R1 with bit 7 clear (R153). -/
def R1Wait.Within (c : Config) (w : R1Wait) : Prop :=
  w.fillers.length < c.nR1Poll ∧ (∀ f ∈ w.fillers, f.getLsbD 7 = true) ∧ w.r1.getLsbD 7 = false

/-- One answer for each byte exchanged. -/
def byteAnswers (bs : List Byte) : List Answer := bs.map fun b => .data [b]

/-- The answers of a command sent and its R1 awaited: the send is accepted, then the bytes. -/
def R1Wait.answers (w : R1Wait) : List Answer := .data [] :: byteAnswers (w.fillers ++ [w.r1])

/-- `n` byte exchanges (R152). -/
def polls (c : Config) (n : Nat) : List Call := List.replicate n (.xbyte 0xFF c.tByte)

/-- The bytes of that frame, `frame[0]` first. -/
def frameBytes (index : BitVec 6) (arg : Word) : List Byte := listOf6 (sentFrame index arg)

/-- The calls of one command exchange (R155, R156), with or without the extended response. -/
def exchangeCalls (c : Config) (index : BitVec 6) (arg : Word) (w : R1Wait) (ext : Bool) : List Call :=
  [.select, .send (frameBytes index arg) c.tBuf] ++ polls c (w.fillers.length + 1)
    ++ (if ext then [.recv 4 c.tBuf] else []) ++ [.deselect]

/-- The answers of one command exchange with the extended response `e`. -/
def extAnswers (w : R1Wait) (e : Bytes4) : List Answer := w.answers ++ [.data (listOf4 e)]

/-- One iteration of the init loop: the waits of index 55 and of index 41 (R180). -/
structure AcmdTry where
  w55 : R1Wait
  w41 : R1Wait
  deriving DecidableEq, Repr

/-- An iteration whose two responses arrive, the second with the idle flag as given. -/
def AcmdTry.Ends (c : Config) (idle : Bool) (a : AcmdTry) : Prop :=
  a.w55.Within c ∧ a.w41.Within c ∧ a.w41.r1.getLsbD 0 = idle

/-- The answers of one iteration. -/
def AcmdTry.answers (a : AcmdTry) : List Answer := a.w55.answers ++ a.w41.answers

/-- The calls of one iteration, with the argument of index 41 (R180). -/
def AcmdTry.calls (c : Config) (hcs : Word) (a : AcmdTry) : List Call :=
  exchangeCalls c 55 0 a.w55 false ++ exchangeCalls c 41 hcs a.w41 false

/-- A transport that takes NEGOTIATE to the init loop: the response to index 0, probes whose echo does not match (R175), the
deciding probe (R172, R174) and, unless it reports illegal-command, the first index 58 (R176). `e8`, `w58` and `e58` play no part
when it does. -/
structure ProbeScript where
  w0 : R1Wait
  misses : List (R1Wait × Bytes4)
  w8 : R1Wait
  e8 : Bytes4
  w58 : R1Wait
  e58 : Bytes4
  deriving DecidableEq, Repr

/-- The deciding probe reports illegal-command (R172). -/
def ProbeScript.legacy (p : ProbeScript) : Bool := p.w8.r1.getLsbD 2

/-- A probe that is answered, without illegal-command and without the echo (R175). -/
def ProbeMiss (c : Config) (m : R1Wait × Bytes4) : Prop := m.1.Within c ∧ m.1.r1.getLsbD 2 = false ∧ m.2.b3 ≠ 0xAA

/-- Every response arrives within the budget, fewer than three probes miss, and the deciding one decides. -/
def ProbeScript.Decides (c : Config) (p : ProbeScript) : Prop :=
  p.w0.Within c ∧ p.misses.length < 3 ∧ (∀ m ∈ p.misses, ProbeMiss c m) ∧ p.w8.Within c ∧
    (p.legacy = false → p.e8.b3 = 0xAA ∧ p.w58.Within c)

/-- The answers of a mismatching probe. -/
def missAnswers (m : R1Wait × Bytes4) : List Answer := extAnswers m.1 m.2

/-- The answers of the first index 58: the payload is read when the idle flag is set (R176). -/
def ProbeScript.ocrAnswers (p : ProbeScript) : List Answer :=
  if p.w58.r1.getLsbD 0 then extAnswers p.w58 p.e58 else p.w58.answers

/-- All the answers of a probe script. -/
def ProbeScript.answers (p : ProbeScript) : List Answer :=
  p.w0.answers ++ p.misses.flatMap missAnswers ++
    (if p.legacy then p.w8.answers else extAnswers p.w8 p.e8 ++ p.ocrAnswers)

/-- The calls of a probe: index 8 with the argument `0x000001AA` (R75, R171). -/
def probeCalls (c : Config) (w : R1Wait) (ext : Bool) : List Call := exchangeCalls c 8 0x000001AA w ext

/-- The calls up to the init loop. -/
def ProbeScript.calls (c : Config) (p : ProbeScript) : List Call :=
  exchangeCalls c 0 0 p.w0 false ++ p.misses.flatMap (fun m => probeCalls c m.1 true) ++
    (if p.legacy then probeCalls c p.w8 false
     else probeCalls c p.w8 true ++ exchangeCalls c 58 0 p.w58 (p.w58.r1.getLsbD 0))

/-- The argument of index 41 (R75, R178). -/
def ProbeScript.hcs (p : ProbeScript) : Word := if p.legacy then 0x00000000 else 0x40000000

/-- The states passed on the way to the init loop (R188). -/
def ProbeScript.path (p : ProbeScript) : List NState :=
  if p.legacy then [.start, .resetIdle, .probeInterface, .acmdInitLoop]
  else [.start, .resetIdle, .probeInterface, .readOcrInitial, .acmdInitLoop]

/-- The data-checksum mode NEGOTIATE leaves: cleared by the entry teardown of a session that is not `Unclassified` (R167), else
as it was (R186). -/
def modeAfterNegotiate (s : State) : Bool := if s.cardClass = .unclassified then s.checksumEnabled else false

/-- The answers of a read command whose token comes after `tokenFillers` (R199) and whose data phase answers `buf` (R200). -/
def readAnswers (w : R1Wait) (tokenFillers buf : List Byte) : List Answer :=
  w.answers ++ byteAnswers (tokenFillers ++ [0xFE]) ++ [.data buf]

/-- The token comes within the budget (R199). -/
def TokenWithin (c : Config) (tokenFillers : List Byte) : Prop :=
  tokenFillers.length < c.nTokenPoll ∧ ∀ f ∈ tokenFillers, f ≠ 0xFE

/-- The calls of a whole read transaction (R198). -/
def readCalls (c : Config) (index : BitVec 6) (arg : Word) (w : R1Wait) (tokenFillers : List Byte) (n : Nat) : List Call :=
  [.select, .send (frameBytes index arg) c.tBuf] ++ polls c (w.fillers.length + 1) ++ polls c (tokenFillers.length + 1)
    ++ [.recv n c.tBuf, .deselect]

/-- The calls of a read command that ends at its R1 (R202) or before its token (R199). -/
def readCallsUntil (c : Config) (index : BitVec 6) (arg : Word) (n : Nat) : List Call :=
  [.select, .send (frameBytes index arg) c.tBuf] ++ polls c n ++ [.deselect]

/-- The command frame of each read operation (R196, R206, R207), READ_BLOCK's with the translated address (R56). -/
def readCommandOf (s : State) : Instr → Option (BitVec 6 × Word)
  | .readBlock index => some (17, if s.blockAddressing = .blockAddressed then index else index <<< 9)
  | .readCid => some (10, 0)
  | .readCsd => some (9, 0)
  | .buildTable | .crc7 _ | .crc16 _ | .encodeCmd _ _ | .decodeR1 _ | .encodeR1 _ | .decodeOcr _ | .decodeIfCond _
  | .decodeCid _ | .decodeCsd _ | .negotiate | .setDataChecksum _ | .setSpeedClass _ | .cardClass | .blockLength
  | .sessionReset | .blockAddressing | .cmd0 _ _ | .cmd8 _ _ | .cmd9 _ _ | .cmd10 _ _ | .cmd17 _ _ | .cmd41 _ _
  | .cmd55 _ _ | .cmd58 _ _ | .cmd59 _ _ | .cmdAny _ _ _ | .r1Response _ | .startToken | .ocrView _ | .ifCondView _ => none

end Sys2Proof
end

