-- ==== Sys2Proof/Certificates/Slice0/Obligations.lean ====
section
/-! DEFINITION. The statements for the provers. Where a statement rests on a choice of the model its docstring names the log entry. -/

open Sys2Proof Sys2Proof.Machine

/-! ### The Checksum Unit -/

/-- R112: BUILD_TABLE writes all 256 entries with the values of R111, sets the flag, makes no transport call and fails in no state.
Entry `i` is below `0x80` and is the remainder of `i(x) * x^7` divided by `g`: `i(x) * x^7` is a multiple of `g` plus the entry. -/
def Obligations.BuildTableWritesRemainders : Prop :=
  ∀ s : State, s.csHeld = false → ∃ t, exec .buildTable s = .next t ∧
    t = { answered s .ok .none with table := t.table, tableBuilt := true } ∧
    ∀ i : Byte, (Memory.read t.table i.toNat).getLsbD 7 = false ∧
      ∃ q : Byte, i.setWidth 16 <<< 7 = polyMul q 0x89 ^^^ (Memory.read t.table i.toNat).setWidth 16

/-- R112, R63: a second BUILD_TABLE leaves the state as it was, but for the result. -/
def Obligations.BuildTableIsIdempotent : Prop :=
  ∀ s : State, Built s → exec .buildTable s = .next (answered s .ok .none)

/-- R111: the map is linear, and setting bit 7 of the index exclusive-ors `0x41`. -/
def Obligations.TableMapIsLinear : Prop :=
  ∀ s t : State, exec .buildTable s = .next t →
    (∀ i j : Byte, Memory.read t.table (i ^^^ j).toNat = Memory.read t.table i.toNat ^^^ Memory.read t.table j.toNat) ∧
    ∀ k : Byte, k.toNat < 0x80 → Memory.read t.table (0x80#8 ||| k).toNat = Memory.read t.table k.toNat ^^^ 0x41#8

/-- R113: CRC7 folds the message through the table into `acc7`, and fails only for want of the table. -/
def Obligations.Crc7FoldsTheTable : Prop :=
  ∀ (s : State) (msg : List Byte), Inv s → exec (.crc7 msg) s = .next (
    if s.tableBuilt then { answered s .ok (.u7 (tableFold s.table msg)) with acc7 := tableFold s.table msg }
    else answered s .tableNotBuilt .none)

/-- R114: over the built table CRC7 is the bitwise form, on every message ("It equals rule R113 on every input [derived ...]"). -/
def Obligations.Crc7IsTheBitwiseForm : Prop :=
  ∀ (s : State) (msg : List Byte), Built s →
    exec (.crc7 msg) s = .next { answered s .ok (.u7 (bitFold msg)) with acc7 := bitFold msg }

/-- R116: CRC16, its register and its result; the table is not needed and there is no error. -/
def Obligations.Crc16FoldsTheData : Prop :=
  ∀ (s : State) (data : List Byte), s.csHeld = false →
    exec (.crc16 data) s = .next { answered s .ok (.u16 (crc16Result data)) with reg16 := crc16Loop data }

/-- R117 (a), marked derived there: a change confined to one byte changes the result. -/
def Obligations.Crc16SeesAChangedByte : Prop :=
  ∀ (s : State) (pre suf : List Byte) (a b : Byte), s.csHeld = false → a ≠ b → ∃ v w t u,
    exec (.crc16 (pre ++ a :: suf)) s = .next t ∧ t.resp = some ⟨.ok, .u16 v⟩ ∧
    exec (.crc16 (pre ++ b :: suf)) s = .next u ∧ u.resp = some ⟨.ok, .u16 w⟩ ∧ v ≠ w

/-- R243, R249: the operations that need the table return `TableNotBuilt` with no state change and no transport call. -/
def Obligations.TableNotBuiltComesFirst : Prop :=
  ∀ (s : State) (i : Instr), Inv s → s.tableBuilt = false →
    (i = .negotiate ∨ i = .readCid ∨ i = .readCsd ∨ (∃ msg, i = .crc7 msg) ∨ (∃ index arg, i = .encodeCmd index arg) ∨
      ∃ index, i = .readBlock index) →
    exec i s = .next (answered s .tableNotBuilt .none)

/-! ### The Frame Codec -/

/-- R131: the six bytes of ENCODE_CMD for every index and argument, and `TableNotBuilt` as the only error. The rows CMD59 and the
general frame are ENCODE_CMD's (R75; log 16). -/
def Obligations.EncodeCmdBuildsTheFrame : Prop :=
  ∀ (s : State) (index : BitVec 6) (arg : Word) (crc : BitVec 7) (i : Instr), Inv s →
    (i = .encodeCmd index arg ∨ (i = .cmd59 arg crc ∧ index = 59) ∨ i = .cmdAny index arg crc) →
    exec i s = .next (
      if s.tableBuilt then
        { answered s .ok (.frame (frameOf index arg (tableFold s.table (frameBody index arg)))) with
          acc7 := tableFold s.table (frameBody index arg)
          frame := frameOf index arg (tableFold s.table (frameBody index arg)) }
      else answered s .tableNotBuilt .none)

/-- R131: "the encoding is injective". -/
def Obligations.EncodeCmdIsInjective : Prop :=
  ∀ (s t u : State) (i j : BitVec 6) (a b : Word), Built s → exec (.encodeCmd i a) s = .next t →
    exec (.encodeCmd j b) s = .next u → t.resp = u.resp → i = j ∧ a = b

/-- R132: six bytes are a well-formed frame exactly when ENCODE_CMD gives them back from the index and the argument they hold (marked
derived there). -/
def Obligations.FramesAreTheImageOfEncodeCmd : Prop :=
  ∀ (s : State) (f : Frame6), Built s →
    ((f.b0.extractLsb 7 6 = 0b01 ∧ f.b5.getLsbD 0 = true ∧
        f.b5.extractLsb 7 1 = tableFold s.table [f.b0, f.b1, f.b2, f.b3, f.b4]) ↔
      ∃ t, exec (.encodeCmd (f.b0.extractLsb 5 0) (f.b1 ++ f.b2 ++ f.b3 ++ f.b4)) s = .next t ∧
        t.resp = some ⟨.ok, .frame f⟩)

/-- R133: DECODE_R1 on every byte; it writes nothing and cannot fail. -/
def Obligations.DecodeR1ReadsTheFlags : Prop :=
  ∀ (s : State) (b : Byte), s.csHeld = false → exec (.decodeR1 b) s = .next (answered s .ok (.r1Status (r1Fields b)))

/-- R134: ENCODE_R1, and that it and DECODE_R1 are inverse bijections. -/
def Obligations.R1RoundTrip : Prop :=
  ∀ (s : State) (r : R1Status) (b : Byte), s.csHeld = false →
    exec (.encodeR1 r) s = .next (answered s .ok (.byte (r1ByteOf r))) ∧
    exec (.encodeR1 (r1Fields b)) s = .next (answered s .ok (.byte b)) ∧
    exec (.decodeR1 (r1ByteOf r)) s = .next (answered s .ok (.r1Status r))

/-- R136: DECODE_OCR by the bytes of the response. -/
def Obligations.DecodeOcrReadsTheView : Prop :=
  ∀ (s : State) (e : Bytes4), s.csHeld = false →
    exec (.decodeOcr e) s = .next (answered s .ok (.ocr ⟨e.b0.getLsbD 7, e.b0.getLsbD 6, e.b1 ++ e.b2.extractLsb 7 7⟩))

/-- R137: DECODE_IFCOND by the bytes of the response. -/
def Obligations.DecodeIfCondReadsTheView : Prop :=
  ∀ (s : State) (e : Bytes4), s.csHeld = false →
    exec (.decodeIfCond e) s = .next (answered s .ok (.ifCond ⟨e.b2.extractLsb 3 0, e.b3⟩))

/-- R82, R140: DECODE_CID's fields at their bits of the 128-bit register block (R82: "every bit position in this rule is [from
general knowledge, not in source]"). -/
def Obligations.DecodeCidSlicesTheBlock : Prop :=
  ∀ (s : State) (p : List Byte), s.csHeld = false → p.length = 16 →
    exec (.decodeCid p) s = .next (answered s .ok (.cid
      { manufacturerId := (blockBits p).extractLsb 127 120
        oemId := (blockBits p).extractLsb 119 104
        productName := [(blockBits p).extractLsb 103 96, (blockBits p).extractLsb 95 88, (blockBits p).extractLsb 87 80,
          (blockBits p).extractLsb 79 72, (blockBits p).extractLsb 71 64]
        revision := (blockBits p).extractLsb 63 56
        serialNumber := (blockBits p).extractLsb 55 24
        manufactureDate := (blockBits p).extractLsb 19 8 }))

/-- R83, R141: DECODE_CSD's fields at their bits of the 128-bit register block, the device size in both layouts (R83: "Every bit
position is [from general knowledge, not in source]"). -/
def Obligations.DecodeCsdSlicesTheBlock : Prop :=
  ∀ (s : State) (p : List Byte), s.csHeld = false → p.length = 16 →
    exec (.decodeCsd p) s = .next (answered s .ok (.csd
      { layout := (blockBits p).extractLsb 127 126
        readAccessTime := (blockBits p).extractLsb 119 112
        maxTransferSpeed := (blockBits p).extractLsb 103 96
        commandClasses := (blockBits p).extractLsb 95 84
        readBlockLength := (blockBits p).extractLsb 83 80
        deviceSize := if (blockBits p).extractLsb 127 126 = 0 then ((blockBits p).extractLsb 73 62).setWidth 22
          else (blockBits p).extractLsb 69 48 }))

/-! ### The Card Session -/

/-- R218: SET_DATA_CHECKSUM writes the field, in any session state, with no transport call. -/
def Obligations.SetDataChecksumWritesTheMode : Prop :=
  ∀ (s : State) (enabled : Bool), s.csHeld = false →
    exec (.setDataChecksum enabled) s = .next { answered s .ok .none with checksumEnabled := enabled }

/-- R219: SET_SPEED_CLASS makes exactly one `T.set_div(class)` and writes nothing. -/
def Obligations.SetSpeedClassSignalsTheTransport : Prop :=
  ∀ (s : State) (c : SpeedClass), s.csHeld = false →
    exec (.setSpeedClass c) s = .next { answered s .ok .none with calls := [.setDiv c] }

/-- R220, R221, R223: the three queries, in any session state; by the invariant of R22 BLOCK_ADDRESSING is `BlockAddressed` exactly
when CARD_CLASS is `HighCapacityV2`. -/
def Obligations.QueriesReadTheSession : Prop :=
  ∀ s : State, Inv s →
    exec .cardClass s = .next (answered s .ok (.cardClass s.cardClass)) ∧
    exec .blockLength s = .next (answered s .ok (.u32 (if s.cardClass = .unclassified then 0 else 512))) ∧
    exec .blockAddressing s = .next (answered s .ok (.addressing s.blockAddressing)) ∧
    (s.blockAddressing = .blockAddressed ↔ s.cardClass = .highCapacityV2)

/-- R222: SESSION_RESET writes the three session registers and nothing else, with no transport call. -/
def Obligations.SessionResetTearsDown : Prop :=
  ∀ s : State, s.csHeld = false →
    exec .sessionReset s = .next { answered s .ok .none with
      cardClass := .unclassified, blockAddressing := .byteAddressed, checksumEnabled := false }

/-! ### NEGOTIATE. The scripted answers are the model's form of R12's free inputs (log 6); `npath` and `calls` are the model's
observations of the step (log 19). -/

/-- R172, R178, R180, R182, R186: a card that reports illegal-command to the probe, and whose idle flag clears within 20 tries, is
`LegacyV1`; index 58 is never sent; the exact calls, path and answers taken, and what stays as it was. -/
def Obligations.NegotiateClassifiesLegacy : Prop :=
  ∀ (s : State) (p : ProbeScript) (tries : List AcmdTry) (last : AcmdTry) (rest : List Answer),
    Built s → p.Decides s.cfg → p.legacy = true →
    tries.length < 20 → (∀ a ∈ tries, a.Ends s.cfg true) → last.Ends s.cfg false →
    s.answers = p.answers ++ tries.flatMap AcmdTry.answers ++ last.answers ++ rest →
    ∃ t, exec .negotiate s = .next t ∧ t.resp = some ⟨.ok, .cardClass .legacyV1⟩ ∧
      t.cardClass = .legacyV1 ∧ t.blockAddressing = .byteAddressed ∧ t.checksumEnabled = modeAfterNegotiate s ∧
      t.calls = p.calls s.cfg ++ tries.flatMap (AcmdTry.calls s.cfg 0x00000000) ++ last.calls s.cfg 0x00000000 ∧
      t.npath = p.path ++ [.ready] ∧ t.acmdDone = tries.length + 1 ∧ t.voltageAccepted = false ∧
      t.answers = rest ∧ NegotiateFrame s t

/-- R174, R176, R178, R180, R184, R186: a card that echoes the check pattern is classified by the capacity bit of the last index 58:
`HighCapacityV2` and block-addressed when it is set, else `StandardV2` and byte-addressed. -/
def Obligations.NegotiateClassifiesByCapacity : Prop :=
  ∀ (s : State) (p : ProbeScript) (tries : List AcmdTry) (last : AcmdTry) (w : R1Wait) (e : Bytes4) (rest : List Answer),
    Built s → p.Decides s.cfg → p.legacy = false →
    tries.length < 20 → (∀ a ∈ tries, a.Ends s.cfg true) → last.Ends s.cfg false → w.Within s.cfg →
    s.answers = p.answers ++ tries.flatMap AcmdTry.answers ++ last.answers ++ extAnswers w e ++ rest →
    ∃ t, exec .negotiate s = .next t ∧ t.resp = some ⟨.ok, .cardClass t.cardClass⟩ ∧
      t.cardClass = (if e.b0.getLsbD 6 then .highCapacityV2 else .standardV2) ∧
      t.blockAddressing = (if e.b0.getLsbD 6 then .blockAddressed else .byteAddressed) ∧
      t.checksumEnabled = modeAfterNegotiate s ∧
      t.calls = p.calls s.cfg ++ tries.flatMap (AcmdTry.calls s.cfg 0x40000000) ++ last.calls s.cfg 0x40000000
        ++ exchangeCalls s.cfg 58 0x00000000 w true ∧
      t.npath = p.path ++ [.readOcrFinal, .ready] ∧ t.acmdDone = tries.length + 1 ∧ t.voltageAccepted = true ∧
      t.answers = rest ∧ NegotiateFrame s t

/-- R175: three echoes that do not match end in `ProtocolMismatch`, index 8 sent exactly three times. -/
def Obligations.ThreeMismatchesEndNegotiation : Prop :=
  ∀ (s : State) (w : R1Wait) (a b c : R1Wait × Bytes4) (rest : List Answer), Built s → w.Within s.cfg →
    ProbeMiss s.cfg a → ProbeMiss s.cfg b → ProbeMiss s.cfg c →
    s.answers = w.answers ++ missAnswers a ++ missAnswers b ++ missAnswers c ++ rest →
    ∃ t, exec .negotiate s = .next t ∧ t.resp = some ⟨.protocolMismatch, .none⟩ ∧ t.cardClass = .unclassified ∧
      t.calls = exchangeCalls s.cfg 0 0x00000000 w false ++ probeCalls s.cfg a.1 true ++ probeCalls s.cfg b.1 true
        ++ probeCalls s.cfg c.1 true ∧
      t.npath = [.start, .resetIdle, .probeInterface, .failed] ∧ t.answers = rest

/-- R181: a card that never clears its idle flag ends in `InitTimeout` after exactly 20 index 55 and 20 index 41, "no more, no
fewer"; with the flag clear in the 20th, the class statements above apply. -/
def Obligations.TwentyTriesEndNegotiation : Prop :=
  ∀ (s : State) (p : ProbeScript) (tries : List AcmdTry) (rest : List Answer), Built s → p.Decides s.cfg →
    tries.length = 20 → (∀ a ∈ tries, a.Ends s.cfg true) → s.answers = p.answers ++ tries.flatMap AcmdTry.answers ++ rest →
    ∃ t, exec .negotiate s = .next t ∧ t.resp = some ⟨.initTimeout, .none⟩ ∧ t.cardClass = .unclassified ∧
      t.calls = p.calls s.cfg ++ tries.flatMap (AcmdTry.calls s.cfg p.hcs) ∧
      countCalls (isSendOf 0x77) t.calls = 20 ∧ countCalls (isSendOf 0x69) t.calls = 20 ∧
      t.npath = p.path ++ [.failed] ∧ t.acmdDone = 20 ∧ t.answers = rest

/-- R166, R187: whatever the transport answers, NEGOTIATE ends in one of four statuses; on `Ok` the class is returned and stored, on
an error the session is `Unclassified` and byte-addressed; the rest of the state stays as it was. -/
def Obligations.NegotiateOutcomes : Prop :=
  ∀ s : State, Built s → ∃ t, exec .negotiate s = .next t ∧ NegotiateFrame s t ∧ t.checksumEnabled = modeAfterNegotiate s ∧
    ((t.resp = some ⟨.ok, .cardClass t.cardClass⟩ ∧ t.cardClass ≠ .unclassified ∧
        (t.blockAddressing = .blockAddressed ↔ t.cardClass = .highCapacityV2)) ∨
      (t.cardClass = .unclassified ∧ t.blockAddressing = .byteAddressed ∧
        (t.resp = some ⟨.timeout, .none⟩ ∨ t.resp = some ⟨.protocolMismatch, .none⟩ ∨ t.resp = some ⟨.initTimeout, .none⟩)))

/-- R165, R27: the states NEGOTIATE passes come in the order of the source's list, each entered at most once, `Ready` last exactly
when the status is `Ok` and `Failed` last otherwise. -/
def Obligations.NegotiationMovesForward : Prop :=
  ∀ s t : State, Built s → exec .negotiate s = .next t →
    (t.npath.Sublist [.start, .resetIdle, .probeInterface, .readOcrInitial, .acmdInitLoop, .readOcrFinal, .ready] ∨
      t.npath.Sublist [.start, .resetIdle, .probeInterface, .readOcrInitial, .acmdInitLoop, .readOcrFinal, .failed]) ∧
    (t.npath.getLast? = some .ready ↔ ∃ v, t.resp = some ⟨.ok, v⟩) ∧
    (t.npath.getLast? = some .failed ↔ ∃ e, e ≠ .ok ∧ t.resp = some ⟨e, .none⟩) ∧ t.nstate = .idle

/-- R169, R167: no response to index 0 within the budget is `Timeout`, the command sent once; a Ready session is torn down first. -/
def Obligations.SilentCardEndsNegotiation : Prop :=
  ∀ (s : State) (fillers : List Byte) (rest : List Answer), Built s → fillers.length = s.cfg.nR1Poll →
    (∀ f ∈ fillers, f.getLsbD 7 = true) → s.answers = .data [] :: byteAnswers fillers ++ rest →
    ∃ t, exec .negotiate s = .next t ∧ t.resp = some ⟨.timeout, .none⟩ ∧ t.cardClass = .unclassified ∧
      t.blockAddressing = .byteAddressed ∧ t.checksumEnabled = modeAfterNegotiate s ∧
      t.calls = [.select, .send [0x40, 0, 0, 0, 0, 0x95] s.cfg.tBuf] ++ polls s.cfg s.cfg.nR1Poll ++ [.deselect] ∧
      t.npath = [.start, .resetIdle, .failed] ∧ t.answers = rest

/-- R190: the bounds of NEGOTIATE, for every sequence of answers; no `T.set_div` (R166); one hold for each exchange (R157). -/
def Obligations.NegotiateCallBounds : Prop :=
  ∀ s t : State, Built s → exec .negotiate s = .next t →
    countCalls isSelect t.calls ≤ 46 ∧ countCalls isSend t.calls ≤ 46 ∧ countCalls isXbyte t.calls ≤ 46 * s.cfg.nR1Poll ∧
    countCalls isRecv t.calls ≤ 5 ∧ countCalls isDeselect t.calls ≤ 46 ∧ countCalls isSetDiv t.calls = 0 ∧
    countCalls isSend t.calls = countCalls isSelect t.calls

/-! ### Reads. The scripted answers are the model's form of R12's free inputs (log 6); `bpath` and `calls` are the model's
observations of the step (log 19); a block or a register block returned stands in `outBlock` or `outReg` (log 20). -/

/-- R196, R198, R200, R201, R204, R56: a block read whose responses arrive. With the mode off the trailer is ignored; with it on
the trailer must be CRC16 of the payload, first byte in bits 15:8. The frame carries the translated address. That `rbuf` stays as it
was is the model's choice (log 24: R32 lets it share storage with `dbuf`). -/
def Obligations.ReadBlockDelivers : Prop :=
  ∀ (s : State) (index : Word) (w : R1Wait) (fillers payload : List Byte) (hi lo : Byte) (rest : List Answer),
    Ready s → w.Within s.cfg → w.r1 = 0 → TokenWithin s.cfg fillers → payload.length = 512 →
    (s.checksumEnabled = true → crc16Result payload = hi ++ lo) →
    s.answers = readAnswers w fillers (payload ++ [hi, lo]) ++ rest →
    ∃ t, exec (.readBlock index) s = .next t ∧ t.resp = some ⟨.ok, .block⟩ ∧
      (∀ a, Memory.read t.outBlock a = payload.getD a 0) ∧ (∀ a, Memory.read t.outReg a = Memory.read s.outReg a) ∧
      (∀ a, Memory.read t.dbuf a = (payload ++ [hi, lo]).getD a 0) ∧ (∀ a, Memory.read t.rbuf a = Memory.read s.rbuf a) ∧
      t.calls = readCalls s.cfg 17 (if s.blockAddressing = .blockAddressed then index else index <<< 9) w fillers 514 ∧
      t.bpath = [.bCommand, .bToken, .bData, .bCheck] ∧
      t.reg16 = (if s.checksumEnabled then crc16Loop payload else s.reg16) ∧ t.answers = rest ∧ ReadFrame s t

/-- R201, R204: with the mode on, a trailer other than CRC16 of the payload is `DataChecksumError`; the payload stands in `out`, and
the session stays Ready. -/
def Obligations.ReadBlockRejectsBadTrailer : Prop :=
  ∀ (s : State) (index : Word) (w : R1Wait) (fillers payload : List Byte) (hi lo : Byte) (rest : List Answer),
    Ready s → w.Within s.cfg → w.r1 = 0 → TokenWithin s.cfg fillers → payload.length = 512 →
    s.checksumEnabled = true → crc16Result payload ≠ hi ++ lo →
    s.answers = readAnswers w fillers (payload ++ [hi, lo]) ++ rest →
    ∃ t, exec (.readBlock index) s = .next t ∧ t.resp = some ⟨.dataChecksumError, .none⟩ ∧
      (∀ a, Memory.read t.outBlock a = payload.getD a 0) ∧
      t.calls = readCalls s.cfg 17 (if s.blockAddressing = .blockAddressed then index else index <<< 9) w fillers 514 ∧
      t.answers = rest ∧ ReadFrame s t

/-- R201, R117 (a), the source's property: with the mode on, a payload delivered with one byte changed, the trailer being that of the
payload as sent, is `DataChecksumError`, for every payload, position and byte. -/
def Obligations.OneFlippedByteIsCaught : Prop :=
  ∀ (s : State) (index : Word) (w : R1Wait) (fillers pre suf : List Byte) (sent got hi lo : Byte) (rest : List Answer),
    Ready s → w.Within s.cfg → w.r1 = 0 → TokenWithin s.cfg fillers → (pre ++ sent :: suf).length = 512 →
    s.checksumEnabled = true → crc16Result (pre ++ sent :: suf) = hi ++ lo → sent ≠ got →
    s.answers = readAnswers w fillers (pre ++ got :: suf ++ [hi, lo]) ++ rest →
    ∃ t, exec (.readBlock index) s = .next t ∧ t.resp = some ⟨.dataChecksumError, .none⟩ ∧ ReadFrame s t

/-- R206, R207, R205: READ_CID and READ_CSD return what DECODE_CID and DECODE_CSD give of the 16 bytes, whatever the trailer holds
and whatever the data-checksum mode is. That `dbuf` stays as it was is the model's choice (log 24: R32 lets `rbuf` share storage with
it). -/
def Obligations.RegisterReadsDeliver : Prop :=
  ∀ (s : State) (w : R1Wait) (fillers p : List Byte) (hi lo : Byte) (rest : List Answer) (i d : Instr) (index : BitVec 6),
    Ready s → w.Within s.cfg → w.r1 = 0 → TokenWithin s.cfg fillers → p.length = 16 →
    (i = .readCid ∧ d = .decodeCid p ∧ index = 10 ∨ i = .readCsd ∧ d = .decodeCsd p ∧ index = 9) →
    s.answers = readAnswers w fillers (p ++ [hi, lo]) ++ rest →
    ∃ t u, exec i s = .next t ∧ exec d s = .next u ∧ t.resp = u.resp ∧
      (∀ a, Memory.read t.outReg a = p.getD a 0) ∧ (∀ a, Memory.read t.outBlock a = Memory.read s.outBlock a) ∧
      (∀ a, Memory.read t.rbuf a = (p ++ [hi, lo]).getD a 0) ∧ (∀ a, Memory.read t.dbuf a = Memory.read s.dbuf a) ∧
      t.calls = readCalls s.cfg index 0x00000000 w fillers 18 ∧ t.bpath = [.bCommand, .bToken, .bData, .bCheck] ∧
      t.reg16 = s.reg16 ∧ t.answers = rest ∧ ReadFrame s t

/-- R197, R249: a gated operation first needs the table, then a Ready session; a rejected call makes no transport call. -/
def Obligations.ReadsAreGated : Prop :=
  ∀ (s : State) (i : Instr), Inv s → (i = .readCid ∨ i = .readCsd ∨ ∃ index, i = .readBlock index) →
    (s.tableBuilt = false → exec i s = .next (answered s .tableNotBuilt .none)) ∧
    (s.tableBuilt = true → s.cardClass = .unclassified → exec i s = .next (answered s .notReady .none))

/-- R240: the one error an R1 byte other than `0x00` gives a read operation, in the order bit 3, bit 2, bit 5, bit 6, any other; the
operation ends at its R1 (R202, R249). -/
def Obligations.ReadR1Errors : Prop :=
  ∀ (s : State) (i : Instr) (index : BitVec 6) (arg : Word) (w : R1Wait) (rest : List Answer),
    Ready s → readCommandOf s i = some (index, arg) → w.Within s.cfg → w.r1 ≠ 0 → s.answers = w.answers ++ rest →
    ∃ t, exec i s = .next t ∧
      t.resp = some ⟨if w.r1.getLsbD 3 then .commandChecksumError else if w.r1.getLsbD 2 then .illegalCommandError
        else if w.r1.getLsbD 5 then .addressError else if w.r1.getLsbD 6 then .parameterError else .genericCardError, .none⟩ ∧
      t.calls = readCallsUntil s.cfg index arg (w.fillers.length + 1) ∧ t.r1 = w.r1 ∧ t.answers = rest ∧
      SameOut s t ∧ SameBuffers s t ∧ t.reg16 = s.reg16 ∧ ReadFrame s t

/-- R153: no byte with bit 7 clear within the budget ends a read operation with `Timeout` after exactly that many polls. -/
def Obligations.ReadWithoutResponse : Prop :=
  ∀ (s : State) (i : Instr) (index : BitVec 6) (arg : Word) (fillers : List Byte) (rest : List Answer),
    Ready s → readCommandOf s i = some (index, arg) → fillers.length = s.cfg.nR1Poll → (∀ f ∈ fillers, f.getLsbD 7 = true) →
    s.answers = .data [] :: byteAnswers fillers ++ rest →
    ∃ t, exec i s = .next t ∧ t.resp = some ⟨.timeout, .none⟩ ∧ t.calls = readCallsUntil s.cfg index arg s.cfg.nR1Poll ∧
      t.answers = rest ∧ SameOut s t ∧ SameBuffers s t ∧ t.r1 = s.r1 ∧ t.reg16 = s.reg16 ∧ ReadFrame s t

/-- R199: no `0xFE` within the token budget ends a read operation with `Timeout` after exactly that many polls, every other byte
being filler. -/
def Obligations.ReadWithoutToken : Prop :=
  ∀ (s : State) (i : Instr) (index : BitVec 6) (arg : Word) (w : R1Wait) (fillers : List Byte) (rest : List Answer),
    Ready s → readCommandOf s i = some (index, arg) → w.Within s.cfg → w.r1 = 0 → fillers.length = s.cfg.nTokenPoll →
    (∀ f ∈ fillers, f ≠ 0xFE) → s.answers = w.answers ++ byteAnswers fillers ++ rest →
    ∃ t, exec i s = .next t ∧ t.resp = some ⟨.timeout, .none⟩ ∧
      t.calls = readCallsUntil s.cfg index arg (w.fillers.length + 1 + s.cfg.nTokenPoll) ∧ t.bpath = [.bCommand, .bToken] ∧
      t.answers = rest ∧ SameOut s t ∧ SameBuffers s t ∧ t.reg16 = s.reg16 ∧ ReadFrame s t

/-- R246, R204: whatever the transport answers, a read operation ends in one of the statuses of R236 that it can raise, changes no
architectural state, runs its phases in order (R195), and writes `out` only on `Ok` or `DataChecksumError`. -/
def Obligations.ReadsKeepTheSession : Prop :=
  ∀ (s : State) (i : Instr), Ready s → (i = .readCid ∨ i = .readCsd ∨ ∃ index, i = .readBlock index) →
    ∃ t r, exec i s = .next t ∧ t.resp = some r ∧ ReadFrame s t ∧
      r.status ∈ [.ok, .timeout, .commandChecksumError, .illegalCommandError, .addressError, .parameterError,
        .genericCardError, .dataChecksumError] ∧
      (r.status = .dataChecksumError → s.checksumEnabled = true ∧ ∃ index, i = .readBlock index) ∧
      (r.status ≠ .ok → r.status ≠ .dataChecksumError → SameOut s t) ∧ t.bpath <+: [.bCommand, .bToken, .bData, .bCheck]

/-- R208: the bounds of a read operation, for every sequence of answers. -/
def Obligations.ReadCallBounds : Prop :=
  ∀ (s t : State) (i : Instr), Ready s → (i = .readCid ∨ i = .readCsd ∨ ∃ index, i = .readBlock index) →
    exec i s = .next t →
    countCalls isSelect t.calls = 1 ∧ countCalls isSend t.calls = 1 ∧
    countCalls isXbyte t.calls ≤ s.cfg.nR1Poll + s.cfg.nTokenPoll ∧ countCalls isRecv t.calls ≤ 1 ∧
    countCalls isDeselect t.calls = 1 ∧ countCalls isSetDiv t.calls = 0 ∧
    ((∃ v, t.resp = some ⟨.ok, v⟩) → 2 ≤ countCalls isXbyte t.calls ∧ countCalls isRecv t.calls = 1)

/-! ### The Transport Port. `calls` is the model's observation of the step (log 19). -/

/-- R157, R33: every operation leaves chip-select released, never selects while it is held, and exchanges bytes only while it is held;
so does every wire-format row run alone. -/
def Obligations.ChipSelectDiscipline : Prop :=
  ∀ (i : Instr) (s t : State), s.csHeld = false → exec i s = .next t →
    t.csHeld = false ∧ csAfter false t.calls = some false

/-- R252, R152: every byte exchange sends `0xFF`, every send is one frame of six bytes, every receive takes 4, 514 or 18 bytes, the
timeouts are the configured ones, and only SET_SPEED_CLASS sets the divider. -/
def Obligations.CallsKeepTheBoundary : Prop :=
  ∀ (i : Instr) (s t : State), s.csHeld = false → exec i s = .next t → ∀ c ∈ t.calls,
    c = .select ∨ c = .deselect ∨ c = .xbyte 0xFF s.cfg.tByte ∨ (∃ bytes, bytes.length = 6 ∧ c = .send bytes s.cfg.tBuf) ∨
    c = .recv 4 s.cfg.tBuf ∨ c = .recv 514 s.cfg.tBuf ∨ c = .recv 18 s.cfg.tBuf ∨
    ∃ k, c = .setDiv k ∧ i = .setSpeedClass k

/-- R158, R249: the first `TErr` answer taken ends the operation at once with `Timeout`: no later answer is taken. -/
def Obligations.TransportErrorIsTimeout : Prop :=
  ∀ (i : Instr) (s t : State) (before : List (List Byte)) (rest : List Answer), Inv s →
    s.answers = before.map .data ++ .tErr :: rest → exec i s = .next t → s.draws + before.length < t.draws →
    t.resp = some ⟨.timeout, .none⟩ ∧ t.answers = rest ∧ t.draws = s.draws + before.length + 1

/-! ### The whole machine -/

/-- R235, R236, R245: every host operation ends with exactly one status, with no value on an error, at rest and not busy. -/
def Obligations.EveryOperationAnswersOnce : Prop :=
  ∀ (i : Instr) (s : State), Inv s → i.port = .request → ∃ t r, exec i s = .next t ∧ t.resp = some r ∧
    (r.status ≠ .ok → r.value = .none) ∧ t.busy = false ∧ t.csHeld = false ∧ t.nstate = .idle ∧ t.bstate = .bIdle

/-- R38: the writers of the architectural state; no other instruction changes it. -/
def Obligations.WritersOfArchitecturalState : Prop :=
  ∀ (i : Instr) (s t : State), exec i s = .next t →
    (i ≠ .negotiate → i ≠ .sessionReset → t.cardClass = s.cardClass ∧ t.blockAddressing = s.blockAddressing ∧
      ((∀ v, i ≠ .setDataChecksum v) → t.checksumEnabled = s.checksumEnabled)) ∧
    (i ≠ .buildTable → SameTable s t)

/-- R248: the not-ready mode is left only by a successful NEGOTIATE, and entered only by NEGOTIATE's teardown and SESSION_RESET. -/
def Obligations.ModeChanges : Prop :=
  ∀ (i : Instr) (s t : State), exec i s = .next t →
    (s.cardClass = .unclassified → t.cardClass ≠ .unclassified →
      i = .negotiate ∧ t.resp = some ⟨.ok, .cardClass t.cardClass⟩) ∧
    (s.cardClass ≠ .unclassified → t.cardClass = .unclassified →
      i = .sessionReset ∨ (i = .negotiate ∧ ∃ e, e ≠ .ok ∧ t.resp = some ⟨e, .none⟩))

/-- Every step keeps the invariant: the session invariant of R22, chip-select released and nothing in flight between operations (R33,
R35), the FSMs at rest (R27, R28), the table's contents (R24), canonical storages, bounded counters (R30). -/
def Obligations.StepKeepsInvariant : Prop :=
  ∀ s t : State, Inv s → step s = .next t → Inv t

/-- The invariant holds after reset. R38 leaves the counters, the buffers and the table unspecified at reset: that the counters lie
within their bounds rests on the zeros of log 10, and that the storages are canonical on the empty lists of log 10 and log 11, both the
model's choice and no rule of the spec. -/
def Obligations.ResetHasInvariant : Prop := Inv State.reset

/-- R265, R266: the values the spec gives at reset. -/
def Obligations.ResetValues : Prop :=
  State.reset.cardClass = .unclassified ∧ State.reset.blockAddressing = .byteAddressed ∧
    State.reset.checksumEnabled = false ∧ State.reset.tableBuilt = false ∧ State.reset.nstate = .idle ∧
    State.reset.bstate = .bIdle ∧ State.reset.busy = false ∧ State.reset.csHeld = false ∧ State.reset.calls = [] ∧
    State.reset.reqPort = []

/-- A step takes the next request, when the port is free, and runs it (R35, R60; the byte layout is the model's, log 2).
Every decoded instruction is run, the well-formed ones among them. -/
def Obligations.StepRunsTheRequest : Prop :=
  ∀ (s : State) (i : Instr) (rest : List Byte), s.wire = none → s.busy = false → decode .request s.reqPort = .instr i rest →
    step s = exec i { s with reqPort := rest }

/-- A step runs a wire item that stands at the internal sequencer (the model's own device, log 13).
Every decoded item is run, the well-formed ones among them. -/
def Obligations.StepRunsTheWireItem : Prop :=
  ∀ (s : State) (w : WireItem) (i : Instr) (rest : List Byte), s.wire = some w → decode w.port w.bytes = .instr i rest →
    step s = exec i { s with wire := none }

/-- R244: an unassigned select code is answered with `BadOperation`, no state change, no transport call. -/
def Obligations.UnassignedCodeIsBadOperation : Prop :=
  ∀ (s : State) (code : Byte) (rest : List Byte), Inv s → s.wire = none → s.reqPort = code :: rest → 0x14 ≤ code.toNat →
    ∃ t, step s = .next t ∧ t.resp = some ⟨.badOperation, .none⟩ ∧
      { t with reqPort := s.reqPort } = answered s .badOperation .none

/-- R35, R266: while busy, or with no request at the port, a step changes nothing (log 5). -/
def Obligations.StepWaits : Prop :=
  ∀ s : State, s.wire = none → (s.busy = true ∨ s.reqPort = []) → step s = .next s

/-! ### Encoding -/

/-- Decoding an encoded instruction gives it back, with every operand at every value, and leaves the bytes after it (R71, R72, R76,
R86, R199; the layout of operands on the request port is the model's, log 2). -/
def Obligations.DecodeEncodeAgree : Prop :=
  ∀ (i : Instr) (rest : List Byte), i.wellFormed = true → decode i.port (encode i ++ rest) = .instr i rest

/-- A few words written out from R72, R76, R86 and R199. -/
def Obligations.DecodeSanity : Prop :=
  decode .frame [0x40, 0, 0, 0, 0, 0x95] = .instr (.cmd0 0 0x4A) [] ∧
    decode .frame [0x48, 0, 0, 0x01, 0xAA, 0x87] = .instr (.cmd8 0x000001AA 0x43) [] ∧
    decode .frame [0x51, 0, 0, 0x02, 0, 0x79] = .instr (.cmd17 0x200 0x3C) [] ∧
    decode .r1 [0x05] = .instr (.r1Response ⟨true, false, true, false, false, false, false, false⟩) [] ∧
    decode .token [0xFE] = .instr .startToken [] ∧
    decode .request [0x0B, 0, 0, 0, 7] = .instr (.readBlock 7) [] ∧ decode .request [0x14] = .badCode 0x14 []

/-! ### The wire-format rows run alone (log 13) -/

/-- R155: the short exchange of indices 0, 55 and 41, for any argument: its calls, its R1, and everything else as it was. -/
def Obligations.ShortFramesRunTheExchange : Prop :=
  ∀ (s : State) (i : Instr) (index : BitVec 6) (arg : Word) (crc : BitVec 7) (w : R1Wait) (rest : List Answer),
    Built s → w.Within s.cfg → s.answers = w.answers ++ rest →
    (i = .cmd0 arg crc ∧ index = 0 ∨ i = .cmd55 arg crc ∧ index = 55 ∨ i = .cmd41 arg crc ∧ index = 41) →
    ∃ t, exec i s = .next t ∧ t = { s with
      acc7 := bitFold (frameBody index arg), frame := sentFrame index arg, r1 := w.r1,
      pollLeft := s.cfg.nR1Poll - w.fillers.length, answers := rest, draws := t.draws,
      calls := exchangeCalls s.cfg index arg w false, npath := [], bpath := [] }

/-- R156, R171, R184: the long exchange of indices 8 and 58; the four bytes are read unless the R1 of index 8 reports illegal-command
(for index 58 outside the negotiation states: always, log 15). -/
def Obligations.LongFramesRunTheExchange : Prop :=
  ∀ (s : State) (i : Instr) (index : BitVec 6) (arg : Word) (crc : BitVec 7) (w : R1Wait) (e : Bytes4) (rest : List Answer)
    (ext : Bool), Built s → w.Within s.cfg → s.answers = (if ext then extAnswers w e else w.answers) ++ rest →
    (i = .cmd8 arg crc ∧ index = 8 ∧ ext = !w.r1.getLsbD 2 ∨ i = .cmd58 arg crc ∧ index = 58 ∧ ext = true) →
    ∃ t, exec i s = .next t ∧ t = { s with
      acc7 := bitFold (frameBody index arg), frame := sentFrame index arg, r1 := w.r1,
      ext := if ext then e else s.ext,
      pollLeft := s.cfg.nR1Poll - w.fillers.length, answers := rest, draws := t.draws,
      calls := exchangeCalls s.cfg index arg w ext, npath := [], bpath := [] }

/-- R198, R200, R201: the read transaction of indices 9, 10 and 17 for any argument: the packet stands in its buffer, whatever the
trailer is when no check is asked for. That the other buffer stays as it was is the model's choice (log 24). -/
def Obligations.DataFramesRunTheTransaction : Prop :=
  ∀ (s : State) (i : Instr) (index : BitVec 6) (arg : Word) (crc : BitVec 7) (w : R1Wait) (fillers payload : List Byte)
    (hi lo : Byte) (rest : List Answer) (n : Nat), Built s → w.Within s.cfg → w.r1 = 0 → TokenWithin s.cfg fillers →
    payload.length = n → s.answers = readAnswers w fillers (payload ++ [hi, lo]) ++ rest →
    (i = .cmd9 arg crc ∧ index = 9 ∧ n = 16 ∨ i = .cmd10 arg crc ∧ index = 10 ∧ n = 16 ∨
      i = .cmd17 arg crc ∧ index = 17 ∧ n = 512 ∧ (s.checksumEnabled = true → crc16Result payload = hi ++ lo)) →
    ∃ t, exec i s = .next t ∧ t = { s with
        acc7 := bitFold (frameBody index arg), frame := sentFrame index arg, r1 := 0, pollLeft := t.pollLeft,
        dbuf := t.dbuf, rbuf := t.rbuf, reg16 := if index = 17 ∧ s.checksumEnabled = true then crc16Loop payload else s.reg16,
        answers := rest, draws := t.draws, calls := readCalls s.cfg index arg w fillers (n + 2), npath := [],
        bpath := [.bCommand, .bToken, .bData, .bCheck] } ∧
      (∀ a, Memory.read t.dbuf a = if n = 512 then (payload ++ [hi, lo]).getD a 0 else Memory.read s.dbuf a) ∧
      ∀ a, Memory.read t.rbuf a = if n = 512 then Memory.read s.rbuf a else (payload ++ [hi, lo]).getD a 0

/-- R150: a command frame of a procedure needs the table; without it nothing is sent (run alone: log 13). -/
def Obligations.FramesNeedTheTable : Prop :=
  ∀ (s : State) (i : Instr) (arg : Word) (crc : BitVec 7), Inv s → s.tableBuilt = false →
    (i = .cmd0 arg crc ∨ i = .cmd8 arg crc ∨ i = .cmd9 arg crc ∨ i = .cmd10 arg crc ∨ i = .cmd17 arg crc ∨
      i = .cmd41 arg crc ∨ i = .cmd55 arg crc ∨ i = .cmd58 arg crc) →
    exec i s = .next (answered s .tableNotBuilt .none)

/-- R153, R199, R154, R174, R184: what each received item does when it arrives: the R1 byte is stored, or is
filler when its bit 7 is 1 (R77); the token starts the data phase in the token wait; the four bytes are stored, and the view decides
the class only in the state that reads it (run alone: the model's device, log 13). -/
def Obligations.ReceivedItemsAreTaken : Prop :=
  ∀ (s : State) (r : R1Status) (e : Bytes4),
    exec (.r1Response r) s = .next { s with r1 := if r.zeroBit then s.r1 else r1ByteOf r, calls := [], npath := [], bpath := [] } ∧
    exec .startToken s = .next { s with
      bstate := if s.bstate = .bToken then .bData else s.bstate
      calls := [], npath := [], bpath := if s.bstate = .bToken then [.bData] else [] } ∧
    exec (.ocrView e) s = .next { s with
      ext := e
      cls := if s.nstate = .readOcrFinal then (if e.b0.getLsbD 6 then .highCapacityV2 else .standardV2) else s.cls
      calls := [], npath := [], bpath := [] } ∧
    exec (.ifCondView e) s = .next { s with
      ext := e
      cls := if s.nstate = .probeInterface ∧ e.b3 = 0xAA then .standardV2 else s.cls
      voltageAccepted := if s.nstate = .probeInterface ∧ e.b3 = 0xAA then true else s.voltageAccepted
      calls := [], npath := [], bpath := [] }

/-- A received byte that is no response is filler: at the R1 wait a byte with bit 7 set (R77, R153), at the token wait a byte other
than `0xFE` (R199). It is taken and nothing else changes (run alone: the model's device, log 13). -/
def Obligations.FillerIsSkipped : Prop :=
  ∀ (s : State) (port : Port) (b : Byte) (rest : List Byte), s.wire = some ⟨port, b :: rest⟩ →
    (port = .r1 ∧ b.getLsbD 7 = true ∨ port = .token ∧ b ≠ 0xFE) →
    step s = .next { s with wire := none, calls := [], npath := [], bpath := [] }
end

