-- ==== Sys2Proof/Laws/State.lean ====
section
/-! SUPPORT. What each update of the state leaves in each field: one theorem per update, a conjunct per field, each a simp
rule, so that no later proof unfolds a record update. -/

namespace Sys2Proof.Machine

@[simp] theorem logCall_fields (c : Call) (s : State) :
    (logCall c s).cardClass = s.cardClass ∧ (logCall c s).blockAddressing = s.blockAddressing ∧
    (logCall c s).checksumEnabled = s.checksumEnabled ∧ (logCall c s).table = s.table ∧
    (logCall c s).tableBuilt = s.tableBuilt ∧ (logCall c s).nstate = s.nstate ∧ (logCall c s).bstate = s.bstate ∧
    (logCall c s).busy = s.busy ∧ (logCall c s).csHeld = s.csHeld ∧ (logCall c s).acc7 = s.acc7 ∧
    (logCall c s).reg16 = s.reg16 ∧ (logCall c s).frame = s.frame ∧ (logCall c s).r1 = s.r1 ∧
    (logCall c s).ext = s.ext ∧ (logCall c s).probeLeft = s.probeLeft ∧ (logCall c s).acmdDone = s.acmdDone ∧
    (logCall c s).pollLeft = s.pollLeft ∧ (logCall c s).cls = s.cls ∧
    (logCall c s).voltageAccepted = s.voltageAccepted ∧ (logCall c s).dbuf = s.dbuf ∧ (logCall c s).rbuf = s.rbuf ∧
    (logCall c s).outBlock = s.outBlock ∧ (logCall c s).outReg = s.outReg ∧ (logCall c s).cfg = s.cfg ∧
    (logCall c s).reqPort = s.reqPort ∧ (logCall c s).resp = s.resp ∧ (logCall c s).answers = s.answers ∧
    (logCall c s).draws = s.draws ∧ (logCall c s).calls = s.calls ++ [c] ∧ (logCall c s).npath = s.npath ∧
    (logCall c s).bpath = s.bpath ∧ (logCall c s).wire = s.wire := by
  and_intros <;> rfl

@[simp] theorem tSelect_fields (s : State) :
    (tSelect s).cardClass = s.cardClass ∧ (tSelect s).blockAddressing = s.blockAddressing ∧
    (tSelect s).checksumEnabled = s.checksumEnabled ∧ (tSelect s).table = s.table ∧
    (tSelect s).tableBuilt = s.tableBuilt ∧ (tSelect s).nstate = s.nstate ∧ (tSelect s).bstate = s.bstate ∧
    (tSelect s).busy = s.busy ∧ (tSelect s).csHeld = true ∧ (tSelect s).acc7 = s.acc7 ∧ (tSelect s).reg16 = s.reg16 ∧
    (tSelect s).frame = s.frame ∧ (tSelect s).r1 = s.r1 ∧ (tSelect s).ext = s.ext ∧
    (tSelect s).probeLeft = s.probeLeft ∧ (tSelect s).acmdDone = s.acmdDone ∧ (tSelect s).pollLeft = s.pollLeft ∧
    (tSelect s).cls = s.cls ∧ (tSelect s).voltageAccepted = s.voltageAccepted ∧ (tSelect s).dbuf = s.dbuf ∧
    (tSelect s).rbuf = s.rbuf ∧ (tSelect s).outBlock = s.outBlock ∧ (tSelect s).outReg = s.outReg ∧
    (tSelect s).cfg = s.cfg ∧ (tSelect s).reqPort = s.reqPort ∧ (tSelect s).resp = s.resp ∧
    (tSelect s).answers = s.answers ∧ (tSelect s).draws = s.draws ∧ (tSelect s).calls = s.calls ++ [.select] ∧
    (tSelect s).npath = s.npath ∧ (tSelect s).bpath = s.bpath ∧ (tSelect s).wire = s.wire := by
  and_intros <;> rfl

@[simp] theorem tDeselect_fields (s : State) :
    (tDeselect s).cardClass = s.cardClass ∧ (tDeselect s).blockAddressing = s.blockAddressing ∧
    (tDeselect s).checksumEnabled = s.checksumEnabled ∧ (tDeselect s).table = s.table ∧
    (tDeselect s).tableBuilt = s.tableBuilt ∧ (tDeselect s).nstate = s.nstate ∧ (tDeselect s).bstate = s.bstate ∧
    (tDeselect s).busy = s.busy ∧ (tDeselect s).csHeld = false ∧ (tDeselect s).acc7 = s.acc7 ∧
    (tDeselect s).reg16 = s.reg16 ∧ (tDeselect s).frame = s.frame ∧ (tDeselect s).r1 = s.r1 ∧
    (tDeselect s).ext = s.ext ∧ (tDeselect s).probeLeft = s.probeLeft ∧ (tDeselect s).acmdDone = s.acmdDone ∧
    (tDeselect s).pollLeft = s.pollLeft ∧ (tDeselect s).cls = s.cls ∧
    (tDeselect s).voltageAccepted = s.voltageAccepted ∧ (tDeselect s).dbuf = s.dbuf ∧ (tDeselect s).rbuf = s.rbuf ∧
    (tDeselect s).outBlock = s.outBlock ∧ (tDeselect s).outReg = s.outReg ∧ (tDeselect s).cfg = s.cfg ∧
    (tDeselect s).reqPort = s.reqPort ∧ (tDeselect s).resp = s.resp ∧ (tDeselect s).answers = s.answers ∧
    (tDeselect s).draws = s.draws ∧ (tDeselect s).calls = s.calls ++ [.deselect] ∧ (tDeselect s).npath = s.npath ∧
    (tDeselect s).bpath = s.bpath ∧ (tDeselect s).wire = s.wire := by
  and_intros <;> rfl

@[simp] theorem tSetDiv_fields (c : SpeedClass) (s : State) :
    (tSetDiv c s).cardClass = s.cardClass ∧ (tSetDiv c s).blockAddressing = s.blockAddressing ∧
    (tSetDiv c s).checksumEnabled = s.checksumEnabled ∧ (tSetDiv c s).table = s.table ∧
    (tSetDiv c s).tableBuilt = s.tableBuilt ∧ (tSetDiv c s).nstate = s.nstate ∧ (tSetDiv c s).bstate = s.bstate ∧
    (tSetDiv c s).busy = s.busy ∧ (tSetDiv c s).csHeld = s.csHeld ∧ (tSetDiv c s).acc7 = s.acc7 ∧
    (tSetDiv c s).reg16 = s.reg16 ∧ (tSetDiv c s).frame = s.frame ∧ (tSetDiv c s).r1 = s.r1 ∧
    (tSetDiv c s).ext = s.ext ∧ (tSetDiv c s).probeLeft = s.probeLeft ∧ (tSetDiv c s).acmdDone = s.acmdDone ∧
    (tSetDiv c s).pollLeft = s.pollLeft ∧ (tSetDiv c s).cls = s.cls ∧
    (tSetDiv c s).voltageAccepted = s.voltageAccepted ∧ (tSetDiv c s).dbuf = s.dbuf ∧ (tSetDiv c s).rbuf = s.rbuf ∧
    (tSetDiv c s).outBlock = s.outBlock ∧ (tSetDiv c s).outReg = s.outReg ∧ (tSetDiv c s).cfg = s.cfg ∧
    (tSetDiv c s).reqPort = s.reqPort ∧ (tSetDiv c s).resp = s.resp ∧ (tSetDiv c s).answers = s.answers ∧
    (tSetDiv c s).draws = s.draws ∧ (tSetDiv c s).calls = s.calls ++ [.setDiv c] ∧ (tSetDiv c s).npath = s.npath ∧
    (tSetDiv c s).bpath = s.bpath ∧ (tSetDiv c s).wire = s.wire := by
  and_intros <;> rfl

@[simp] theorem consumeAnswer_fields (s : State) :
    (consumeAnswer s).cardClass = s.cardClass ∧ (consumeAnswer s).blockAddressing = s.blockAddressing ∧
    (consumeAnswer s).checksumEnabled = s.checksumEnabled ∧ (consumeAnswer s).table = s.table ∧
    (consumeAnswer s).tableBuilt = s.tableBuilt ∧ (consumeAnswer s).nstate = s.nstate ∧
    (consumeAnswer s).bstate = s.bstate ∧ (consumeAnswer s).busy = s.busy ∧ (consumeAnswer s).csHeld = s.csHeld ∧
    (consumeAnswer s).acc7 = s.acc7 ∧ (consumeAnswer s).reg16 = s.reg16 ∧ (consumeAnswer s).frame = s.frame ∧
    (consumeAnswer s).r1 = s.r1 ∧ (consumeAnswer s).ext = s.ext ∧ (consumeAnswer s).probeLeft = s.probeLeft ∧
    (consumeAnswer s).acmdDone = s.acmdDone ∧ (consumeAnswer s).pollLeft = s.pollLeft ∧
    (consumeAnswer s).cls = s.cls ∧ (consumeAnswer s).voltageAccepted = s.voltageAccepted ∧
    (consumeAnswer s).dbuf = s.dbuf ∧ (consumeAnswer s).rbuf = s.rbuf ∧ (consumeAnswer s).outBlock = s.outBlock ∧
    (consumeAnswer s).outReg = s.outReg ∧ (consumeAnswer s).cfg = s.cfg ∧ (consumeAnswer s).reqPort = s.reqPort ∧
    (consumeAnswer s).resp = s.resp ∧ (consumeAnswer s).answers = s.answers.tail ∧
    (consumeAnswer s).draws = s.draws + 1 ∧ (consumeAnswer s).calls = s.calls ∧ (consumeAnswer s).npath = s.npath ∧
    (consumeAnswer s).bpath = s.bpath ∧ (consumeAnswer s).wire = s.wire := by
  and_intros <;> rfl

@[simp] theorem enterN_fields (n : NState) (s : State) :
    (enterN n s).cardClass = s.cardClass ∧ (enterN n s).blockAddressing = s.blockAddressing ∧
    (enterN n s).checksumEnabled = s.checksumEnabled ∧ (enterN n s).table = s.table ∧
    (enterN n s).tableBuilt = s.tableBuilt ∧ (enterN n s).nstate = n ∧ (enterN n s).bstate = s.bstate ∧
    (enterN n s).busy = s.busy ∧ (enterN n s).csHeld = s.csHeld ∧ (enterN n s).acc7 = s.acc7 ∧
    (enterN n s).reg16 = s.reg16 ∧ (enterN n s).frame = s.frame ∧ (enterN n s).r1 = s.r1 ∧ (enterN n s).ext = s.ext ∧
    (enterN n s).probeLeft = s.probeLeft ∧ (enterN n s).acmdDone = s.acmdDone ∧ (enterN n s).pollLeft = s.pollLeft ∧
    (enterN n s).cls = s.cls ∧ (enterN n s).voltageAccepted = s.voltageAccepted ∧ (enterN n s).dbuf = s.dbuf ∧
    (enterN n s).rbuf = s.rbuf ∧ (enterN n s).outBlock = s.outBlock ∧ (enterN n s).outReg = s.outReg ∧
    (enterN n s).cfg = s.cfg ∧ (enterN n s).reqPort = s.reqPort ∧ (enterN n s).resp = s.resp ∧
    (enterN n s).answers = s.answers ∧ (enterN n s).draws = s.draws ∧ (enterN n s).calls = s.calls ∧
    (enterN n s).npath = s.npath ++ [n] ∧ (enterN n s).bpath = s.bpath ∧ (enterN n s).wire = s.wire := by
  and_intros <;> rfl

@[simp] theorem enterB_fields (b : BState) (s : State) :
    (enterB b s).cardClass = s.cardClass ∧ (enterB b s).blockAddressing = s.blockAddressing ∧
    (enterB b s).checksumEnabled = s.checksumEnabled ∧ (enterB b s).table = s.table ∧
    (enterB b s).tableBuilt = s.tableBuilt ∧ (enterB b s).nstate = s.nstate ∧ (enterB b s).bstate = b ∧
    (enterB b s).busy = s.busy ∧ (enterB b s).csHeld = s.csHeld ∧ (enterB b s).acc7 = s.acc7 ∧
    (enterB b s).reg16 = s.reg16 ∧ (enterB b s).frame = s.frame ∧ (enterB b s).r1 = s.r1 ∧ (enterB b s).ext = s.ext ∧
    (enterB b s).probeLeft = s.probeLeft ∧ (enterB b s).acmdDone = s.acmdDone ∧ (enterB b s).pollLeft = s.pollLeft ∧
    (enterB b s).cls = s.cls ∧ (enterB b s).voltageAccepted = s.voltageAccepted ∧ (enterB b s).dbuf = s.dbuf ∧
    (enterB b s).rbuf = s.rbuf ∧ (enterB b s).outBlock = s.outBlock ∧ (enterB b s).outReg = s.outReg ∧
    (enterB b s).cfg = s.cfg ∧ (enterB b s).reqPort = s.reqPort ∧ (enterB b s).resp = s.resp ∧
    (enterB b s).answers = s.answers ∧ (enterB b s).draws = s.draws ∧ (enterB b s).calls = s.calls ∧
    (enterB b s).npath = s.npath ∧ (enterB b s).bpath = s.bpath ++ [b] ∧ (enterB b s).wire = s.wire := by
  and_intros <;> rfl

@[simp] theorem setPollLeft_fields (n : Nat) (s : State) :
    (setPollLeft n s).cardClass = s.cardClass ∧ (setPollLeft n s).blockAddressing = s.blockAddressing ∧
    (setPollLeft n s).checksumEnabled = s.checksumEnabled ∧ (setPollLeft n s).table = s.table ∧
    (setPollLeft n s).tableBuilt = s.tableBuilt ∧ (setPollLeft n s).nstate = s.nstate ∧
    (setPollLeft n s).bstate = s.bstate ∧ (setPollLeft n s).busy = s.busy ∧ (setPollLeft n s).csHeld = s.csHeld ∧
    (setPollLeft n s).acc7 = s.acc7 ∧ (setPollLeft n s).reg16 = s.reg16 ∧ (setPollLeft n s).frame = s.frame ∧
    (setPollLeft n s).r1 = s.r1 ∧ (setPollLeft n s).ext = s.ext ∧ (setPollLeft n s).probeLeft = s.probeLeft ∧
    (setPollLeft n s).acmdDone = s.acmdDone ∧ (setPollLeft n s).pollLeft = n ∧ (setPollLeft n s).cls = s.cls ∧
    (setPollLeft n s).voltageAccepted = s.voltageAccepted ∧ (setPollLeft n s).dbuf = s.dbuf ∧
    (setPollLeft n s).rbuf = s.rbuf ∧ (setPollLeft n s).outBlock = s.outBlock ∧ (setPollLeft n s).outReg = s.outReg ∧
    (setPollLeft n s).cfg = s.cfg ∧ (setPollLeft n s).reqPort = s.reqPort ∧ (setPollLeft n s).resp = s.resp ∧
    (setPollLeft n s).answers = s.answers ∧ (setPollLeft n s).draws = s.draws ∧ (setPollLeft n s).calls = s.calls ∧
    (setPollLeft n s).npath = s.npath ∧ (setPollLeft n s).bpath = s.bpath ∧ (setPollLeft n s).wire = s.wire := by
  and_intros <;> rfl

@[simp] theorem setProbeLeft_fields (n : Nat) (s : State) :
    (setProbeLeft n s).cardClass = s.cardClass ∧ (setProbeLeft n s).blockAddressing = s.blockAddressing ∧
    (setProbeLeft n s).checksumEnabled = s.checksumEnabled ∧ (setProbeLeft n s).table = s.table ∧
    (setProbeLeft n s).tableBuilt = s.tableBuilt ∧ (setProbeLeft n s).nstate = s.nstate ∧
    (setProbeLeft n s).bstate = s.bstate ∧ (setProbeLeft n s).busy = s.busy ∧ (setProbeLeft n s).csHeld = s.csHeld ∧
    (setProbeLeft n s).acc7 = s.acc7 ∧ (setProbeLeft n s).reg16 = s.reg16 ∧ (setProbeLeft n s).frame = s.frame ∧
    (setProbeLeft n s).r1 = s.r1 ∧ (setProbeLeft n s).ext = s.ext ∧ (setProbeLeft n s).probeLeft = n ∧
    (setProbeLeft n s).acmdDone = s.acmdDone ∧ (setProbeLeft n s).pollLeft = s.pollLeft ∧
    (setProbeLeft n s).cls = s.cls ∧ (setProbeLeft n s).voltageAccepted = s.voltageAccepted ∧
    (setProbeLeft n s).dbuf = s.dbuf ∧ (setProbeLeft n s).rbuf = s.rbuf ∧ (setProbeLeft n s).outBlock = s.outBlock ∧
    (setProbeLeft n s).outReg = s.outReg ∧ (setProbeLeft n s).cfg = s.cfg ∧ (setProbeLeft n s).reqPort = s.reqPort ∧
    (setProbeLeft n s).resp = s.resp ∧ (setProbeLeft n s).answers = s.answers ∧ (setProbeLeft n s).draws = s.draws ∧
    (setProbeLeft n s).calls = s.calls ∧ (setProbeLeft n s).npath = s.npath ∧ (setProbeLeft n s).bpath = s.bpath ∧
    (setProbeLeft n s).wire = s.wire := by
  and_intros <;> rfl

@[simp] theorem setAcmdDone_fields (n : Nat) (s : State) :
    (setAcmdDone n s).cardClass = s.cardClass ∧ (setAcmdDone n s).blockAddressing = s.blockAddressing ∧
    (setAcmdDone n s).checksumEnabled = s.checksumEnabled ∧ (setAcmdDone n s).table = s.table ∧
    (setAcmdDone n s).tableBuilt = s.tableBuilt ∧ (setAcmdDone n s).nstate = s.nstate ∧
    (setAcmdDone n s).bstate = s.bstate ∧ (setAcmdDone n s).busy = s.busy ∧ (setAcmdDone n s).csHeld = s.csHeld ∧
    (setAcmdDone n s).acc7 = s.acc7 ∧ (setAcmdDone n s).reg16 = s.reg16 ∧ (setAcmdDone n s).frame = s.frame ∧
    (setAcmdDone n s).r1 = s.r1 ∧ (setAcmdDone n s).ext = s.ext ∧ (setAcmdDone n s).probeLeft = s.probeLeft ∧
    (setAcmdDone n s).acmdDone = n ∧ (setAcmdDone n s).pollLeft = s.pollLeft ∧ (setAcmdDone n s).cls = s.cls ∧
    (setAcmdDone n s).voltageAccepted = s.voltageAccepted ∧ (setAcmdDone n s).dbuf = s.dbuf ∧
    (setAcmdDone n s).rbuf = s.rbuf ∧ (setAcmdDone n s).outBlock = s.outBlock ∧ (setAcmdDone n s).outReg = s.outReg ∧
    (setAcmdDone n s).cfg = s.cfg ∧ (setAcmdDone n s).reqPort = s.reqPort ∧ (setAcmdDone n s).resp = s.resp ∧
    (setAcmdDone n s).answers = s.answers ∧ (setAcmdDone n s).draws = s.draws ∧ (setAcmdDone n s).calls = s.calls ∧
    (setAcmdDone n s).npath = s.npath ∧ (setAcmdDone n s).bpath = s.bpath ∧ (setAcmdDone n s).wire = s.wire := by
  and_intros <;> rfl

@[simp] theorem setCls_fields (c : CardClass) (s : State) :
    (setCls c s).cardClass = s.cardClass ∧ (setCls c s).blockAddressing = s.blockAddressing ∧
    (setCls c s).checksumEnabled = s.checksumEnabled ∧ (setCls c s).table = s.table ∧
    (setCls c s).tableBuilt = s.tableBuilt ∧ (setCls c s).nstate = s.nstate ∧ (setCls c s).bstate = s.bstate ∧
    (setCls c s).busy = s.busy ∧ (setCls c s).csHeld = s.csHeld ∧ (setCls c s).acc7 = s.acc7 ∧
    (setCls c s).reg16 = s.reg16 ∧ (setCls c s).frame = s.frame ∧ (setCls c s).r1 = s.r1 ∧ (setCls c s).ext = s.ext ∧
    (setCls c s).probeLeft = s.probeLeft ∧ (setCls c s).acmdDone = s.acmdDone ∧ (setCls c s).pollLeft = s.pollLeft ∧
    (setCls c s).cls = c ∧ (setCls c s).voltageAccepted = s.voltageAccepted ∧ (setCls c s).dbuf = s.dbuf ∧
    (setCls c s).rbuf = s.rbuf ∧ (setCls c s).outBlock = s.outBlock ∧ (setCls c s).outReg = s.outReg ∧
    (setCls c s).cfg = s.cfg ∧ (setCls c s).reqPort = s.reqPort ∧ (setCls c s).resp = s.resp ∧
    (setCls c s).answers = s.answers ∧ (setCls c s).draws = s.draws ∧ (setCls c s).calls = s.calls ∧
    (setCls c s).npath = s.npath ∧ (setCls c s).bpath = s.bpath ∧ (setCls c s).wire = s.wire := by
  and_intros <;> rfl

@[simp] theorem setVoltage_fields (v : Bool) (s : State) :
    (setVoltage v s).cardClass = s.cardClass ∧ (setVoltage v s).blockAddressing = s.blockAddressing ∧
    (setVoltage v s).checksumEnabled = s.checksumEnabled ∧ (setVoltage v s).table = s.table ∧
    (setVoltage v s).tableBuilt = s.tableBuilt ∧ (setVoltage v s).nstate = s.nstate ∧
    (setVoltage v s).bstate = s.bstate ∧ (setVoltage v s).busy = s.busy ∧ (setVoltage v s).csHeld = s.csHeld ∧
    (setVoltage v s).acc7 = s.acc7 ∧ (setVoltage v s).reg16 = s.reg16 ∧ (setVoltage v s).frame = s.frame ∧
    (setVoltage v s).r1 = s.r1 ∧ (setVoltage v s).ext = s.ext ∧ (setVoltage v s).probeLeft = s.probeLeft ∧
    (setVoltage v s).acmdDone = s.acmdDone ∧ (setVoltage v s).pollLeft = s.pollLeft ∧ (setVoltage v s).cls = s.cls ∧
    (setVoltage v s).voltageAccepted = v ∧ (setVoltage v s).dbuf = s.dbuf ∧ (setVoltage v s).rbuf = s.rbuf ∧
    (setVoltage v s).outBlock = s.outBlock ∧ (setVoltage v s).outReg = s.outReg ∧ (setVoltage v s).cfg = s.cfg ∧
    (setVoltage v s).reqPort = s.reqPort ∧ (setVoltage v s).resp = s.resp ∧ (setVoltage v s).answers = s.answers ∧
    (setVoltage v s).draws = s.draws ∧ (setVoltage v s).calls = s.calls ∧ (setVoltage v s).npath = s.npath ∧
    (setVoltage v s).bpath = s.bpath ∧ (setVoltage v s).wire = s.wire := by
  and_intros <;> rfl

@[simp] theorem setR1_fields (b : Byte) (s : State) :
    (setR1 b s).cardClass = s.cardClass ∧ (setR1 b s).blockAddressing = s.blockAddressing ∧
    (setR1 b s).checksumEnabled = s.checksumEnabled ∧ (setR1 b s).table = s.table ∧
    (setR1 b s).tableBuilt = s.tableBuilt ∧ (setR1 b s).nstate = s.nstate ∧ (setR1 b s).bstate = s.bstate ∧
    (setR1 b s).busy = s.busy ∧ (setR1 b s).csHeld = s.csHeld ∧ (setR1 b s).acc7 = s.acc7 ∧
    (setR1 b s).reg16 = s.reg16 ∧ (setR1 b s).frame = s.frame ∧ (setR1 b s).r1 = b ∧ (setR1 b s).ext = s.ext ∧
    (setR1 b s).probeLeft = s.probeLeft ∧ (setR1 b s).acmdDone = s.acmdDone ∧ (setR1 b s).pollLeft = s.pollLeft ∧
    (setR1 b s).cls = s.cls ∧ (setR1 b s).voltageAccepted = s.voltageAccepted ∧ (setR1 b s).dbuf = s.dbuf ∧
    (setR1 b s).rbuf = s.rbuf ∧ (setR1 b s).outBlock = s.outBlock ∧ (setR1 b s).outReg = s.outReg ∧
    (setR1 b s).cfg = s.cfg ∧ (setR1 b s).reqPort = s.reqPort ∧ (setR1 b s).resp = s.resp ∧
    (setR1 b s).answers = s.answers ∧ (setR1 b s).draws = s.draws ∧ (setR1 b s).calls = s.calls ∧
    (setR1 b s).npath = s.npath ∧ (setR1 b s).bpath = s.bpath ∧ (setR1 b s).wire = s.wire := by
  and_intros <;> rfl

@[simp] theorem setExt_fields (e : Bytes4) (s : State) :
    (setExt e s).cardClass = s.cardClass ∧ (setExt e s).blockAddressing = s.blockAddressing ∧
    (setExt e s).checksumEnabled = s.checksumEnabled ∧ (setExt e s).table = s.table ∧
    (setExt e s).tableBuilt = s.tableBuilt ∧ (setExt e s).nstate = s.nstate ∧ (setExt e s).bstate = s.bstate ∧
    (setExt e s).busy = s.busy ∧ (setExt e s).csHeld = s.csHeld ∧ (setExt e s).acc7 = s.acc7 ∧
    (setExt e s).reg16 = s.reg16 ∧ (setExt e s).frame = s.frame ∧ (setExt e s).r1 = s.r1 ∧ (setExt e s).ext = e ∧
    (setExt e s).probeLeft = s.probeLeft ∧ (setExt e s).acmdDone = s.acmdDone ∧ (setExt e s).pollLeft = s.pollLeft ∧
    (setExt e s).cls = s.cls ∧ (setExt e s).voltageAccepted = s.voltageAccepted ∧ (setExt e s).dbuf = s.dbuf ∧
    (setExt e s).rbuf = s.rbuf ∧ (setExt e s).outBlock = s.outBlock ∧ (setExt e s).outReg = s.outReg ∧
    (setExt e s).cfg = s.cfg ∧ (setExt e s).reqPort = s.reqPort ∧ (setExt e s).resp = s.resp ∧
    (setExt e s).answers = s.answers ∧ (setExt e s).draws = s.draws ∧ (setExt e s).calls = s.calls ∧
    (setExt e s).npath = s.npath ∧ (setExt e s).bpath = s.bpath ∧ (setExt e s).wire = s.wire := by
  and_intros <;> rfl

@[simp] theorem setFrame_fields (f : Frame6) (s : State) :
    (setFrame f s).cardClass = s.cardClass ∧ (setFrame f s).blockAddressing = s.blockAddressing ∧
    (setFrame f s).checksumEnabled = s.checksumEnabled ∧ (setFrame f s).table = s.table ∧
    (setFrame f s).tableBuilt = s.tableBuilt ∧ (setFrame f s).nstate = s.nstate ∧ (setFrame f s).bstate = s.bstate ∧
    (setFrame f s).busy = s.busy ∧ (setFrame f s).csHeld = s.csHeld ∧ (setFrame f s).acc7 = s.acc7 ∧
    (setFrame f s).reg16 = s.reg16 ∧ (setFrame f s).frame = f ∧ (setFrame f s).r1 = s.r1 ∧
    (setFrame f s).ext = s.ext ∧ (setFrame f s).probeLeft = s.probeLeft ∧ (setFrame f s).acmdDone = s.acmdDone ∧
    (setFrame f s).pollLeft = s.pollLeft ∧ (setFrame f s).cls = s.cls ∧
    (setFrame f s).voltageAccepted = s.voltageAccepted ∧ (setFrame f s).dbuf = s.dbuf ∧
    (setFrame f s).rbuf = s.rbuf ∧ (setFrame f s).outBlock = s.outBlock ∧ (setFrame f s).outReg = s.outReg ∧
    (setFrame f s).cfg = s.cfg ∧ (setFrame f s).reqPort = s.reqPort ∧ (setFrame f s).resp = s.resp ∧
    (setFrame f s).answers = s.answers ∧ (setFrame f s).draws = s.draws ∧ (setFrame f s).calls = s.calls ∧
    (setFrame f s).npath = s.npath ∧ (setFrame f s).bpath = s.bpath ∧ (setFrame f s).wire = s.wire := by
  and_intros <;> rfl

@[simp] theorem setAcc7_fields (v : BitVec 7) (s : State) :
    (setAcc7 v s).cardClass = s.cardClass ∧ (setAcc7 v s).blockAddressing = s.blockAddressing ∧
    (setAcc7 v s).checksumEnabled = s.checksumEnabled ∧ (setAcc7 v s).table = s.table ∧
    (setAcc7 v s).tableBuilt = s.tableBuilt ∧ (setAcc7 v s).nstate = s.nstate ∧ (setAcc7 v s).bstate = s.bstate ∧
    (setAcc7 v s).busy = s.busy ∧ (setAcc7 v s).csHeld = s.csHeld ∧ (setAcc7 v s).acc7 = v ∧
    (setAcc7 v s).reg16 = s.reg16 ∧ (setAcc7 v s).frame = s.frame ∧ (setAcc7 v s).r1 = s.r1 ∧
    (setAcc7 v s).ext = s.ext ∧ (setAcc7 v s).probeLeft = s.probeLeft ∧ (setAcc7 v s).acmdDone = s.acmdDone ∧
    (setAcc7 v s).pollLeft = s.pollLeft ∧ (setAcc7 v s).cls = s.cls ∧
    (setAcc7 v s).voltageAccepted = s.voltageAccepted ∧ (setAcc7 v s).dbuf = s.dbuf ∧ (setAcc7 v s).rbuf = s.rbuf ∧
    (setAcc7 v s).outBlock = s.outBlock ∧ (setAcc7 v s).outReg = s.outReg ∧ (setAcc7 v s).cfg = s.cfg ∧
    (setAcc7 v s).reqPort = s.reqPort ∧ (setAcc7 v s).resp = s.resp ∧ (setAcc7 v s).answers = s.answers ∧
    (setAcc7 v s).draws = s.draws ∧ (setAcc7 v s).calls = s.calls ∧ (setAcc7 v s).npath = s.npath ∧
    (setAcc7 v s).bpath = s.bpath ∧ (setAcc7 v s).wire = s.wire := by
  and_intros <;> rfl

@[simp] theorem setReg16_fields (v : BitVec 16) (s : State) :
    (setReg16 v s).cardClass = s.cardClass ∧ (setReg16 v s).blockAddressing = s.blockAddressing ∧
    (setReg16 v s).checksumEnabled = s.checksumEnabled ∧ (setReg16 v s).table = s.table ∧
    (setReg16 v s).tableBuilt = s.tableBuilt ∧ (setReg16 v s).nstate = s.nstate ∧ (setReg16 v s).bstate = s.bstate ∧
    (setReg16 v s).busy = s.busy ∧ (setReg16 v s).csHeld = s.csHeld ∧ (setReg16 v s).acc7 = s.acc7 ∧
    (setReg16 v s).reg16 = v ∧ (setReg16 v s).frame = s.frame ∧ (setReg16 v s).r1 = s.r1 ∧
    (setReg16 v s).ext = s.ext ∧ (setReg16 v s).probeLeft = s.probeLeft ∧ (setReg16 v s).acmdDone = s.acmdDone ∧
    (setReg16 v s).pollLeft = s.pollLeft ∧ (setReg16 v s).cls = s.cls ∧
    (setReg16 v s).voltageAccepted = s.voltageAccepted ∧ (setReg16 v s).dbuf = s.dbuf ∧
    (setReg16 v s).rbuf = s.rbuf ∧ (setReg16 v s).outBlock = s.outBlock ∧ (setReg16 v s).outReg = s.outReg ∧
    (setReg16 v s).cfg = s.cfg ∧ (setReg16 v s).reqPort = s.reqPort ∧ (setReg16 v s).resp = s.resp ∧
    (setReg16 v s).answers = s.answers ∧ (setReg16 v s).draws = s.draws ∧ (setReg16 v s).calls = s.calls ∧
    (setReg16 v s).npath = s.npath ∧ (setReg16 v s).bpath = s.bpath ∧ (setReg16 v s).wire = s.wire := by
  and_intros <;> rfl

@[simp] theorem setDbuf_fields (bs : List Byte) (s : State) :
    (setDbuf bs s).cardClass = s.cardClass ∧ (setDbuf bs s).blockAddressing = s.blockAddressing ∧
    (setDbuf bs s).checksumEnabled = s.checksumEnabled ∧ (setDbuf bs s).table = s.table ∧
    (setDbuf bs s).tableBuilt = s.tableBuilt ∧ (setDbuf bs s).nstate = s.nstate ∧ (setDbuf bs s).bstate = s.bstate ∧
    (setDbuf bs s).busy = s.busy ∧ (setDbuf bs s).csHeld = s.csHeld ∧ (setDbuf bs s).acc7 = s.acc7 ∧
    (setDbuf bs s).reg16 = s.reg16 ∧ (setDbuf bs s).frame = s.frame ∧ (setDbuf bs s).r1 = s.r1 ∧
    (setDbuf bs s).ext = s.ext ∧ (setDbuf bs s).probeLeft = s.probeLeft ∧ (setDbuf bs s).acmdDone = s.acmdDone ∧
    (setDbuf bs s).pollLeft = s.pollLeft ∧ (setDbuf bs s).cls = s.cls ∧
    (setDbuf bs s).voltageAccepted = s.voltageAccepted ∧ (setDbuf bs s).dbuf = Memory.ofBytes bs ∧
    (setDbuf bs s).rbuf = s.rbuf ∧ (setDbuf bs s).outBlock = s.outBlock ∧ (setDbuf bs s).outReg = s.outReg ∧
    (setDbuf bs s).cfg = s.cfg ∧ (setDbuf bs s).reqPort = s.reqPort ∧ (setDbuf bs s).resp = s.resp ∧
    (setDbuf bs s).answers = s.answers ∧ (setDbuf bs s).draws = s.draws ∧ (setDbuf bs s).calls = s.calls ∧
    (setDbuf bs s).npath = s.npath ∧ (setDbuf bs s).bpath = s.bpath ∧ (setDbuf bs s).wire = s.wire := by
  and_intros <;> rfl

@[simp] theorem setRbuf_fields (bs : List Byte) (s : State) :
    (setRbuf bs s).cardClass = s.cardClass ∧ (setRbuf bs s).blockAddressing = s.blockAddressing ∧
    (setRbuf bs s).checksumEnabled = s.checksumEnabled ∧ (setRbuf bs s).table = s.table ∧
    (setRbuf bs s).tableBuilt = s.tableBuilt ∧ (setRbuf bs s).nstate = s.nstate ∧ (setRbuf bs s).bstate = s.bstate ∧
    (setRbuf bs s).busy = s.busy ∧ (setRbuf bs s).csHeld = s.csHeld ∧ (setRbuf bs s).acc7 = s.acc7 ∧
    (setRbuf bs s).reg16 = s.reg16 ∧ (setRbuf bs s).frame = s.frame ∧ (setRbuf bs s).r1 = s.r1 ∧
    (setRbuf bs s).ext = s.ext ∧ (setRbuf bs s).probeLeft = s.probeLeft ∧ (setRbuf bs s).acmdDone = s.acmdDone ∧
    (setRbuf bs s).pollLeft = s.pollLeft ∧ (setRbuf bs s).cls = s.cls ∧
    (setRbuf bs s).voltageAccepted = s.voltageAccepted ∧ (setRbuf bs s).dbuf = s.dbuf ∧
    (setRbuf bs s).rbuf = Memory.ofBytes bs ∧ (setRbuf bs s).outBlock = s.outBlock ∧
    (setRbuf bs s).outReg = s.outReg ∧ (setRbuf bs s).cfg = s.cfg ∧ (setRbuf bs s).reqPort = s.reqPort ∧
    (setRbuf bs s).resp = s.resp ∧ (setRbuf bs s).answers = s.answers ∧ (setRbuf bs s).draws = s.draws ∧
    (setRbuf bs s).calls = s.calls ∧ (setRbuf bs s).npath = s.npath ∧ (setRbuf bs s).bpath = s.bpath ∧
    (setRbuf bs s).wire = s.wire := by
  and_intros <;> rfl

@[simp] theorem setOutBlock_fields (bs : List Byte) (s : State) :
    (setOutBlock bs s).cardClass = s.cardClass ∧ (setOutBlock bs s).blockAddressing = s.blockAddressing ∧
    (setOutBlock bs s).checksumEnabled = s.checksumEnabled ∧ (setOutBlock bs s).table = s.table ∧
    (setOutBlock bs s).tableBuilt = s.tableBuilt ∧ (setOutBlock bs s).nstate = s.nstate ∧
    (setOutBlock bs s).bstate = s.bstate ∧ (setOutBlock bs s).busy = s.busy ∧ (setOutBlock bs s).csHeld = s.csHeld ∧
    (setOutBlock bs s).acc7 = s.acc7 ∧ (setOutBlock bs s).reg16 = s.reg16 ∧ (setOutBlock bs s).frame = s.frame ∧
    (setOutBlock bs s).r1 = s.r1 ∧ (setOutBlock bs s).ext = s.ext ∧ (setOutBlock bs s).probeLeft = s.probeLeft ∧
    (setOutBlock bs s).acmdDone = s.acmdDone ∧ (setOutBlock bs s).pollLeft = s.pollLeft ∧
    (setOutBlock bs s).cls = s.cls ∧ (setOutBlock bs s).voltageAccepted = s.voltageAccepted ∧
    (setOutBlock bs s).dbuf = s.dbuf ∧ (setOutBlock bs s).rbuf = s.rbuf ∧
    (setOutBlock bs s).outBlock = Memory.ofBytes bs ∧ (setOutBlock bs s).outReg = s.outReg ∧
    (setOutBlock bs s).cfg = s.cfg ∧ (setOutBlock bs s).reqPort = s.reqPort ∧ (setOutBlock bs s).resp = s.resp ∧
    (setOutBlock bs s).answers = s.answers ∧ (setOutBlock bs s).draws = s.draws ∧
    (setOutBlock bs s).calls = s.calls ∧ (setOutBlock bs s).npath = s.npath ∧ (setOutBlock bs s).bpath = s.bpath ∧
    (setOutBlock bs s).wire = s.wire := by
  and_intros <;> rfl

@[simp] theorem setOutReg_fields (bs : List Byte) (s : State) :
    (setOutReg bs s).cardClass = s.cardClass ∧ (setOutReg bs s).blockAddressing = s.blockAddressing ∧
    (setOutReg bs s).checksumEnabled = s.checksumEnabled ∧ (setOutReg bs s).table = s.table ∧
    (setOutReg bs s).tableBuilt = s.tableBuilt ∧ (setOutReg bs s).nstate = s.nstate ∧
    (setOutReg bs s).bstate = s.bstate ∧ (setOutReg bs s).busy = s.busy ∧ (setOutReg bs s).csHeld = s.csHeld ∧
    (setOutReg bs s).acc7 = s.acc7 ∧ (setOutReg bs s).reg16 = s.reg16 ∧ (setOutReg bs s).frame = s.frame ∧
    (setOutReg bs s).r1 = s.r1 ∧ (setOutReg bs s).ext = s.ext ∧ (setOutReg bs s).probeLeft = s.probeLeft ∧
    (setOutReg bs s).acmdDone = s.acmdDone ∧ (setOutReg bs s).pollLeft = s.pollLeft ∧ (setOutReg bs s).cls = s.cls ∧
    (setOutReg bs s).voltageAccepted = s.voltageAccepted ∧ (setOutReg bs s).dbuf = s.dbuf ∧
    (setOutReg bs s).rbuf = s.rbuf ∧ (setOutReg bs s).outBlock = s.outBlock ∧
    (setOutReg bs s).outReg = Memory.ofBytes bs ∧ (setOutReg bs s).cfg = s.cfg ∧
    (setOutReg bs s).reqPort = s.reqPort ∧ (setOutReg bs s).resp = s.resp ∧ (setOutReg bs s).answers = s.answers ∧
    (setOutReg bs s).draws = s.draws ∧ (setOutReg bs s).calls = s.calls ∧ (setOutReg bs s).npath = s.npath ∧
    (setOutReg bs s).bpath = s.bpath ∧ (setOutReg bs s).wire = s.wire := by
  and_intros <;> rfl

@[simp] theorem endRead_fields (s : State) :
    (endRead s).cardClass = s.cardClass ∧ (endRead s).blockAddressing = s.blockAddressing ∧
    (endRead s).checksumEnabled = s.checksumEnabled ∧ (endRead s).table = s.table ∧
    (endRead s).tableBuilt = s.tableBuilt ∧ (endRead s).nstate = s.nstate ∧ (endRead s).bstate = .bIdle ∧
    (endRead s).busy = s.busy ∧ (endRead s).csHeld = s.csHeld ∧ (endRead s).acc7 = s.acc7 ∧
    (endRead s).reg16 = s.reg16 ∧ (endRead s).frame = s.frame ∧ (endRead s).r1 = s.r1 ∧ (endRead s).ext = s.ext ∧
    (endRead s).probeLeft = s.probeLeft ∧ (endRead s).acmdDone = s.acmdDone ∧ (endRead s).pollLeft = s.pollLeft ∧
    (endRead s).cls = s.cls ∧ (endRead s).voltageAccepted = s.voltageAccepted ∧ (endRead s).dbuf = s.dbuf ∧
    (endRead s).rbuf = s.rbuf ∧ (endRead s).outBlock = s.outBlock ∧ (endRead s).outReg = s.outReg ∧
    (endRead s).cfg = s.cfg ∧ (endRead s).reqPort = s.reqPort ∧ (endRead s).resp = s.resp ∧
    (endRead s).answers = s.answers ∧ (endRead s).draws = s.draws ∧ (endRead s).calls = s.calls ∧
    (endRead s).npath = s.npath ∧ (endRead s).bpath = s.bpath ∧ (endRead s).wire = s.wire := by
  and_intros <;> rfl

@[simp] theorem setTable_fields (m : Memory) (s : State) :
    (setTable m s).cardClass = s.cardClass ∧ (setTable m s).blockAddressing = s.blockAddressing ∧
    (setTable m s).checksumEnabled = s.checksumEnabled ∧ (setTable m s).table = m ∧
    (setTable m s).tableBuilt = true ∧ (setTable m s).nstate = s.nstate ∧ (setTable m s).bstate = s.bstate ∧
    (setTable m s).busy = s.busy ∧ (setTable m s).csHeld = s.csHeld ∧ (setTable m s).acc7 = s.acc7 ∧
    (setTable m s).reg16 = s.reg16 ∧ (setTable m s).frame = s.frame ∧ (setTable m s).r1 = s.r1 ∧
    (setTable m s).ext = s.ext ∧ (setTable m s).probeLeft = s.probeLeft ∧ (setTable m s).acmdDone = s.acmdDone ∧
    (setTable m s).pollLeft = s.pollLeft ∧ (setTable m s).cls = s.cls ∧
    (setTable m s).voltageAccepted = s.voltageAccepted ∧ (setTable m s).dbuf = s.dbuf ∧
    (setTable m s).rbuf = s.rbuf ∧ (setTable m s).outBlock = s.outBlock ∧ (setTable m s).outReg = s.outReg ∧
    (setTable m s).cfg = s.cfg ∧ (setTable m s).reqPort = s.reqPort ∧ (setTable m s).resp = s.resp ∧
    (setTable m s).answers = s.answers ∧ (setTable m s).draws = s.draws ∧ (setTable m s).calls = s.calls ∧
    (setTable m s).npath = s.npath ∧ (setTable m s).bpath = s.bpath ∧ (setTable m s).wire = s.wire := by
  and_intros <;> rfl

@[simp] theorem setChecksumEnabled_fields (v : Bool) (s : State) :
    (setChecksumEnabled v s).cardClass = s.cardClass ∧ (setChecksumEnabled v s).blockAddressing = s.blockAddressing ∧
    (setChecksumEnabled v s).checksumEnabled = v ∧ (setChecksumEnabled v s).table = s.table ∧
    (setChecksumEnabled v s).tableBuilt = s.tableBuilt ∧ (setChecksumEnabled v s).nstate = s.nstate ∧
    (setChecksumEnabled v s).bstate = s.bstate ∧ (setChecksumEnabled v s).busy = s.busy ∧
    (setChecksumEnabled v s).csHeld = s.csHeld ∧ (setChecksumEnabled v s).acc7 = s.acc7 ∧
    (setChecksumEnabled v s).reg16 = s.reg16 ∧ (setChecksumEnabled v s).frame = s.frame ∧
    (setChecksumEnabled v s).r1 = s.r1 ∧ (setChecksumEnabled v s).ext = s.ext ∧
    (setChecksumEnabled v s).probeLeft = s.probeLeft ∧ (setChecksumEnabled v s).acmdDone = s.acmdDone ∧
    (setChecksumEnabled v s).pollLeft = s.pollLeft ∧ (setChecksumEnabled v s).cls = s.cls ∧
    (setChecksumEnabled v s).voltageAccepted = s.voltageAccepted ∧ (setChecksumEnabled v s).dbuf = s.dbuf ∧
    (setChecksumEnabled v s).rbuf = s.rbuf ∧ (setChecksumEnabled v s).outBlock = s.outBlock ∧
    (setChecksumEnabled v s).outReg = s.outReg ∧ (setChecksumEnabled v s).cfg = s.cfg ∧
    (setChecksumEnabled v s).reqPort = s.reqPort ∧ (setChecksumEnabled v s).resp = s.resp ∧
    (setChecksumEnabled v s).answers = s.answers ∧ (setChecksumEnabled v s).draws = s.draws ∧
    (setChecksumEnabled v s).calls = s.calls ∧ (setChecksumEnabled v s).npath = s.npath ∧
    (setChecksumEnabled v s).bpath = s.bpath ∧ (setChecksumEnabled v s).wire = s.wire := by
  and_intros <;> rfl

@[simp] theorem teardown_fields (s : State) :
    (teardown s).cardClass = .unclassified ∧ (teardown s).blockAddressing = .byteAddressed ∧
    (teardown s).checksumEnabled = false ∧ (teardown s).table = s.table ∧ (teardown s).tableBuilt = s.tableBuilt ∧
    (teardown s).nstate = s.nstate ∧ (teardown s).bstate = s.bstate ∧ (teardown s).busy = s.busy ∧
    (teardown s).csHeld = s.csHeld ∧ (teardown s).acc7 = s.acc7 ∧ (teardown s).reg16 = s.reg16 ∧
    (teardown s).frame = s.frame ∧ (teardown s).r1 = s.r1 ∧ (teardown s).ext = s.ext ∧
    (teardown s).probeLeft = s.probeLeft ∧ (teardown s).acmdDone = s.acmdDone ∧ (teardown s).pollLeft = s.pollLeft ∧
    (teardown s).cls = s.cls ∧ (teardown s).voltageAccepted = s.voltageAccepted ∧ (teardown s).dbuf = s.dbuf ∧
    (teardown s).rbuf = s.rbuf ∧ (teardown s).outBlock = s.outBlock ∧ (teardown s).outReg = s.outReg ∧
    (teardown s).cfg = s.cfg ∧ (teardown s).reqPort = s.reqPort ∧ (teardown s).resp = s.resp ∧
    (teardown s).answers = s.answers ∧ (teardown s).draws = s.draws ∧ (teardown s).calls = s.calls ∧
    (teardown s).npath = s.npath ∧ (teardown s).bpath = s.bpath ∧ (teardown s).wire = s.wire := by
  and_intros <;> rfl

@[simp] theorem commitSession_fields (c : CardClass) (s : State) :
    (commitSession c s).cardClass = c ∧ (commitSession c s).blockAddressing = addressingOf c ∧
    (commitSession c s).checksumEnabled = s.checksumEnabled ∧ (commitSession c s).table = s.table ∧
    (commitSession c s).tableBuilt = s.tableBuilt ∧ (commitSession c s).nstate = s.nstate ∧
    (commitSession c s).bstate = s.bstate ∧ (commitSession c s).busy = s.busy ∧
    (commitSession c s).csHeld = s.csHeld ∧ (commitSession c s).acc7 = s.acc7 ∧ (commitSession c s).reg16 = s.reg16 ∧
    (commitSession c s).frame = s.frame ∧ (commitSession c s).r1 = s.r1 ∧ (commitSession c s).ext = s.ext ∧
    (commitSession c s).probeLeft = s.probeLeft ∧ (commitSession c s).acmdDone = s.acmdDone ∧
    (commitSession c s).pollLeft = s.pollLeft ∧ (commitSession c s).cls = s.cls ∧
    (commitSession c s).voltageAccepted = s.voltageAccepted ∧ (commitSession c s).dbuf = s.dbuf ∧
    (commitSession c s).rbuf = s.rbuf ∧ (commitSession c s).outBlock = s.outBlock ∧
    (commitSession c s).outReg = s.outReg ∧ (commitSession c s).cfg = s.cfg ∧
    (commitSession c s).reqPort = s.reqPort ∧ (commitSession c s).resp = s.resp ∧
    (commitSession c s).answers = s.answers ∧ (commitSession c s).draws = s.draws ∧
    (commitSession c s).calls = s.calls ∧ (commitSession c s).npath = s.npath ∧ (commitSession c s).bpath = s.bpath ∧
    (commitSession c s).wire = s.wire := by
  and_intros <;> rfl

@[simp] theorem beginStep_fields (s : State) :
    (beginStep s).cardClass = s.cardClass ∧ (beginStep s).blockAddressing = s.blockAddressing ∧
    (beginStep s).checksumEnabled = s.checksumEnabled ∧ (beginStep s).table = s.table ∧
    (beginStep s).tableBuilt = s.tableBuilt ∧ (beginStep s).nstate = s.nstate ∧ (beginStep s).bstate = s.bstate ∧
    (beginStep s).busy = s.busy ∧ (beginStep s).csHeld = s.csHeld ∧ (beginStep s).acc7 = s.acc7 ∧
    (beginStep s).reg16 = s.reg16 ∧ (beginStep s).frame = s.frame ∧ (beginStep s).r1 = s.r1 ∧
    (beginStep s).ext = s.ext ∧ (beginStep s).probeLeft = s.probeLeft ∧ (beginStep s).acmdDone = s.acmdDone ∧
    (beginStep s).pollLeft = s.pollLeft ∧ (beginStep s).cls = s.cls ∧
    (beginStep s).voltageAccepted = s.voltageAccepted ∧ (beginStep s).dbuf = s.dbuf ∧ (beginStep s).rbuf = s.rbuf ∧
    (beginStep s).outBlock = s.outBlock ∧ (beginStep s).outReg = s.outReg ∧ (beginStep s).cfg = s.cfg ∧
    (beginStep s).reqPort = s.reqPort ∧ (beginStep s).resp = s.resp ∧ (beginStep s).answers = s.answers ∧
    (beginStep s).draws = s.draws ∧ (beginStep s).calls = [] ∧ (beginStep s).npath = [] ∧ (beginStep s).bpath = [] ∧
    (beginStep s).wire = s.wire := by
  and_intros <;> rfl

@[simp] theorem accept_fields (s : State) :
    (accept s).cardClass = s.cardClass ∧ (accept s).blockAddressing = s.blockAddressing ∧
    (accept s).checksumEnabled = s.checksumEnabled ∧ (accept s).table = s.table ∧
    (accept s).tableBuilt = s.tableBuilt ∧ (accept s).nstate = s.nstate ∧ (accept s).bstate = s.bstate ∧
    (accept s).busy = true ∧ (accept s).csHeld = s.csHeld ∧ (accept s).acc7 = s.acc7 ∧ (accept s).reg16 = s.reg16 ∧
    (accept s).frame = s.frame ∧ (accept s).r1 = s.r1 ∧ (accept s).ext = s.ext ∧ (accept s).probeLeft = s.probeLeft ∧
    (accept s).acmdDone = s.acmdDone ∧ (accept s).pollLeft = s.pollLeft ∧ (accept s).cls = s.cls ∧
    (accept s).voltageAccepted = s.voltageAccepted ∧ (accept s).dbuf = s.dbuf ∧ (accept s).rbuf = s.rbuf ∧
    (accept s).outBlock = s.outBlock ∧ (accept s).outReg = s.outReg ∧ (accept s).cfg = s.cfg ∧
    (accept s).reqPort = s.reqPort ∧ (accept s).resp = s.resp ∧ (accept s).answers = s.answers ∧
    (accept s).draws = s.draws ∧ (accept s).calls = [] ∧ (accept s).npath = [] ∧ (accept s).bpath = [] ∧
    (accept s).wire = s.wire := by
  and_intros <;> rfl

@[simp] theorem deliver_fields (st : Status) (v : Value) (s : State) :
    (deliver st v s).cardClass = s.cardClass ∧ (deliver st v s).blockAddressing = s.blockAddressing ∧
    (deliver st v s).checksumEnabled = s.checksumEnabled ∧ (deliver st v s).table = s.table ∧
    (deliver st v s).tableBuilt = s.tableBuilt ∧ (deliver st v s).nstate = .idle ∧ (deliver st v s).bstate = .bIdle ∧
    (deliver st v s).busy = false ∧ (deliver st v s).csHeld = s.csHeld ∧ (deliver st v s).acc7 = s.acc7 ∧
    (deliver st v s).reg16 = s.reg16 ∧ (deliver st v s).frame = s.frame ∧ (deliver st v s).r1 = s.r1 ∧
    (deliver st v s).ext = s.ext ∧ (deliver st v s).probeLeft = s.probeLeft ∧
    (deliver st v s).acmdDone = s.acmdDone ∧ (deliver st v s).pollLeft = s.pollLeft ∧ (deliver st v s).cls = s.cls ∧
    (deliver st v s).voltageAccepted = s.voltageAccepted ∧ (deliver st v s).dbuf = s.dbuf ∧
    (deliver st v s).rbuf = s.rbuf ∧ (deliver st v s).outBlock = s.outBlock ∧ (deliver st v s).outReg = s.outReg ∧
    (deliver st v s).cfg = s.cfg ∧ (deliver st v s).reqPort = s.reqPort ∧ (deliver st v s).resp = some ⟨st, v⟩ ∧
    (deliver st v s).answers = s.answers ∧ (deliver st v s).draws = s.draws ∧ (deliver st v s).calls = s.calls ∧
    (deliver st v s).npath = s.npath ∧ (deliver st v s).bpath = s.bpath ∧ (deliver st v s).wire = s.wire := by
  and_intros <;> rfl

@[simp] theorem takeRequest_fields (rest : List Byte) (s : State) :
    (takeRequest rest s).cardClass = s.cardClass ∧ (takeRequest rest s).blockAddressing = s.blockAddressing ∧
    (takeRequest rest s).checksumEnabled = s.checksumEnabled ∧ (takeRequest rest s).table = s.table ∧
    (takeRequest rest s).tableBuilt = s.tableBuilt ∧ (takeRequest rest s).nstate = s.nstate ∧
    (takeRequest rest s).bstate = s.bstate ∧ (takeRequest rest s).busy = s.busy ∧
    (takeRequest rest s).csHeld = s.csHeld ∧ (takeRequest rest s).acc7 = s.acc7 ∧
    (takeRequest rest s).reg16 = s.reg16 ∧ (takeRequest rest s).frame = s.frame ∧ (takeRequest rest s).r1 = s.r1 ∧
    (takeRequest rest s).ext = s.ext ∧ (takeRequest rest s).probeLeft = s.probeLeft ∧
    (takeRequest rest s).acmdDone = s.acmdDone ∧ (takeRequest rest s).pollLeft = s.pollLeft ∧
    (takeRequest rest s).cls = s.cls ∧ (takeRequest rest s).voltageAccepted = s.voltageAccepted ∧
    (takeRequest rest s).dbuf = s.dbuf ∧ (takeRequest rest s).rbuf = s.rbuf ∧
    (takeRequest rest s).outBlock = s.outBlock ∧ (takeRequest rest s).outReg = s.outReg ∧
    (takeRequest rest s).cfg = s.cfg ∧ (takeRequest rest s).reqPort = rest ∧ (takeRequest rest s).resp = s.resp ∧
    (takeRequest rest s).answers = s.answers ∧ (takeRequest rest s).draws = s.draws ∧
    (takeRequest rest s).calls = s.calls ∧ (takeRequest rest s).npath = s.npath ∧
    (takeRequest rest s).bpath = s.bpath ∧ (takeRequest rest s).wire = s.wire := by
  and_intros <;> rfl

@[simp] theorem takeWire_fields (s : State) :
    (takeWire s).cardClass = s.cardClass ∧ (takeWire s).blockAddressing = s.blockAddressing ∧
    (takeWire s).checksumEnabled = s.checksumEnabled ∧ (takeWire s).table = s.table ∧
    (takeWire s).tableBuilt = s.tableBuilt ∧ (takeWire s).nstate = s.nstate ∧ (takeWire s).bstate = s.bstate ∧
    (takeWire s).busy = s.busy ∧ (takeWire s).csHeld = s.csHeld ∧ (takeWire s).acc7 = s.acc7 ∧
    (takeWire s).reg16 = s.reg16 ∧ (takeWire s).frame = s.frame ∧ (takeWire s).r1 = s.r1 ∧ (takeWire s).ext = s.ext ∧
    (takeWire s).probeLeft = s.probeLeft ∧ (takeWire s).acmdDone = s.acmdDone ∧ (takeWire s).pollLeft = s.pollLeft ∧
    (takeWire s).cls = s.cls ∧ (takeWire s).voltageAccepted = s.voltageAccepted ∧ (takeWire s).dbuf = s.dbuf ∧
    (takeWire s).rbuf = s.rbuf ∧ (takeWire s).outBlock = s.outBlock ∧ (takeWire s).outReg = s.outReg ∧
    (takeWire s).cfg = s.cfg ∧ (takeWire s).reqPort = s.reqPort ∧ (takeWire s).resp = s.resp ∧
    (takeWire s).answers = s.answers ∧ (takeWire s).draws = s.draws ∧ (takeWire s).calls = s.calls ∧
    (takeWire s).npath = s.npath ∧ (takeWire s).bpath = s.bpath ∧ (takeWire s).wire = none := by
  and_intros <;> rfl

@[simp] theorem loadFrame_fields (index : BitVec 6) (arg : Word) (s : State) :
    (loadFrame index arg s).cardClass = s.cardClass ∧ (loadFrame index arg s).blockAddressing = s.blockAddressing ∧
    (loadFrame index arg s).checksumEnabled = s.checksumEnabled ∧ (loadFrame index arg s).table = s.table ∧
    (loadFrame index arg s).tableBuilt = s.tableBuilt ∧ (loadFrame index arg s).nstate = s.nstate ∧
    (loadFrame index arg s).bstate = s.bstate ∧ (loadFrame index arg s).busy = s.busy ∧
    (loadFrame index arg s).csHeld = s.csHeld ∧
    (loadFrame index arg s).acc7 = crc7OverTable (frameHead index arg) s ∧ (loadFrame index arg s).reg16 = s.reg16 ∧
    (loadFrame index arg s).frame = buildFrame index arg s ∧ (loadFrame index arg s).r1 = s.r1 ∧
    (loadFrame index arg s).ext = s.ext ∧ (loadFrame index arg s).probeLeft = s.probeLeft ∧
    (loadFrame index arg s).acmdDone = s.acmdDone ∧ (loadFrame index arg s).pollLeft = s.pollLeft ∧
    (loadFrame index arg s).cls = s.cls ∧ (loadFrame index arg s).voltageAccepted = s.voltageAccepted ∧
    (loadFrame index arg s).dbuf = s.dbuf ∧ (loadFrame index arg s).rbuf = s.rbuf ∧
    (loadFrame index arg s).outBlock = s.outBlock ∧ (loadFrame index arg s).outReg = s.outReg ∧
    (loadFrame index arg s).cfg = s.cfg ∧ (loadFrame index arg s).reqPort = s.reqPort ∧
    (loadFrame index arg s).resp = s.resp ∧ (loadFrame index arg s).answers = s.answers ∧
    (loadFrame index arg s).draws = s.draws ∧ (loadFrame index arg s).calls = s.calls ∧
    (loadFrame index arg s).npath = s.npath ∧ (loadFrame index arg s).bpath = s.bpath ∧
    (loadFrame index arg s).wire = s.wire := by
  and_intros <;> rfl

@[simp] theorem releaseCs_fields (s : State) :
    (releaseCs s).cardClass = s.cardClass ∧ (releaseCs s).blockAddressing = s.blockAddressing ∧
    (releaseCs s).checksumEnabled = s.checksumEnabled ∧ (releaseCs s).table = s.table ∧
    (releaseCs s).tableBuilt = s.tableBuilt ∧ (releaseCs s).nstate = s.nstate ∧ (releaseCs s).bstate = s.bstate ∧
    (releaseCs s).busy = s.busy ∧ (releaseCs s).csHeld = false ∧ (releaseCs s).acc7 = s.acc7 ∧
    (releaseCs s).reg16 = s.reg16 ∧ (releaseCs s).frame = s.frame ∧ (releaseCs s).r1 = s.r1 ∧
    (releaseCs s).ext = s.ext ∧ (releaseCs s).probeLeft = s.probeLeft ∧ (releaseCs s).acmdDone = s.acmdDone ∧
    (releaseCs s).pollLeft = s.pollLeft ∧ (releaseCs s).cls = s.cls ∧
    (releaseCs s).voltageAccepted = s.voltageAccepted ∧ (releaseCs s).dbuf = s.dbuf ∧ (releaseCs s).rbuf = s.rbuf ∧
    (releaseCs s).outBlock = s.outBlock ∧ (releaseCs s).outReg = s.outReg ∧ (releaseCs s).cfg = s.cfg ∧
    (releaseCs s).reqPort = s.reqPort ∧ (releaseCs s).resp = s.resp ∧ (releaseCs s).answers = s.answers ∧
    (releaseCs s).draws = s.draws ∧ (releaseCs s).calls = (if s.csHeld then s.calls ++ [.deselect] else s.calls) ∧
    (releaseCs s).npath = s.npath ∧ (releaseCs s).bpath = s.bpath ∧ (releaseCs s).wire = s.wire := by
  unfold releaseCs; split <;> simp_all

@[simp] theorem exit_fields (st : Status) (v : Value) (s : State) :
    (exit st v s).cardClass = s.cardClass ∧ (exit st v s).blockAddressing = s.blockAddressing ∧
    (exit st v s).checksumEnabled = s.checksumEnabled ∧ (exit st v s).table = s.table ∧
    (exit st v s).tableBuilt = s.tableBuilt ∧ (exit st v s).nstate = .idle ∧ (exit st v s).bstate = .bIdle ∧
    (exit st v s).busy = false ∧ (exit st v s).csHeld = false ∧ (exit st v s).acc7 = s.acc7 ∧
    (exit st v s).reg16 = s.reg16 ∧ (exit st v s).frame = s.frame ∧ (exit st v s).r1 = s.r1 ∧
    (exit st v s).ext = s.ext ∧ (exit st v s).probeLeft = s.probeLeft ∧ (exit st v s).acmdDone = s.acmdDone ∧
    (exit st v s).pollLeft = s.pollLeft ∧ (exit st v s).cls = s.cls ∧
    (exit st v s).voltageAccepted = s.voltageAccepted ∧ (exit st v s).dbuf = s.dbuf ∧ (exit st v s).rbuf = s.rbuf ∧
    (exit st v s).outBlock = s.outBlock ∧ (exit st v s).outReg = s.outReg ∧ (exit st v s).cfg = s.cfg ∧
    (exit st v s).reqPort = s.reqPort ∧ (exit st v s).resp = some ⟨st, v⟩ ∧ (exit st v s).answers = s.answers ∧
    (exit st v s).draws = s.draws ∧ (exit st v s).calls = (if s.csHeld then s.calls ++ [.deselect] else s.calls) ∧
    (exit st v s).npath = s.npath ∧ (exit st v s).bpath = s.bpath ∧ (exit st v s).wire = s.wire := by
  simp [exit]

@[simp] theorem judgeIfCond_fields (s : State) :
    (judgeIfCond s).cardClass = s.cardClass ∧ (judgeIfCond s).blockAddressing = s.blockAddressing ∧
    (judgeIfCond s).checksumEnabled = s.checksumEnabled ∧ (judgeIfCond s).table = s.table ∧
    (judgeIfCond s).tableBuilt = s.tableBuilt ∧ (judgeIfCond s).nstate = s.nstate ∧
    (judgeIfCond s).bstate = s.bstate ∧ (judgeIfCond s).busy = s.busy ∧ (judgeIfCond s).csHeld = s.csHeld ∧
    (judgeIfCond s).acc7 = s.acc7 ∧ (judgeIfCond s).reg16 = s.reg16 ∧ (judgeIfCond s).frame = s.frame ∧
    (judgeIfCond s).r1 = s.r1 ∧ (judgeIfCond s).ext = s.ext ∧ (judgeIfCond s).probeLeft = s.probeLeft ∧
    (judgeIfCond s).acmdDone = s.acmdDone ∧ (judgeIfCond s).pollLeft = s.pollLeft ∧ (judgeIfCond s).dbuf = s.dbuf ∧
    (judgeIfCond s).rbuf = s.rbuf ∧ (judgeIfCond s).outBlock = s.outBlock ∧ (judgeIfCond s).outReg = s.outReg ∧
    (judgeIfCond s).cfg = s.cfg ∧ (judgeIfCond s).reqPort = s.reqPort ∧ (judgeIfCond s).resp = s.resp ∧
    (judgeIfCond s).answers = s.answers ∧ (judgeIfCond s).draws = s.draws ∧ (judgeIfCond s).calls = s.calls ∧
    (judgeIfCond s).npath = s.npath ∧ (judgeIfCond s).bpath = s.bpath ∧ (judgeIfCond s).wire = s.wire := by
  unfold judgeIfCond; split <;> simp

@[simp] theorem judgeOcr_fields (s : State) :
    (judgeOcr s).cardClass = s.cardClass ∧ (judgeOcr s).blockAddressing = s.blockAddressing ∧
    (judgeOcr s).checksumEnabled = s.checksumEnabled ∧ (judgeOcr s).table = s.table ∧
    (judgeOcr s).tableBuilt = s.tableBuilt ∧ (judgeOcr s).nstate = s.nstate ∧ (judgeOcr s).bstate = s.bstate ∧
    (judgeOcr s).busy = s.busy ∧ (judgeOcr s).csHeld = s.csHeld ∧ (judgeOcr s).acc7 = s.acc7 ∧
    (judgeOcr s).reg16 = s.reg16 ∧ (judgeOcr s).frame = s.frame ∧ (judgeOcr s).r1 = s.r1 ∧ (judgeOcr s).ext = s.ext ∧
    (judgeOcr s).probeLeft = s.probeLeft ∧ (judgeOcr s).acmdDone = s.acmdDone ∧ (judgeOcr s).pollLeft = s.pollLeft ∧
    (judgeOcr s).voltageAccepted = s.voltageAccepted ∧ (judgeOcr s).dbuf = s.dbuf ∧ (judgeOcr s).rbuf = s.rbuf ∧
    (judgeOcr s).outBlock = s.outBlock ∧ (judgeOcr s).outReg = s.outReg ∧ (judgeOcr s).cfg = s.cfg ∧
    (judgeOcr s).reqPort = s.reqPort ∧ (judgeOcr s).resp = s.resp ∧ (judgeOcr s).answers = s.answers ∧
    (judgeOcr s).draws = s.draws ∧ (judgeOcr s).calls = s.calls ∧ (judgeOcr s).npath = s.npath ∧
    (judgeOcr s).bpath = s.bpath ∧ (judgeOcr s).wire = s.wire := by
  unfold judgeOcr; split <;> simp

@[simp] theorem takeToken_fields (s : State) :
    (takeToken s).cardClass = s.cardClass ∧ (takeToken s).blockAddressing = s.blockAddressing ∧
    (takeToken s).checksumEnabled = s.checksumEnabled ∧ (takeToken s).table = s.table ∧
    (takeToken s).tableBuilt = s.tableBuilt ∧ (takeToken s).nstate = s.nstate ∧
    (takeToken s).bstate = (if s.bstate = .bToken then .bData else s.bstate) ∧ (takeToken s).busy = s.busy ∧
    (takeToken s).csHeld = s.csHeld ∧ (takeToken s).acc7 = s.acc7 ∧ (takeToken s).reg16 = s.reg16 ∧
    (takeToken s).frame = s.frame ∧ (takeToken s).r1 = s.r1 ∧ (takeToken s).ext = s.ext ∧
    (takeToken s).probeLeft = s.probeLeft ∧ (takeToken s).acmdDone = s.acmdDone ∧
    (takeToken s).pollLeft = s.pollLeft ∧ (takeToken s).cls = s.cls ∧
    (takeToken s).voltageAccepted = s.voltageAccepted ∧ (takeToken s).dbuf = s.dbuf ∧ (takeToken s).rbuf = s.rbuf ∧
    (takeToken s).outBlock = s.outBlock ∧ (takeToken s).outReg = s.outReg ∧ (takeToken s).cfg = s.cfg ∧
    (takeToken s).reqPort = s.reqPort ∧ (takeToken s).resp = s.resp ∧ (takeToken s).answers = s.answers ∧
    (takeToken s).draws = s.draws ∧ (takeToken s).calls = s.calls ∧ (takeToken s).npath = s.npath ∧
    (takeToken s).wire = s.wire := by
  unfold takeToken; split <;> simp_all

@[simp] theorem storeBuffer_fields (t : Transfer) (bs : List Byte) (s : State) :
    (storeBuffer t bs s).cardClass = s.cardClass ∧ (storeBuffer t bs s).blockAddressing = s.blockAddressing ∧
    (storeBuffer t bs s).checksumEnabled = s.checksumEnabled ∧ (storeBuffer t bs s).table = s.table ∧
    (storeBuffer t bs s).tableBuilt = s.tableBuilt ∧ (storeBuffer t bs s).nstate = s.nstate ∧
    (storeBuffer t bs s).bstate = s.bstate ∧ (storeBuffer t bs s).busy = s.busy ∧
    (storeBuffer t bs s).csHeld = s.csHeld ∧ (storeBuffer t bs s).acc7 = s.acc7 ∧
    (storeBuffer t bs s).reg16 = s.reg16 ∧ (storeBuffer t bs s).frame = s.frame ∧ (storeBuffer t bs s).r1 = s.r1 ∧
    (storeBuffer t bs s).ext = s.ext ∧ (storeBuffer t bs s).probeLeft = s.probeLeft ∧
    (storeBuffer t bs s).acmdDone = s.acmdDone ∧ (storeBuffer t bs s).pollLeft = s.pollLeft ∧
    (storeBuffer t bs s).cls = s.cls ∧ (storeBuffer t bs s).voltageAccepted = s.voltageAccepted ∧
    (storeBuffer t bs s).outBlock = s.outBlock ∧ (storeBuffer t bs s).outReg = s.outReg ∧
    (storeBuffer t bs s).cfg = s.cfg ∧ (storeBuffer t bs s).reqPort = s.reqPort ∧
    (storeBuffer t bs s).resp = s.resp ∧ (storeBuffer t bs s).answers = s.answers ∧
    (storeBuffer t bs s).draws = s.draws ∧ (storeBuffer t bs s).calls = s.calls ∧
    (storeBuffer t bs s).npath = s.npath ∧ (storeBuffer t bs s).bpath = s.bpath ∧ (storeBuffer t bs s).wire = s.wire := by
  cases t <;> simp [storeBuffer]

@[simp] theorem deliverPayload_fields (t : Transfer) (bs : List Byte) (s : State) :
    (deliverPayload t bs s).cardClass = s.cardClass ∧ (deliverPayload t bs s).blockAddressing = s.blockAddressing ∧
    (deliverPayload t bs s).checksumEnabled = s.checksumEnabled ∧ (deliverPayload t bs s).table = s.table ∧
    (deliverPayload t bs s).tableBuilt = s.tableBuilt ∧ (deliverPayload t bs s).nstate = s.nstate ∧
    (deliverPayload t bs s).bstate = s.bstate ∧ (deliverPayload t bs s).busy = s.busy ∧
    (deliverPayload t bs s).csHeld = s.csHeld ∧ (deliverPayload t bs s).acc7 = s.acc7 ∧
    (deliverPayload t bs s).reg16 = s.reg16 ∧ (deliverPayload t bs s).frame = s.frame ∧
    (deliverPayload t bs s).r1 = s.r1 ∧ (deliverPayload t bs s).ext = s.ext ∧
    (deliverPayload t bs s).probeLeft = s.probeLeft ∧ (deliverPayload t bs s).acmdDone = s.acmdDone ∧
    (deliverPayload t bs s).pollLeft = s.pollLeft ∧ (deliverPayload t bs s).cls = s.cls ∧
    (deliverPayload t bs s).voltageAccepted = s.voltageAccepted ∧ (deliverPayload t bs s).dbuf = s.dbuf ∧
    (deliverPayload t bs s).rbuf = s.rbuf ∧ (deliverPayload t bs s).cfg = s.cfg ∧
    (deliverPayload t bs s).reqPort = s.reqPort ∧ (deliverPayload t bs s).resp = s.resp ∧
    (deliverPayload t bs s).answers = s.answers ∧ (deliverPayload t bs s).draws = s.draws ∧
    (deliverPayload t bs s).calls = s.calls ∧ (deliverPayload t bs s).npath = s.npath ∧
    (deliverPayload t bs s).bpath = s.bpath ∧ (deliverPayload t bs s).wire = s.wire := by
  cases t <;> simp [deliverPayload]

end Sys2Proof.Machine
end

