-- ==== Sys2Proof/Laws/Memory.lean ====
section
/-! SUPPORT. Reading back what was written, and the canonical form of every storage CORE writes. -/

namespace Sys2Proof.Machine

theorem Memory.read_cells (bs : List Byte) (a i : Nat) :
    Memory.read (Memory.cells a bs) i = if i < a then 0 else bs.getD (i - a) 0 := by
  induction bs generalizing a with
  | nil => simp [Memory.cells, Memory.read]
  | cons b bs ih =>
    by_cases hb : b = 0
    · simp only [Memory.cells, hb, if_true, ih]
      rcases Nat.lt_trichotomy i a with h | h | h
      · simp [h, Nat.lt_succ_of_lt h]
      · simp [h]
      · obtain ⟨d, rfl⟩ := Nat.exists_eq_add_of_lt h
        have e : a + d + 1 - a = d + 1 := by omega
        have e' : a + d + 1 - (a + 1) = d := by omega
        simp [e, e', show ¬ a + d + 1 < a + 1 by omega, show ¬ a + d + 1 < a by omega]
    · simp only [Memory.cells, hb, if_false, Memory.read, ih]
      rcases Nat.lt_trichotomy i a with h | h | h
      · simp [h, Nat.ne_of_lt h, Nat.lt_succ_of_lt h]
      · simp [h]
      · obtain ⟨d, rfl⟩ := Nat.exists_eq_add_of_lt h
        have e : a + d + 1 - a = d + 1 := by omega
        have e' : a + d + 1 - (a + 1) = d := by omega
        simp [e, e', show ¬ a + d + 1 < a + 1 by omega, show ¬ a + d + 1 < a by omega,
          show ¬ a + d + 1 = a by omega]

/-- What a space written whole reads as. -/
@[simp] theorem Memory.read_ofBytes (bs : List Byte) (i : Nat) :
    Memory.read (Memory.ofBytes bs) i = bs.getD i 0 := by
  simp [Memory.ofBytes, Memory.read_cells]

theorem Memory.wfFrom_weaken {size lo lo' : Nat} {m : Memory} (h : lo' ≤ lo)
    (hm : Memory.wfFrom size lo m = true) : Memory.wfFrom size lo' m = true := by
  cases m with
  | nil => rfl
  | cons c m =>
    obtain ⟨k, b⟩ := c
    simp only [Memory.wfFrom, Bool.and_eq_true, decide_eq_true_eq] at hm ⊢
    exact ⟨⟨⟨h.trans hm.1.1.1, hm.1.1.2⟩, hm.1.2⟩, hm.2⟩

theorem Memory.cells_wf {size : Nat} (bs : List Byte) (a : Nat) (h : a + bs.length ≤ size) :
    Memory.wfFrom size a (Memory.cells a bs) = true := by
  induction bs generalizing a with
  | nil => rfl
  | cons b bs ih =>
    simp only [List.length_cons] at h
    have ih' := ih (a + 1) (by omega)
    by_cases hb : b = 0
    · simp only [Memory.cells, hb, if_true]
      exact Memory.wfFrom_weaken (Nat.le_succ a) ih'
    · simp only [Memory.cells, hb, if_false, Memory.wfFrom, ih', Bool.and_true, Bool.and_eq_true, decide_eq_true_eq,
        le_refl, true_and]
      exact ⟨by omega, by simpa using hb⟩

/-- Writing a space whole gives its canonical form. -/
theorem Memory.ofBytes_wf {size : Nat} {bs : List Byte} (h : bs.length ≤ size) :
    Memory.wf size (Memory.ofBytes bs) = true := Memory.cells_wf bs 0 (by omega)

theorem Memory.read_below {size lo i : Nat} {m : Memory} (hm : Memory.wfFrom size lo m = true) (h : i < lo) :
    Memory.read m i = 0 := by
  induction m generalizing lo with
  | nil => rfl
  | cons c m ih =>
    obtain ⟨k, b⟩ := c
    simp only [Memory.wfFrom, Bool.and_eq_true, decide_eq_true_eq] at hm
    rw [Memory.read, if_neg (by omega)]
    exact ih hm.2 (by omega)

/-- Canonical storages that read the same are the same data. -/
theorem Memory.wf_ext {size lo : Nat} {m m' : Memory} (hm : Memory.wfFrom size lo m = true)
    (hm' : Memory.wfFrom size lo m' = true) (h : ∀ i, Memory.read m i = Memory.read m' i) : m = m' := by
  induction m generalizing lo m' with
  | nil =>
    cases m' with
    | nil => rfl
    | cons c m' =>
      obtain ⟨k, b⟩ := c
      simp only [Memory.wfFrom, Bool.and_eq_true, decide_eq_true_eq] at hm'
      have := h k
      simp only [Memory.read, if_true] at this
      simp [← this] at hm'
  | cons c m ih =>
    obtain ⟨k, b⟩ := c
    have hmk := hm
    simp only [Memory.wfFrom, Bool.and_eq_true, decide_eq_true_eq] at hm
    have hb : b ≠ 0 := by simpa using hm.1.2
    cases m' with
    | nil =>
      have := h k
      simp only [Memory.read, if_true] at this
      exact absurd this hb
    | cons c' m' =>
      obtain ⟨k', b'⟩ := c'
      simp only [Memory.wfFrom, Bool.and_eq_true, decide_eq_true_eq] at hm'
      have hb' : b' ≠ 0 := by simpa using hm'.1.2
      have hk : k = k' := by
        rcases Nat.lt_trichotomy k k' with hlt | heq | hlt
        · have := h k
          rw [Memory.read, if_pos rfl, Memory.read, if_neg (by omega), Memory.read_below hm'.2 (by omega)] at this
          exact absurd this hb
        · exact heq
        · have := h k'
          rw [Memory.read, if_neg (by omega), Memory.read_below hm.2 (by omega), Memory.read, if_pos rfl] at this
          exact absurd this.symm hb'
      subst hk
      have hbb : b = b' := by simpa [Memory.read] using h k
      subst hbb
      congr 1
      refine ih hm.2 hm'.2 fun i => ?_
      by_cases hi : i = k
      · subst hi; rw [Memory.read_below hm.2 (by omega), Memory.read_below hm'.2 (by omega)]
      · simpa [Memory.read, hi] using h i

/-- The built table is canonical and holds the entries of R111. -/
theorem builtTable_wf : Memory.wf Config.tableLen builtTable = true :=
  Memory.ofBytes_wf (by simp [tableBytesOfSpec])

theorem builtTable_read (i : Byte) : Memory.read builtTable i.toNat = tableEntry i := by
  have h : i.toNat < 256 := i.isLt
  simp [builtTable, tableBytesOfSpec, Config.tableLen, List.getD_eq_getElem?_getD, h]

end Sys2Proof.Machine
end

