-- ==== Sys2Proof/Laws/Proc.lean ====
section
/-! SUPPORT. Reasoning over internal procedures: sequencing, and properties of the state that every procedure of a kind keeps. -/

namespace Sys2Proof.Machine

variable {α β : Type}

@[simp] theorem Proc.done_andThen (a : α) (s : State) (f : α → State → Proc β) : (Proc.done a s).andThen f = f a s := rfl

@[simp] theorem Proc.raised_andThen (e : Status) (s : State) (f : α → State → Proc β) :
    (Proc.raised e s).andThen f = Proc.raised e s := rfl

theorem Proc.andThen_assoc {γ : Type} (p : Proc α) (f : α → State → Proc β) (g : β → State → Proc γ) :
    (p.andThen f).andThen g = p.andThen fun a s => (f a s).andThen g := by cases p <;> rfl

/-- Every way a procedure ends: `Q` when it returns, `E` when it raises. -/
def Proc.Sat (Q : α → State → Prop) (E : Status → State → Prop) : Proc α → Prop
  | .done a s => Q a s
  | .raised e s => E e s

@[simp] theorem Proc.sat_done (Q : α → State → Prop) (E : Status → State → Prop) (a : α) (s : State) :
    (Proc.done a s).Sat Q E ↔ Q a s := Iff.rfl

@[simp] theorem Proc.sat_raised (Q : α → State → Prop) (E : Status → State → Prop) (e : Status) (s : State) :
    (Proc.raised e s : Proc α).Sat Q E ↔ E e s := Iff.rfl

/-- The rule of sequencing. -/
theorem Proc.Sat.andThen {Q : α → State → Prop} {R : β → State → Prop} {E : Status → State → Prop} {p : Proc α}
    {f : α → State → Proc β} (hp : p.Sat Q E) (hf : ∀ a s, Q a s → (f a s).Sat R E) : (p.andThen f).Sat R E := by
  cases p with
  | done a s => exact hf a s hp
  | raised e s => exact hp

theorem Proc.Sat.imp {Q Q' : α → State → Prop} {E E' : Status → State → Prop} {p : Proc α} (hp : p.Sat Q E)
    (hq : ∀ a s, Q a s → Q' a s) (he : ∀ e s, E e s → E' e s) : p.Sat Q' E' := by
  cases p with
  | done a s => exact hq a s hp
  | raised e s => exact he e s hp

theorem Proc.Sat.and {Q Q' : α → State → Prop} {E E' : Status → State → Prop} {p : Proc α} (h : p.Sat Q E)
    (h' : p.Sat Q' E') : p.Sat (fun a s => Q a s ∧ Q' a s) (fun e s => E e s ∧ E' e s) := by
  cases p with
  | done a s => exact ⟨h, h'⟩
  | raised e s => exact ⟨h, h'⟩

/-- The state a procedure ends in, either way, has `P`. -/
abbrev Proc.All (P : State → Prop) (p : Proc α) : Prop := p.Sat (fun _ => P) (fun _ => P)

/-- The calls a command exchange or a read transaction makes between select and deselect (R252). -/
def HeldCall (c : Config) (call : Call) : Prop :=
  call = .xbyte 0xFF c.tByte ∨ (∃ bytes, bytes.length = 6 ∧ call = .send bytes c.tBuf) ∨ call = .recv 4 c.tBuf ∨
    call = .recv 514 c.tBuf ∨ call = .recv 18 c.tBuf

/-- Properties kept while chip-select is held: `P` under every call and every register an exchange writes (R26, R29, R30), with
parameters `c₀`; `E` is what an error leaves. -/
structure HeldStable (c₀ : Config) (P : State → Prop) (E : Status → State → Prop) : Prop where
  cfg : ∀ s, P s → s.cfg = c₀
  call : ∀ c n s, HeldCall c₀ c → P s → (tCall c n s).Sat (fun _ => P) E
  fail : ∀ e s, P s → E e s
  pollLeft : ∀ n s, n ≤ max c₀.nR1Poll c₀.nTokenPoll → P s → P (setPollLeft n s)
  r1 : ∀ b s, P s → P (setR1 b s)
  ext : ∀ e s, P s → P (setExt e s)
  frame : ∀ f s, P s → P (setFrame f s)
  acc7 : ∀ v s, P s → P (setAcc7 v s)

/-- Properties kept by command exchanges: `F` between two holds, `P` inside one. -/
structure ExchangeStable (c₀ : Config) (F P : State → Prop) (E : Status → State → Prop) : Prop extends HeldStable c₀ P E where
  select : ∀ s, F s → P (tSelect s)
  deselect : ∀ s, P s → F (tDeselect s)
  failFree : ∀ e s, F s → E e s

/-- Properties kept by a read transaction. -/
structure ReadStable (c₀ : Config) (F P : State → Prop) (E : Status → State → Prop) : Prop extends
    ExchangeStable c₀ F P E where
  command : ∀ s, F s → F (enterB .bCommand s)
  enterB : ∀ b s, P s → P (enterB b s)
  endRead : ∀ s, F s → F (endRead s)
  dbuf : ∀ bs s, bs.length = 514 → P s → P (setDbuf bs s)
  rbuf : ∀ bs s, bs.length = 18 → P s → P (setRbuf bs s)
  reg16 : ∀ v s, P s → P (setReg16 v s)
  outBlock : ∀ bs s, bs.length ≤ 512 → P s → P (setOutBlock bs s)
  outReg : ∀ bs s, bs.length ≤ 16 → P s → P (setOutReg bs s)

/-- Properties kept by the states of NEGOTIATE up to the commit. -/
structure NegotiateStable (c₀ : Config) (F P : State → Prop) (E : Status → State → Prop) : Prop extends
    ExchangeStable c₀ F P E where
  enterN : ∀ n s, F s → F (enterN n s)
  cls : ∀ c s, F s → F (setCls c s)
  voltage : ∀ v s, F s → F (setVoltage v s)
  probeLeft : ∀ n s, n ≤ 3 → F s → F (setProbeLeft n s)
  acmdDone : ∀ n s, n ≤ 20 → F s → F (setAcmdDone n s)

/-- A call keeps what logging it and consuming its answer keep. -/
theorem tCall_all {P : State → Prop} {c : Call} (hc : ∀ s, P s → P (logCall c s)) (ha : ∀ s, P s → P (consumeAnswer s))
    (n : Nat) {s : State} (hs : P s) : (tCall c n s).All P := by
  unfold tCall
  split
  · exact ha _ (hc _ hs)
  · exact ha _ (hc _ hs)

theorem fitBytes_length (k n i : Nat) (bs : List Byte) : (fitBytes k n i bs).length = n := by
  induction n generalizing i bs with
  | zero => rfl
  | succ n ih => cases bs <;> simp [fitBytes, ih]

/-- The bytes of an answered call are as many as asked for. -/
theorem tCall_sat_length (c : Call) (n : Nat) (s : State) :
    (tCall c n s).Sat (fun bs _ => bs.length = n) (fun e _ => e = .timeout) := by
  unfold tCall nextAnswer
  rcases s.answers with _ | ⟨_ | bs, rest⟩
  · by_cases h : Config.freeFails s.draws = true <;> simp [h, fitBytes_length]
  · rfl
  · simp [fitBytes_length]

section Held

variable {c₀ : Config} {P : State → Prop} {E : Status → State → Prop}

theorem tXbyte_sat (h : HeldStable c₀ P E) {s : State} (hs : P s) : (tXbyte s).Sat (fun _ => P) E := by
  unfold tXbyte
  rw [h.cfg _ hs]
  exact (h.call _ _ _ (.inl rfl) hs).andThen fun _ _ h => h

theorem loadFrame_stable (h : HeldStable c₀ P E) (i : BitVec 6) (a : Word) {s : State} (hs : P s) : P (loadFrame i a s) :=
  h.frame _ _ (h.acc7 _ _ hs)

theorem sendFrame_sat (h : HeldStable c₀ P E) (i : BitVec 6) (a : Word) {s : State} (hs : P s) :
    (sendFrame i a s).Sat (fun _ => P) E := by
  unfold sendFrame tSend
  rw [h.cfg _ (loadFrame_stable h i a hs)]
  exact (h.call _ _ _ (.inr (.inl ⟨_, rfl, rfl⟩)) (loadFrame_stable h i a hs)).andThen fun _ _ h => h

theorem tRecv_sat (h : HeldStable c₀ P E) {n : Nat} (hn : n = 4 ∨ n = 514 ∨ n = 18) {s : State} (hs : P s) :
    (tRecv n s).Sat (fun bs t => bs.length = n ∧ P t) E := by
  unfold tRecv
  rw [h.cfg _ hs]
  have hc : HeldCall c₀ (.recv n c₀.tBuf) := by
    rcases hn with rfl | rfl | rfl
    · exact .inr (.inr (.inl rfl))
    · exact .inr (.inr (.inr (.inl rfl)))
    · exact .inr (.inr (.inr (.inr rfl)))
  exact ((tCall_sat_length _ n s).and (h.call _ n _ hc hs)).imp (fun _ _ h => h) (fun _ _ h => h.2)

theorem pollR1_sat (h : HeldStable c₀ P E) {n : Nat} (hn : n ≤ c₀.nR1Poll) {s : State} (hs : P s) :
    (pollR1 n s).Sat (fun _ => P) E := by
  induction n generalizing s with
  | zero => exact h.fail _ _ (h.pollLeft _ _ (Nat.zero_le _) hs)
  | succ n ih =>
    refine (tXbyte_sat h (h.pollLeft _ _ (le_max_of_le_left hn) hs)).andThen fun b s hs => ?_
    split
    · exact ih (by omega) hs
    · exact h.r1 _ _ hs

theorem waitR1_sat (h : HeldStable c₀ P E) {s : State} (hs : P s) : (waitR1 s).Sat (fun _ => P) E :=
  pollR1_sat h (by rw [h.cfg _ hs]) hs

theorem readExt_sat (h : HeldStable c₀ P E) {s : State} (hs : P s) : (readExt s).Sat (fun _ => P) E :=
  (tRecv_sat h (.inl rfl) hs).andThen fun _ _ hs => h.ext _ _ hs.2

end Held

section Exchange

variable {c₀ : Config} {F P : State → Prop} {E : Status → State → Prop}

theorem xchgShort_sat (h : ExchangeStable c₀ F P E) (i : BitVec 6) (a : Word) {s : State} (hs : F s) :
    (xchgShort i a s).Sat (fun _ => F) E :=
  (sendFrame_sat h.toHeldStable i a (h.select _ hs)).andThen fun _ _ hs =>
    (waitR1_sat h.toHeldStable hs).andThen fun _ _ hs => h.deselect _ hs

theorem xchgLong_sat (h : ExchangeStable c₀ F P E) (i : BitVec 6) (a : Word) (w : Byte → Bool) {s : State} (hs : F s) :
    (xchgLong i a w s).Sat (fun _ => F) E :=
  (sendFrame_sat h.toHeldStable i a (h.select _ hs)).andThen fun _ _ hs =>
    (waitR1_sat h.toHeldStable hs).andThen fun b _ hs => by
      split
      · exact (readExt_sat h.toHeldStable hs).andThen fun _ _ hs => h.deselect _ hs
      · exact h.deselect _ hs

/-- An exchange does not touch the iteration counter. -/
theorem acmdDone_stable (c₀ : Config) (k : Nat) :
    ExchangeStable c₀ (fun s => s.acmdDone = k ∧ s.cfg = c₀) (fun s => s.acmdDone = k ∧ s.cfg = c₀) (fun _ _ => True) where
  cfg := fun _ h => h.2
  call := fun _ n _ _ h => (tCall_all (P := fun s => s.acmdDone = k ∧ s.cfg = c₀) (fun _ h => h) (fun _ h => h) n h).imp
    (fun _ _ h => h) (fun _ _ _ => trivial)
  fail := fun _ _ _ => trivial
  pollLeft := fun _ _ _ h => h
  r1 := fun _ _ h => h
  ext := fun _ _ h => h
  frame := fun _ _ h => h
  acc7 := fun _ _ h => h
  select := fun _ h => h
  deselect := fun _ h => h
  failFree := fun _ _ _ => trivial

end Exchange

section Read

variable {c₀ : Config} {F P : State → Prop} {E : Status → State → Prop}

theorem pollToken_sat (h : ReadStable c₀ F P E) {n : Nat} (hn : n ≤ c₀.nTokenPoll) {s : State} (hs : P s) :
    (pollToken n s).Sat (fun _ => P) E := by
  induction n generalizing s with
  | zero => exact h.fail _ _ (h.pollLeft _ _ (Nat.zero_le _) hs)
  | succ n ih =>
    refine (tXbyte_sat h.toHeldStable (h.pollLeft _ _ (le_max_of_le_right hn) hs)).andThen fun b s hs => ?_
    split
    · show P (takeToken s)
      unfold takeToken
      split
      · exact h.enterB _ _ hs
      · exact hs
    · exact ih (by omega) hs

theorem take_payload_length (t : Transfer) (buf : List Byte) : (buf.take (payloadLen t)).length ≤ payloadLen t := by
  rw [List.length_take]
  exact Nat.min_le_left _ _

theorem readData_sat (h : ReadStable c₀ F P E) (i : BitVec 6) (a : Word) (t : Transfer) (c : Bool) {s : State} (hs : F s) :
    (readData i a t c s).Sat (fun bs t' => bs.length ≤ payloadLen t ∧ F t') E := by
  refine Proc.Sat.andThen (Q := fun _ => P) ?_ fun _ s hs => Proc.Sat.andThen (Q := fun _ => P) ?_ fun _ s hs =>
    Proc.Sat.andThen (Q := fun _ => P) ?_ fun buf s hs =>
      Proc.Sat.andThen (Q := fun bs t' => bs.length ≤ payloadLen t ∧ P t') ?_ fun _ s hs => ?_
  · refine (sendFrame_sat h.toHeldStable i a (h.select _ (h.command _ hs))).andThen fun _ s hs => ?_
    refine (waitR1_sat h.toHeldStable hs).andThen fun b s hs => ?_
    split
    · exact hs
    · exact h.fail _ _ hs
  · have hb := h.enterB .bToken _ hs
    exact pollToken_sat h (by rw [h.cfg _ hs]) hb
  · cases t
    · exact (tRecv_sat h.toHeldStable (.inr (.inl rfl)) hs).andThen fun buf s hs => h.dbuf _ _ hs.1 hs.2
    · exact (tRecv_sat h.toHeldStable (.inr (.inr rfl)) hs).andThen fun buf s hs => h.rbuf _ _ hs.1 hs.2
  · unfold checkData validate
    have hb := h.enterB .bCheck _ hs
    have hl := take_payload_length t buf
    split
    · split
      · exact ⟨hl, h.reg16 _ _ hb⟩
      · cases t
        · exact h.fail _ _ (h.outBlock _ _ hl (h.reg16 _ _ hb))
        · exact h.fail _ _ (h.outReg _ _ hl (h.reg16 _ _ hb))
    · exact ⟨hl, hb⟩
  · exact ⟨hs.1, h.endRead _ (h.deselect _ hs.2)⟩

end Read

section Negotiate

variable {c₀ : Config} {F P : State → Prop} {E : Status → State → Prop}

theorem judgeIfCond_stable (h : NegotiateStable c₀ F P E) {s : State} (hs : F s) : F (judgeIfCond s) := by
  unfold judgeIfCond
  split
  · exact h.voltage _ _ (h.cls _ _ hs)
  · exact hs

theorem judgeOcr_stable (h : NegotiateStable c₀ F P E) {s : State} (hs : F s) : F (judgeOcr s) := by
  unfold judgeOcr
  split
  · exact h.cls _ _ hs
  · exact hs

theorem probeLoop_sat (h : NegotiateStable c₀ F P E) {n : Nat} (hn : n ≤ 3) {s : State} (hs : F s) :
    (probeLoop n s).Sat (fun _ => F) E := by
  induction n generalizing s with
  | zero => exact h.failFree _ _ hs
  | succ n ih =>
    refine (xchgLong_sat h.toExchangeStable _ _ _ hs).andThen fun b s hs => ?_
    split
    · exact h.cls _ _ hs
    · split
      · exact judgeIfCond_stable h hs
      · exact ih (by omega) (h.probeLeft _ _ (by omega) hs)

theorem acmdLoop_sat (h : NegotiateStable c₀ F P E) {n k : Nat} (a : Word) (hn : k + n ≤ 20) {s : State} (hs : F s)
    (hk : s.acmdDone = k ∧ s.cfg = c₀) : (acmdLoop n a s).Sat (fun _ => F) E := by
  induction n generalizing s k with
  | zero => exact h.failFree _ _ hs
  | succ n ih =>
    refine ((xchgShort_sat h.toExchangeStable _ _ hs).and (xchgShort_sat (acmdDone_stable c₀ k) _ _ hk)).imp
      (fun _ _ h => h) (fun _ _ h => h.1) |>.andThen fun _ s hs => ?_
    refine ((xchgShort_sat h.toExchangeStable _ _ hs.1).and (xchgShort_sat (acmdDone_stable c₀ k) _ _ hs.2)).imp
      (fun _ _ h => h) (fun _ _ h => h.1) |>.andThen fun b s hs => ?_
    obtain ⟨hs, hk, hc⟩ := hs
    have hF := h.acmdDone (s.acmdDone + 1) s (by omega) hs
    split
    · exact ih (k := k + 1) (by omega) hF ⟨by simp [hk], by simpa using hc⟩
    · exact hF

theorem resetIdle_sat (h : NegotiateStable c₀ F P E) {s : State} (hs : F s) : (resetIdle s).Sat (fun _ => F) E :=
  (xchgShort_sat h.toExchangeStable _ _ (h.enterN _ _ (h.enterN _ _ hs))).andThen fun _ _ h => h

theorem probeInterface_sat (h : NegotiateStable c₀ F P E) {s : State} (hs : F s) :
    (probeInterface s).Sat (fun _ => F) E :=
  probeLoop_sat h (Nat.le_refl 3) (h.probeLeft _ _ (Nat.le_refl 3) (h.enterN _ _ hs))

theorem readOcrInitial_sat (h : NegotiateStable c₀ F P E) {s : State} (hs : F s) :
    (readOcrInitial s).Sat (fun _ => F) E := by
  unfold readOcrInitial
  split
  · exact hs
  · exact (xchgLong_sat h.toExchangeStable _ _ _ (h.enterN _ _ hs)).andThen fun _ _ hs => judgeOcr_stable h hs

theorem acmdInitLoop_sat (h : NegotiateStable c₀ F P E) {s : State} (hs : F s) : (acmdInitLoop s).Sat (fun _ => F) E := by
  have hF := h.acmdDone 0 _ (by omega) (h.enterN .acmdInitLoop _ hs)
  exact acmdLoop_sat h _ (Nat.le_refl 20) hF ⟨rfl, by simpa using h.cfg _ (h.select _ hF)⟩

theorem readOcrFinal_sat (h : NegotiateStable c₀ F P E) {s : State} (hs : F s) : (readOcrFinal s).Sat (fun _ => F) E := by
  unfold readOcrFinal
  split
  · exact hs
  · exact (xchgLong_sat h.toExchangeStable _ _ _ (h.enterN _ _ hs)).andThen fun _ _ hs => judgeOcr_stable h hs

/-- NEGOTIATE's states up to `Ready` keep `F`; when they all return, the machine is about to commit (R186). -/
theorem negotiationStates_sat (h : NegotiateStable c₀ F P E) {s : State} (hs : F s) :
    (negotiationStates s).Sat (fun v t => ∃ u, F u ∧ v = .cardClass u.cls ∧ t = commitSession u.cls u) E := by
  refine (resetIdle_sat h hs).andThen fun _ s hs => (probeInterface_sat h hs).andThen fun _ s hs =>
    (readOcrInitial_sat h hs).andThen fun _ s hs => (acmdInitLoop_sat h hs).andThen fun _ s hs =>
    (readOcrFinal_sat h hs).andThen fun _ s hs => ⟨enterN .ready s, h.enterN _ _ hs, ?_, ?_⟩
  · simp
  · simp

end Negotiate

end Sys2Proof.Machine
end

