-- ==== Sys2Proof/Laws/Checksum.lean ====
section
/-! SUPPORT. The Checksum Unit's functions: both are linear over GF(2) (R110, R111), the table form of the command checksum is the
bitwise form (R114), and the data checksum's register map is a bijection for every byte (R117). -/

namespace Sys2Proof.Machine

theorem xor_cancel_right {n : Nat} (a b p : BitVec n) : a ^^^ p ^^^ (b ^^^ p) = a ^^^ b := by
  ext i hi
  simp only [BitVec.getElem_xor]
  cases a[i] <;> cases b[i] <;> cases p[i] <;> rfl

theorem reduceTop_xor (a b : Byte) : reduceTop (a ^^^ b) = reduceTop a ^^^ reduceTop b := by
  unfold reduceTop
  rw [BitVec.getLsbD_xor]
  cases a.getLsbD 7 <;> cases b.getLsbD 7 <;> simp [xor_cancel_right] <;> ac_rfl

theorem shiftReduce_xor (n : Nat) (a b : Byte) : shiftReduce n (a ^^^ b) = shiftReduce n a ^^^ shiftReduce n b := by
  induction n generalizing a b with
  | zero => rfl
  | succ n ih => simp only [shiftReduce, BitVec.shiftLeft_xor_distrib, reduceTop_xor, ih]

/-- "the map is linear" (R111). -/
theorem tableEntry_xor (a b : Byte) : tableEntry (a ^^^ b) = tableEntry a ^^^ tableEntry b := by
  simp only [tableEntry, reduceTop_xor, shiftReduce_xor]

theorem crc7Bit_xor (c d : BitVec 7) (x y : Bool) : crc7Bit (c ^^^ d) (x ^^ y) = crc7Bit c x ^^^ crc7Bit d y := by
  unfold crc7Bit
  rw [BitVec.getLsbD_xor, BitVec.shiftLeft_xor_distrib]
  cases c.getLsbD 6 <;> cases d.getLsbD 6 <;> cases x <;> cases y <;> simp [xor_cancel_right] <;> ac_rfl

theorem crc7Byte_xor (c d : BitVec 7) (a b : Byte) : crc7Byte (c ^^^ d) (a ^^^ b) = crc7Byte c a ^^^ crc7Byte d b := by
  simp only [crc7Byte, List.foldl_cons, List.foldl_nil, BitVec.getLsbD_xor, crc7Bit_xor]

theorem crc7Byte_zero : ∀ b : Byte, crc7Byte 0 b = (tableEntry b).setWidth 7 := by decide +kernel

theorem crc7Byte_of_zero : ∀ c : BitVec 7, crc7Byte c 0 = (tableEntry (c.setWidth 8 <<< 1)).setWidth 7 := by decide +kernel

/-- One byte of the bitwise form is one table step (R113, R114). -/
theorem crc7Byte_eq_table (c : BitVec 7) (b : Byte) : crc7Byte c b = (tableEntry (crc7Index c b)).setWidth 7 := by
  have h : crc7Byte c b = crc7Byte c 0 ^^^ crc7Byte 0 b := by
    rw [← crc7Byte_xor]
    simp
  rw [h, crc7Byte_zero, crc7Byte_of_zero, ← BitVec.setWidth_xor, ← tableEntry_xor, crc7Index]

/-- The table form over the built table equals the bitwise form (R114). -/
theorem crc7Over_builtTable (msg : List Byte) : crc7Over (Memory.read builtTable) msg = crc7Bits msg := by
  simp only [crc7Over, crc7Bits, builtTable_read, ← crc7Byte_eq_table]

/-- The frame built from the built table carries the checksum of R132. -/
theorem buildFrame_built {s : State} (h : s.table = builtTable) (index : BitVec 6) (arg : Word) :
    buildFrame index arg s = packFrame index arg (frameChecksum index arg) := by
  simp only [buildFrame, crc7OverTable, h, crc7Over_builtTable, frameChecksum]

theorem crc16Bit_xor (r q : BitVec 16) (x y : Bool) : crc16Bit (r ^^^ q) (x ^^ y) = crc16Bit r x ^^^ crc16Bit q y := by
  unfold crc16Bit
  rw [BitVec.getLsbD_xor, BitVec.ushiftRight_xor_distrib]
  cases r.getLsbD 0 <;> cases q.getLsbD 0 <;> cases x <;> cases y <;> simp [xor_cancel_right] <;> ac_rfl

theorem crc16Steps_xor (n : Nat) (r q : BitVec 16) (a b : Byte) :
    crc16Steps n (r ^^^ q) (a ^^^ b) = crc16Steps n r a ^^^ crc16Steps n q b := by
  induction n generalizing r q a b with
  | zero => rfl
  | succ n ih => simp only [crc16Steps, BitVec.getLsbD_xor, crc16Bit_xor, BitVec.ushiftRight_xor_distrib, ih]

theorem crc16Bit_eq_zero {r : BitVec 16} (h : crc16Bit r false = 0) : r = 0 := by
  unfold crc16Bit at h
  rw [Bool.xor_false] at h
  by_cases h0 : r.getLsbD 0 = true
  · rw [if_pos h0] at h
    have := congrArg (fun v : BitVec 16 => v.getLsbD 15) h
    simp at this
  · rw [if_neg h0] at h
    refine BitVec.eq_of_getLsbD_eq fun i hi => ?_
    cases i with
    | zero => simpa using h0
    | succ i =>
      have := congrArg (fun v : BitVec 16 => v.getLsbD i) h
      simp only [BitVec.getLsbD_ushiftRight, BitVec.ofNat_eq_ofNat, BitVec.getLsbD_zero] at this
      simpa [Nat.add_comm] using this

theorem crc16Steps_zero_data (n : Nat) {r : BitVec 16} (h : crc16Steps n r 0 = 0) : r = 0 := by
  induction n generalizing r with
  | zero => exact h
  | succ n ih =>
    simp only [crc16Steps] at h
    exact crc16Bit_eq_zero (ih (by simpa using h))

/-- For a fixed byte the register map is injective (R117 a: "a bijection"). -/
theorem crc16Steps_inj_register (n : Nat) {r q : BitVec 16} {d : Byte} (h : crc16Steps n r d = crc16Steps n q d) : r = q := by
  have := crc16Steps_xor n r q d d
  rw [h, BitVec.xor_self, BitVec.xor_self] at this
  simpa using crc16Steps_zero_data n this

theorem crc16Steps_zero_register : ∀ d : Byte, crc16Steps 8 0 d = 0 → d = 0 := by decide +kernel

/-- For a fixed register the byte map is injective (R117 a). -/
theorem crc16Steps_inj_byte {r : BitVec 16} {a b : Byte} (h : crc16Steps 8 r a = crc16Steps 8 r b) : a = b := by
  have := crc16Steps_xor 8 r r a b
  rw [h, BitVec.xor_self, BitVec.xor_self] at this
  simpa using crc16Steps_zero_register _ this

/-- The complement and the byte exchange lose nothing. -/
theorem crc16Finish_inj {r q : BitVec 16} (h : crc16Finish r = crc16Finish q) : r = q := by
  have hb : ∀ i, (crc16Finish r).getLsbD i = (crc16Finish q).getLsbD i := fun i => by rw [h]
  refine BitVec.eq_of_getLsbD_eq fun i hi => ?_
  by_cases h8 : i < 8
  · have := hb (i + 8)
    simp only [crc16Finish, BitVec.getLsbD_or, BitVec.getLsbD_and, BitVec.getLsbD_shiftLeft, BitVec.getLsbD_not,
      BitVec.getLsbD_ushiftRight] at this
    have h1 : i + 8 < 16 := by omega
    have h2 : ¬ 8 + (i + 8) < 16 := by omega
    have h3 : BitVec.getLsbD 0xFF00#16 (i + 8) = true := by interval_cases i <;> rfl
    rw [h3] at this
    simpa [h1, h2, hi] using this
  · have := hb (i - 8)
    simp only [crc16Finish, BitVec.getLsbD_or, BitVec.getLsbD_and, BitVec.getLsbD_shiftLeft, BitVec.getLsbD_not,
      BitVec.getLsbD_ushiftRight] at this
    have h1 : i - 8 < 8 := by omega
    have h2 : 8 + (i - 8) = i := by omega
    simpa [h1, h2, hi] using this

end Sys2Proof.Machine
end

