-- ==== Sys2Proof/Laws/Script.lean ====
section
/-! SUPPORT. What each procedure does on scripted answers: the exact state it ends in. -/

namespace Sys2Proof.Machine

/-- The state after `k` answered byte exchanges. -/
def afterPolls (k : Nat) (rest : List Answer) (s : State) : State :=
  { s with answers := rest, draws := s.draws + k, calls := s.calls ++ polls s.cfg k }

/-- The state after one answered call `c`. -/
def afterCall (c : Call) (rest : List Answer) (s : State) : State :=
  { s with answers := rest, draws := s.draws + 1, calls := s.calls ++ [c] }

theorem fitBytes_of_length (k n i : Nat) (bs : List Byte) (h : bs.length = n) : fitBytes k n i bs = bs := by
  induction bs generalizing n i with
  | nil => subst h; rfl
  | cons b bs ih => subst h; simp only [List.length_cons, fitBytes]; rw [ih _ _ rfl]

theorem tCall_data {s : State} {bs : List Byte} {rest : List Answer} (h : s.answers = .data bs :: rest) (c : Call) (n : Nat)
    (hn : bs.length = n) : tCall c n s = .done bs (afterCall c rest s) := by
  simp [tCall, nextAnswer, h, fitBytes_of_length _ _ _ _ hn, consumeAnswer, logCall, afterCall]

theorem tCall_err {s : State} {rest : List Answer} (h : s.answers = .tErr :: rest) (c : Call) (n : Nat) :
    tCall c n s = .raised .timeout (afterCall c rest s) := by
  simp [tCall, nextAnswer, h, consumeAnswer, logCall, afterCall]

/-- Any answer but `TErr` accepts a send: its bytes are discarded (R151). -/
theorem tSend_data {s : State} {bs : List Byte} {rest : List Answer} (h : s.answers = .data bs :: rest) (out : List Byte) :
    tSend out s = .done () (afterCall (.send out s.cfg.tBuf) rest s) := by
  simp [tSend, tCall, nextAnswer, h, fitBytes, consumeAnswer, logCall, afterCall]

theorem tXbyte_data {s : State} {b : Byte} {rest : List Answer} (h : s.answers = .data [b] :: rest) :
    tXbyte s = .done b (afterPolls 1 rest s) := by
  simp [tXbyte, tCall_data h _ 1 rfl, afterCall, afterPolls, polls, Config.fill]

@[simp] theorem byteAnswers_nil : byteAnswers [] = [] := rfl

@[simp] theorem byteAnswers_cons (b : Byte) (bs : List Byte) : byteAnswers (b :: bs) = .data [b] :: byteAnswers bs := rfl

@[simp] theorem byteAnswers_append (as bs : List Byte) : byteAnswers (as ++ bs) = byteAnswers as ++ byteAnswers bs := by
  simp [byteAnswers]

@[simp] theorem polls_zero (c : Config) : polls c 0 = [] := rfl

theorem polls_succ (c : Config) (n : Nat) : polls c (n + 1) = Call.xbyte 0xFF c.tByte :: polls c n := rfl

theorem afterPolls_afterPolls (k m : Nat) (r r' : List Answer) (s : State) :
    afterPolls m r' (afterPolls k r s) = afterPolls (k + m) r' s := by
  simp [afterPolls, polls, Nat.add_assoc]

theorem afterPolls_setPollLeft (k n : Nat) (r : List Answer) (s : State) :
    afterPolls k r (setPollLeft n s) = setPollLeft n (afterPolls k r s) := rfl

theorem setPollLeft_setPollLeft (n m : Nat) (s : State) : setPollLeft n (setPollLeft m s) = setPollLeft n s := rfl

/-- The wait for R1 takes the first byte with bit 7 clear (R153). -/
theorem pollR1_script {fs : List Byte} {b : Byte} {rest : List Answer} (hf : ∀ f ∈ fs, f.getLsbD 7 = true)
    (hb : b.getLsbD 7 = false) {n : Nat} (hn : fs.length < n) {s : State}
    (h : s.answers = byteAnswers (fs ++ [b]) ++ rest) :
    pollR1 n s = .done b (setR1 b (setPollLeft (n - fs.length) (afterPolls (fs.length + 1) rest s))) := by
  induction fs generalizing n s with
  | nil =>
    obtain ⟨n, rfl⟩ : ∃ m, n = m + 1 := ⟨n - 1, by simp at hn; omega⟩
    rw [pollR1, tXbyte_data (b := b) (rest := rest) (by simpa using h)]
    rw [Proc.done_andThen, hb, if_neg (by simp)]
    simp [afterPolls_setPollLeft]
  | cons f fs ih =>
    obtain ⟨n, rfl⟩ : ∃ m, n = m + 1 := ⟨n - 1, by simp at hn; omega⟩
    have hf7 := hf f (by simp)
    rw [pollR1, tXbyte_data (b := f) (rest := byteAnswers (fs ++ [b]) ++ rest) (by simpa using h)]
    simp only [Proc.done_andThen, hf7, if_true]
    rw [ih (fun x hx => hf x (by simp [hx])) (n := n) (by simp at hn; omega) (by rfl)]
    simp [afterPolls_setPollLeft, afterPolls_afterPolls, setPollLeft_setPollLeft, Nat.add_comm 1]

/-- With no such byte within the budget the wait raises `Timeout` after exactly that many exchanges (R153). -/
theorem pollR1_timeout {fs : List Byte} {rest : List Answer} (hf : ∀ f ∈ fs, f.getLsbD 7 = true) {s : State}
    (h : s.answers = byteAnswers fs ++ rest) :
    pollR1 fs.length s = .raised .timeout (setPollLeft 0 (afterPolls fs.length rest s)) := by
  induction fs generalizing s with
  | nil => simp [pollR1, afterPolls]; rw [← (by simpa using h : s.answers = rest)]
  | cons f fs ih =>
    have hf7 := hf f (by simp)
    rw [List.length_cons, pollR1, tXbyte_data (b := f) (rest := byteAnswers fs ++ rest) (by simpa using h)]
    simp only [Proc.done_andThen, hf7, if_true]
    rw [ih (fun x hx => hf x (by simp [hx])) (by rfl)]
    simp [afterPolls_setPollLeft, afterPolls_afterPolls, setPollLeft_setPollLeft, Nat.add_comm 1]

/-- The registers an exchange writes before its R1 (R151, R155): chip-select, the frame, the accumulator. -/
def afterSend (index : BitVec 6) (arg : Word) (rest : List Answer) (s : State) : State :=
  afterCall (.send (listOf6 (buildFrame index arg s)) s.cfg.tBuf) rest (loadFrame index arg (tSelect s))

theorem sendFrame_script {s : State} {bs : List Byte} {rest : List Answer} (h : s.answers = .data bs :: rest)
    (index : BitVec 6) (arg : Word) : sendFrame index arg (tSelect s) = .done () (afterSend index arg rest s) := by
  rw [sendFrame, tSend_data (bs := bs) (rest := rest) (by simpa using h)]
  simp [afterSend, buildFrame, crc7OverTable]

/-- The state after a command was sent and its R1 taken (R151, R153). -/
def afterR1 (index : BitVec 6) (arg : Word) (w : R1Wait) (rest : List Answer) (s : State) : State :=
  setR1 w.r1 (setPollLeft (s.cfg.nR1Poll - w.fillers.length)
    (afterPolls (w.fillers.length + 1) rest (afterSend index arg (byteAnswers (w.fillers ++ [w.r1]) ++ rest) s)))

theorem waitR1_script {s : State} {w : R1Wait} {rest : List Answer} (hw : w.Within s.cfg)
    (index : BitVec 6) (arg : Word) :
    waitR1 (afterSend index arg (byteAnswers (w.fillers ++ [w.r1]) ++ rest) s) = .done w.r1 (afterR1 index arg w rest s) :=
  pollR1_script hw.2.1 hw.2.2 hw.1 rfl

/-- A short exchange on scripted answers (R155). -/
theorem xchgShort_script {s : State} {w : R1Wait} {rest : List Answer} (hw : w.Within s.cfg)
    (h : s.answers = w.answers ++ rest) (index : BitVec 6) (arg : Word) :
    xchgShort index arg s = .done w.r1 (tDeselect (afterR1 index arg w rest s)) := by
  rw [xchgShort, sendFrame_script (bs := []) (rest := byteAnswers (w.fillers ++ [w.r1]) ++ rest) (by simpa [R1Wait.answers] using h)]
  rw [Proc.done_andThen, waitR1_script hw]
  rfl

/-- A long exchange whose extended response is not read (R156). -/
theorem xchgLong_script_short {s : State} {w : R1Wait} {rest : List Answer} (hw : w.Within s.cfg)
    (h : s.answers = w.answers ++ rest) (index : BitVec 6) (arg : Word) {want : Byte → Bool} (hwant : want w.r1 = false) :
    xchgLong index arg want s = .done w.r1 (tDeselect (afterR1 index arg w rest s)) := by
  rw [xchgLong, sendFrame_script (bs := []) (rest := byteAnswers (w.fillers ++ [w.r1]) ++ rest) (by simpa [R1Wait.answers] using h)]
  rw [Proc.done_andThen, waitR1_script hw]
  simp [hwant]

/-- The state after a long exchange that read its extended response (R156). -/
def afterLong (index : BitVec 6) (arg : Word) (w : R1Wait) (e : Bytes4) (rest : List Answer) (s : State) : State :=
  tDeselect (setExt e (afterCall (.recv 4 s.cfg.tBuf) rest (afterR1 index arg w (.data (listOf4 e) :: rest) s)))

/-- A long exchange whose extended response is read (R156). -/
theorem xchgLong_script {s : State} {w : R1Wait} {e : Bytes4} {rest : List Answer} (hw : w.Within s.cfg)
    (h : s.answers = extAnswers w e ++ rest) (index : BitVec 6) (arg : Word) {want : Byte → Bool} (hwant : want w.r1 = true) :
    xchgLong index arg want s = .done w.r1 (afterLong index arg w e rest s) := by
  rw [xchgLong, sendFrame_script (bs := []) (rest := byteAnswers (w.fillers ++ [w.r1]) ++ (.data (listOf4 e) :: rest))
    (by simpa [extAnswers, R1Wait.answers] using h)]
  rw [Proc.done_andThen, waitR1_script hw, Proc.done_andThen, if_pos hwant, readExt, tRecv,
    tCall_data (bs := listOf4 e) (rest := rest) rfl _ 4 rfl]
  rfl

/-- The token wait on scripted answers (R199). -/
theorem pollToken_script {fs : List Byte} {rest : List Answer} (hf : ∀ f ∈ fs, f ≠ 0xFE) {n : Nat} (hn : fs.length < n)
    {s : State} (h : s.answers = byteAnswers (fs ++ [0xFE]) ++ rest) :
    pollToken n s = .done () (takeToken (setPollLeft (n - fs.length) (afterPolls (fs.length + 1) rest s))) := by
  induction fs generalizing n s with
  | nil =>
    obtain ⟨n, rfl⟩ : ∃ m, n = m + 1 := ⟨n - 1, by simp at hn; omega⟩
    rw [pollToken, tXbyte_data (b := 0xFE) (rest := rest) (by simpa using h)]
    simp [Config.startToken, afterPolls_setPollLeft]
  | cons f fs ih =>
    obtain ⟨n, rfl⟩ : ∃ m, n = m + 1 := ⟨n - 1, by simp at hn; omega⟩
    have hne : f ≠ Config.startToken := hf f (by simp)
    rw [pollToken, tXbyte_data (b := f) (rest := byteAnswers (fs ++ [0xFE]) ++ rest) (by simpa using h)]
    simp only [Proc.done_andThen, if_neg hne]
    rw [ih (fun x hx => hf x (by simp [hx])) (n := n) (by simp at hn; omega) (by rfl)]
    simp [afterPolls_setPollLeft, afterPolls_afterPolls, setPollLeft_setPollLeft, Nat.add_comm 1]

/-- With no token within the budget the wait raises `Timeout` after exactly that many exchanges (R199). -/
theorem pollToken_timeout {fs : List Byte} {rest : List Answer} (hf : ∀ f ∈ fs, f ≠ 0xFE) {s : State}
    (h : s.answers = byteAnswers fs ++ rest) :
    pollToken fs.length s = .raised .timeout (setPollLeft 0 (afterPolls fs.length rest s)) := by
  induction fs generalizing s with
  | nil => simp [pollToken, afterPolls]; rw [← (by simpa using h : s.answers = rest)]
  | cons f fs ih =>
    have hne : f ≠ Config.startToken := hf f (by simp)
    rw [List.length_cons, pollToken, tXbyte_data (b := f) (rest := byteAnswers fs ++ rest) (by simpa using h)]
    simp only [Proc.done_andThen, if_neg hne]
    rw [ih (fun x hx => hf x (by simp [hx])) (by rfl)]
    simp [afterPolls_setPollLeft, afterPolls_afterPolls, setPollLeft_setPollLeft, Nat.add_comm 1]

end Sys2Proof.Machine
end

