-- ==== Sys2Proof/Laws/SpecForms.lean ====
section
/-! SUPPORT. The spec's forms that the statements are written in (Safety) against the machine's own functions. -/

namespace Sys2Proof.Machine

theorem tableFold_eq (m : Memory) (msg : List Byte) : tableFold m msg = crc7Over (Memory.read m) msg := rfl

theorem bitFold_eq (msg : List Byte) : bitFold msg = crc7Bits msg := rfl

/-- Over the built table the loop of R113 is the loop of R114. -/
theorem tableFold_builtTable (msg : List Byte) : tableFold builtTable msg = bitFold msg := by
  rw [tableFold_eq, crc7Over_builtTable, bitFold_eq]

theorem crc16Steps_eight (r : BitVec 16) (b : Byte) : crc16Steps 8 r b =
    [0, 1, 2, 3, 4, 5, 6, 7].foldl (fun r k => crc16Bit r (b.getLsbD k)) r := by
  simp only [crc16Steps, List.foldl_cons, List.foldl_nil, BitVec.getLsbD_ushiftRight, ← BitVec.shiftRight_add]

theorem crc16Loop_eq (data : List Byte) : crc16Loop data = crc16Reg data := by
  simp only [crc16Reg, crc16Steps_eight]
  rfl

theorem crc16Finish_eq (r : BitVec 16) : crc16Finish r = (~~~r).extractLsb 7 0 ++ (~~~r).extractLsb 15 8 := by
  unfold crc16Finish
  generalize ~~~r = c
  refine BitVec.eq_of_getLsbD_eq fun i hi => ?_
  have h : i < 16 := hi
  simp only [BitVec.getLsbD_append, BitVec.getLsbD_extractLsb, BitVec.getLsbD_or, BitVec.getLsbD_and,
    BitVec.getLsbD_shiftLeft, BitVec.getLsbD_ushiftRight]
  interval_cases i <;> simp

theorem crc16Result_eq (data : List Byte) : crc16Result data = crc16 data := by
  rw [crc16Result, crc16Loop_eq, crc16, crc16Finish_eq]

theorem frameHead_eq (index : BitVec 6) (arg : Word) : frameHead index arg = frameBody index arg := by
  have : ∀ i : BitVec 6, 0x40#8 ||| i.setWidth 8 = 0b01#2 ++ i := by decide +kernel
  simp [frameHead, frameBody, listOf4, bytesOf, this]

theorem packFrame_eq (index : BitVec 6) (arg : Word) (crc : BitVec 7) : packFrame index arg crc = frameOf index arg crc := by
  have h : ∀ i : BitVec 6, 0x40#8 ||| i.setWidth 8 = 0b01#2 ++ i := by decide +kernel
  have h' : ∀ c : BitVec 7, (c.setWidth 8 <<< 1) ||| 0x01#8 = c ++ 1#1 := by decide +kernel
  simp [packFrame, frameOf, bytesOf, h, h']

/-- The frame register after an exchange, over any table (R131). -/
theorem buildFrame_eq (index : BitVec 6) (arg : Word) (s : State) :
    buildFrame index arg s = frameOf index arg (tableFold s.table (frameBody index arg)) := by
  rw [buildFrame, packFrame_eq, crc7OverTable, frameHead_eq, tableFold_eq]

/-- The frame an exchange sends once the table is built (R72). -/
theorem buildFrame_sent {s : State} (h : s.table = builtTable) (index : BitVec 6) (arg : Word) :
    buildFrame index arg s = sentFrame index arg := by
  rw [buildFrame_eq, h, tableFold_builtTable, sentFrame]

theorem decodeR1Byte_eq (b : Byte) : decodeR1Byte b = r1Fields b := rfl

theorem encodeR1Byte_eq (r : R1Status) : encodeR1Byte r = r1ByteOf r := by
  rcases r with ⟨a, b, c, d, e, f, g, h⟩
  cases a <;> cases b <;> cases c <;> cases d <;> cases e <;> cases f <;> cases g <;> cases h <;> decide +kernel

theorem encodeR1Byte_decode : ∀ b : Byte, encodeR1Byte (decodeR1Byte b) = b := by decide +kernel

theorem decodeR1Byte_encode (r : R1Status) : decodeR1Byte (encodeR1Byte r) = r := by
  rcases r with ⟨a, b, c, d, e, f, g, h⟩
  cases a <;> cases b <;> cases c <;> cases d <;> cases e <;> cases f <;> cases g <;> cases h <;> decide +kernel

end Sys2Proof.Machine
end

