-- ==== Sys2Proof/Laws/Machine.lean ====
section
/-! SUPPORT. One rule for statements about every instruction: a property kept by the machine's named operations is kept by `exec`. -/

namespace Sys2Proof.Machine

/-- With chip-select released the exit procedure makes no call (R245). -/
theorem exit_released (st : Status) (v : Value) {s : State} (h : s.csHeld = false) : exit st v s = deliver st v s := by
  simp [exit, releaseCs, h]

/-- With chip-select held the exit procedure releases it (R245). -/
theorem exit_held (st : Status) (v : Value) {s : State} (h : s.csHeld = true) : exit st v s = deliver st v (tDeselect s) := by
  simp [exit, releaseCs, h]

/-- The end of an operation that wrote nothing. -/
theorem exit_accept (st : Status) (v : Value) {s : State} (h : s.csHeld = false) :
    exit st v (accept s) = answered s st v := by
  rw [exit_released _ _ (by simpa using h)]
  rfl

/-- The operations of R130 and the queries leave only their result. -/
theorem pureOperation_eq (v : Value) {s : State} (h : s.csHeld = false) :
    pureOperation v s = .next (answered s .ok v) := by
  rw [pureOperation, runOperation, finish, exit_accept _ _ h]

/-- What a rule about instruction `i` asks of the named operations: `S` before the step, `F` between holds, `P` inside one, `E`
where an error was raised, `G` after the step. -/
structure MachineStable (c₀ : Config) (i : Instr) (S F P : State → Prop) (E : Status → State → Prop) (G : State → Prop) : Prop extends
    ReadStable c₀ F P E, NegotiateStable c₀ F P E where
  accept : ∀ s, S s → F (accept s)
  beginStep : ∀ s, S s → F (beginStep s)
  freeAcc7 : ∀ v s, F s → F (setAcc7 v s)
  freeReg16 : ∀ v s, F s → F (setReg16 v s)
  freeFrame : ∀ f s, F s → F (setFrame f s)
  freeR1 : ∀ b s, F s → F (setR1 b s)
  freeExt : ∀ e s, F s → F (setExt e s)
  freeOutBlock : ∀ bs s, bs.length ≤ 512 → F s → F (setOutBlock bs s)
  freeOutReg : ∀ bs s, bs.length ≤ 16 → F s → F (setOutReg bs s)
  freeToken : ∀ s, F s → F (takeToken s)
  table : i = .buildTable → ∀ s, F s → F (setTable builtTable s)
  mode : ∀ v, i = .setDataChecksum v → ∀ s, F s → F (setChecksumEnabled v s)
  teardown : (i = .negotiate ∨ i = .sessionReset) → ∀ s, F s → F (teardown s)
  commit : i = .negotiate → ∀ s, F s → F (commitSession s.cls s)
  failedState : ∀ e s, E e s → E e (Sys2Proof.Machine.enterN .failed s)
  finishOk : ∀ v s, F s → G (exit .ok v s)
  finishError : ∀ e s, E e s → G (exit e .none s)
  internal : ∀ s, F s → G s

section

variable {c₀ : Config} {i : Instr} {S F P G : State → Prop} {E : Status → State → Prop}

theorem needTable_sat (h : MachineStable c₀ i S F P E G) {s : State} (hs : F s) :
    (needTable s).Sat (fun _ t => t = s ∧ s.tableBuilt = true) E := by
  unfold needTable
  split
  · exact ⟨rfl, ‹_›⟩
  · exact h.failFree _ _ hs

theorem readEntry_sat (h : MachineStable c₀ i S F P E G) {s : State} (hs : F s) :
    (readEntry s).Sat (fun _ t => t = s ∧ s.tableBuilt = true ∧ s.cardClass ≠ .unclassified) E := by
  refine (needTable_sat h hs).andThen ?_
  rintro _ _ ⟨rfl, hb⟩
  unfold needReady sessionReady
  split
  · rename_i hr
    exact ⟨rfl, hb, of_decide_eq_true hr⟩
  · exact h.failFree _ _ hs

theorem runOperation_stable (h : MachineStable c₀ i S F P E G) {body : State → Proc Value} {s t : State} (hs : S s)
    (e : runOperation body s = .next t) (hb : ∀ u, F u → (body u).Sat (fun _ => F) E) : G t := by
  have hsat := hb _ (h.accept _ hs)
  cases e
  revert hsat
  cases body (Sys2Proof.Machine.accept s) with
  | done v u => exact fun hu => h.finishOk _ _ hu
  | raised e u => exact fun hu => h.finishError _ _ hu

theorem runInternal_stable (h : MachineStable c₀ i S F P E G) {body : State → Proc Unit} {s t : State} (hs : S s)
    (e : runInternal body s = .next t) (hb : ∀ u, F u → (body u).Sat (fun _ => F) E) : G t := by
  have hsat := hb _ (h.beginStep _ hs)
  unfold runInternal at e
  revert hsat e
  cases body (Sys2Proof.Machine.beginStep s) with
  | done v u =>
    intro e hu
    cases e
    exact h.internal _ hu
  | raised e u =>
    intro e hu
    cases e
    exact h.finishError _ _ hu

theorem negotiateBody_sat (h : MachineStable c₀ i S F P E G) (hi : i = .negotiate) {s : State} (hs : F s) :
    (negotiateBody s).Sat (fun _ => F) E := by
  refine (needTable_sat h hs).andThen ?_
  rintro _ s ⟨rfl, -⟩
  have he : F (negotiateEntry s) := by
    unfold negotiateEntry
    refine h.cls _ _ (h.voltage _ _ ?_)
    split
    · exact h.teardown (.inl hi) _ hs
    · exact hs
  have := negotiationStates_sat h.toNegotiateStable he
  revert this
  cases negotiationStates (negotiateEntry s) with
  | done v t =>
    rintro ⟨u, hu, -, rfl⟩
    exact h.commit hi _ hu
  | raised e t => exact fun ht => h.failedState _ _ ht

theorem readBlockBody_sat (h : MachineStable c₀ i S F P E G) (index : Word) {s : State} (hs : F s) :
    (readBlockBody index s).Sat (fun _ => F) E := by
  refine (readEntry_sat h hs).andThen ?_
  rintro _ _ ⟨rfl, -⟩
  exact (readData_sat h.toReadStable _ _ _ _ hs).andThen fun _ _ hs => h.freeOutBlock _ _ hs.1 hs.2

theorem readRegisterBody_sat (h : MachineStable c₀ i S F P E G) (index : BitVec 6) (view : List Byte → Value) {s : State}
    (hs : F s) : (readRegisterBody index view s).Sat (fun _ => F) E := by
  refine (readEntry_sat h hs).andThen ?_
  rintro _ _ ⟨rfl, -⟩
  exact (readData_sat h.toReadStable _ _ _ _ hs).andThen fun _ _ hs => h.freeOutReg _ _ hs.1 hs.2

theorem encodeBody_sat (h : MachineStable c₀ i S F P E G) (index : BitVec 6) (arg : Word) {s : State} (hs : F s) :
    (encodeBody index arg s).Sat (fun _ => F) E := by
  refine (needTable_sat h hs).andThen ?_
  rintro _ s ⟨rfl, -⟩
  exact h.freeFrame _ _ (h.freeAcc7 _ _ hs)

theorem shortExchange_sat (h : MachineStable c₀ i S F P E G) (index : BitVec 6) (arg : Word) {s : State} (hs : F s) :
    (shortExchange index arg s).Sat (fun _ => F) E := by
  refine (needTable_sat h hs).andThen ?_
  rintro _ s ⟨rfl, -⟩
  exact (xchgShort_sat h.toExchangeStable _ _ hs).andThen fun _ _ hs => hs

theorem longExchange_sat (h : MachineStable c₀ i S F P E G) (index : BitVec 6) (arg : Word) (w : Byte → Bool) {s : State}
    (hs : F s) : (longExchange index arg w s).Sat (fun _ => F) E := by
  refine (needTable_sat h hs).andThen ?_
  rintro _ s ⟨rfl, -⟩
  exact (xchgLong_sat h.toExchangeStable _ _ _ hs).andThen fun _ _ hs => hs

theorem readExchange_sat (h : MachineStable c₀ i S F P E G) (index : BitVec 6) (arg : Word) (tr : Transfer) (c : Bool) {s : State}
    (hs : F s) : (readExchange index arg tr c s).Sat (fun _ => F) E := by
  refine (needTable_sat h hs).andThen ?_
  rintro _ s ⟨rfl, -⟩
  exact (readData_sat h.toReadStable _ _ _ _ hs).andThen fun _ _ hs => hs.2

/-- The rule: every instruction but SET_SPEED_CLASS, whose one call stands outside a hold (R219). -/
theorem exec_stable (h : MachineStable c₀ i S F P E G) (hi : ∀ c, i ≠ .setSpeedClass c) {s t : State} (hs : S s)
    (e : exec i s = .next t) : G t := by
  cases i with
  | buildTable =>
    exact runOperation_stable (body := fun s => .done .none (setTable builtTable s)) h hs e (fun u hu => h.table rfl _ hu)
  | crc7 m =>
    refine runOperation_stable (body := fun s => (needTable s).andThen fun _ s =>
      .done (.u7 (crc7OverTable m s)) (setAcc7 (crc7OverTable m s) s)) h hs e (fun u hu => (needTable_sat h hu).andThen ?_)
    rintro _ _ ⟨rfl, -⟩
    exact h.freeAcc7 _ _ hu
  | crc16 d =>
    exact runOperation_stable (body := fun s => .done (.u16 (crc16 d)) (setReg16 (crc16Reg d) s)) h hs e (fun u hu => h.freeReg16 _ _ hu)
  | encodeCmd j a => exact runOperation_stable h hs e (fun u hu => encodeBody_sat h j a hu)
  | decodeR1 b => exact runOperation_stable h hs e (fun u hu => hu)
  | encodeR1 r => exact runOperation_stable h hs e (fun u hu => hu)
  | decodeOcr b => exact runOperation_stable h hs e (fun u hu => hu)
  | decodeIfCond b => exact runOperation_stable h hs e (fun u hu => hu)
  | decodeCid p => exact runOperation_stable h hs e (fun u hu => hu)
  | decodeCsd p => exact runOperation_stable h hs e (fun u hu => hu)
  | negotiate => exact runOperation_stable h hs e (fun u hu => negotiateBody_sat h rfl hu)
  | readBlock j => exact runOperation_stable h hs e (fun u hu => readBlockBody_sat h j hu)
  | readCid => exact runOperation_stable h hs e (fun u hu => readRegisterBody_sat h _ _ hu)
  | readCsd => exact runOperation_stable h hs e (fun u hu => readRegisterBody_sat h _ _ hu)
  | setDataChecksum v =>
    exact runOperation_stable (body := fun s => .done .none (setChecksumEnabled v s)) h hs e (fun u hu => h.mode _ rfl _ hu)
  | setSpeedClass c => exact absurd rfl (hi c)
  | cardClass => exact runOperation_stable h hs e (fun u hu => hu)
  | blockLength => exact runOperation_stable h hs e (fun u hu => hu)
  | sessionReset =>
    exact runOperation_stable (body := fun s => .done .none (Sys2Proof.Machine.teardown s)) h hs e (fun u hu => h.teardown (.inr rfl) _ hu)
  | blockAddressing => exact runOperation_stable h hs e (fun u hu => hu)
  | cmd0 a c => exact runInternal_stable h hs e (fun u hu => shortExchange_sat h _ _ hu)
  | cmd8 a c => exact runInternal_stable h hs e (fun u hu => longExchange_sat h _ _ _ hu)
  | cmd9 a c => exact runInternal_stable h hs e (fun u hu => readExchange_sat h _ _ _ _ hu)
  | cmd10 a c => exact runInternal_stable h hs e (fun u hu => readExchange_sat h _ _ _ _ hu)
  | cmd17 a c => exact runInternal_stable h hs e (fun u hu => readExchange_sat h _ _ _ _ hu)
  | cmd41 a c => exact runInternal_stable h hs e (fun u hu => shortExchange_sat h _ _ hu)
  | cmd55 a c => exact runInternal_stable h hs e (fun u hu => shortExchange_sat h _ _ hu)
  | cmd58 a c => exact runInternal_stable h hs e (fun u hu => longExchange_sat h _ _ _ hu)
  | cmd59 a c => exact runOperation_stable h hs e (fun u hu => encodeBody_sat h _ _ hu)
  | cmdAny j a c => exact runOperation_stable h hs e (fun u hu => encodeBody_sat h _ _ hu)
  | r1Response r =>
    cases e
    split
    · exact h.internal _ (h.beginStep _ hs)
    · exact h.internal _ (h.freeR1 _ _ (h.beginStep _ hs))
  | startToken =>
    cases e
    exact h.internal _ (h.freeToken _ (h.beginStep _ hs))
  | ocrView v =>
    cases e
    exact h.internal _ (judgeOcr_stable h.toNegotiateStable (h.freeExt _ _ (h.beginStep _ hs)))
  | ifCondView v =>
    cases e
    exact h.internal _ (judgeIfCond_stable h.toNegotiateStable (h.freeExt _ _ (h.beginStep _ hs)))

end

end Sys2Proof.Machine
end

