-- ==== Sys2Proof/Laws/Transactions.lean ====
section
/-! SUPPORT. The entry checks and the read transaction (R198) on scripted answers: the exact state each ends in. -/

namespace Sys2Proof.Machine

theorem needTable_built {s : State} (h : s.tableBuilt = true) : needTable s = .done () s := if_pos h

theorem needTable_unbuilt {s : State} (h : s.tableBuilt = false) : needTable s = .raised .tableNotBuilt s :=
  if_neg (by rw [h]; decide)

theorem sessionReady_iff (s : State) : sessionReady s = true ↔ s.cardClass ≠ .unclassified := by simp [sessionReady]

/-- The entry checks of a read pass (R197). -/
theorem readEntry_ready {s : State} (h : s.tableBuilt = true) (hr : s.cardClass ≠ .unclassified) :
    readEntry s = .done () s := by
  rw [readEntry, needTable_built h, Proc.done_andThen, needReady, if_pos ((sessionReady_iff s).2 hr)]

/-- The not-ready gate (R197, R248). -/
theorem readEntry_notReady {s : State} (h : s.tableBuilt = true) (hr : s.cardClass = .unclassified) :
    readEntry s = .raised .notReady s := by
  rw [readEntry, needTable_built h, Proc.done_andThen, needReady, if_neg (by simp [sessionReady, hr])]

/-- The command accumulator after a frame was built over the built table (R113, R114). -/
theorem crc7OverTable_built {s : State} (h : s.table = builtTable) (index : BitVec 6) (arg : Word) :
    crc7OverTable (frameHead index arg) s = bitFold (frameBody index arg) := by
  rw [crc7OverTable, frameHead_eq, h, ← tableFold_eq, tableFold_builtTable]

/-- `afterSend` field by field, once the table is built. -/
theorem afterSend_built {s : State} (h : s.table = builtTable) (index : BitVec 6) (arg : Word) (rest : List Answer) :
    afterSend index arg rest s = { s with
      csHeld := true, acc7 := bitFold (frameBody index arg), frame := sentFrame index arg, answers := rest,
      draws := s.draws + 1, calls := s.calls ++ [.select, .send (frameBytes index arg) s.cfg.tBuf] } := by
  have ht : (tSelect s).table = builtTable := h
  rw [afterSend, loadFrame, buildFrame_sent h, buildFrame_sent ht, crc7OverTable_built ht]
  simp [afterCall, setFrame, setAcc7, tSelect, frameBytes]

/-- `afterR1` field by field, once the table is built. -/
theorem afterR1_built {s : State} (h : s.table = builtTable) (index : BitVec 6) (arg : Word) (w : R1Wait)
    (rest : List Answer) : afterR1 index arg w rest s = { s with
      csHeld := true, acc7 := bitFold (frameBody index arg), frame := sentFrame index arg, r1 := w.r1,
      pollLeft := s.cfg.nR1Poll - w.fillers.length, answers := rest, draws := s.draws + 1 + (w.fillers.length + 1),
      calls := s.calls ++ [.select, .send (frameBytes index arg) s.cfg.tBuf] ++ polls s.cfg (w.fillers.length + 1) } := by
  rw [afterR1, afterSend_built h]
  rfl

theorem afterR1_cfg (index : BitVec 6) (arg : Word) (w : R1Wait) (rest : List Answer) (s : State) :
    (afterR1 index arg w rest s).cfg = s.cfg := by
  simp [afterR1, afterPolls, afterSend, afterCall, loadFrame]

theorem afterR1_answers (index : BitVec 6) (arg : Word) (w : R1Wait) (rest : List Answer) (s : State) :
    (afterR1 index arg w rest s).answers = rest := by
  simp [afterR1, afterPolls]

/-- Phase `BCommand` when R1 is `0x00` (R198). -/
theorem readCommand_script {s : State} {w : R1Wait} {rest : List Answer} (hw : w.Within s.cfg) (h0 : w.r1 = 0)
    (ha : s.answers = w.answers ++ rest) (index : BitVec 6) (arg : Word) :
    readCommand index arg s = .done () (afterR1 index arg w rest (enterB .bCommand s)) := by
  rw [readCommand, sendFrame_script (s := enterB .bCommand s) (bs := []) (rest := byteAnswers (w.fillers ++ [w.r1]) ++ rest)
    (by simpa [R1Wait.answers] using ha), Proc.done_andThen, waitR1_script (s := enterB .bCommand s) hw, Proc.done_andThen]
  simp [h0, r1Error]

/-- Phase `BCommand` when R1 maps to an error (R202). -/
theorem readCommand_error {s : State} {w : R1Wait} {rest : List Answer} {e : Status} (hw : w.Within s.cfg)
    (he : r1Error w.r1 = some e) (ha : s.answers = w.answers ++ rest) (index : BitVec 6) (arg : Word) :
    readCommand index arg s = .raised e (afterR1 index arg w rest (enterB .bCommand s)) := by
  rw [readCommand, sendFrame_script (s := enterB .bCommand s) (bs := []) (rest := byteAnswers (w.fillers ++ [w.r1]) ++ rest)
    (by simpa [R1Wait.answers] using ha), Proc.done_andThen, waitR1_script (s := enterB .bCommand s) hw, Proc.done_andThen]
  simp [he]

/-- Phase `BCommand` when no R1 comes (R153). -/
theorem readCommand_timeout {s : State} {fs : List Byte} {rest : List Answer} (hn : fs.length = s.cfg.nR1Poll)
    (hf : ∀ f ∈ fs, f.getLsbD 7 = true) (ha : s.answers = .data [] :: byteAnswers fs ++ rest) (index : BitVec 6) (arg : Word) :
    readCommand index arg s = .raised .timeout (setPollLeft 0 (afterPolls fs.length rest
      (afterSend index arg (byteAnswers fs ++ rest) (enterB .bCommand s)))) := by
  rw [readCommand, sendFrame_script (s := enterB .bCommand s) (bs := []) (rest := byteAnswers fs ++ rest)
    (by simpa using ha), Proc.done_andThen, waitR1]
  have hc : (afterSend index arg (byteAnswers fs ++ rest) (enterB .bCommand s)).cfg.nR1Poll = fs.length := hn.symm
  rw [hc, pollR1_timeout hf rfl]
  rfl

theorem enterB_answers (b : BState) (s : State) : (enterB b s).answers = s.answers := rfl

/-- The token in the token wait (R198). -/
theorem takeToken_waiting {s : State} (h : s.bstate = .bToken) : takeToken s = enterB .bData s := if_pos h

/-- The registers at the end of a transaction whose responses all arrived, before the comparison of R201. -/
def dataState (index : BitVec 6) (arg : Word) (w : R1Wait) (fillers : List Byte) (tr : Transfer) (buf : List Byte)
    (rest : List Answer) (s : State) : State :=
  storeBuffer tr buf { s with
    acc7 := bitFold (frameBody index arg), frame := sentFrame index arg, r1 := 0,
    pollLeft := s.cfg.nTokenPoll - fillers.length, csHeld := true, bstate := .bCheck, answers := rest,
    draws := s.draws + 1 + (w.fillers.length + 1) + (fillers.length + 1) + 1,
    calls := s.calls ++ [.select, .send (frameBytes index arg) s.cfg.tBuf] ++ polls s.cfg (w.fillers.length + 1)
      ++ polls s.cfg (fillers.length + 1) ++ [.recv (payloadLen tr + 2) s.cfg.tBuf],
    bpath := s.bpath ++ [.bCommand, .bToken, .bData, .bCheck] }

/-- A whole transaction on scripted answers, up to the comparison (R198). -/
theorem readData_script {s : State} (ht : s.table = builtTable) {w : R1Wait} {fillers buf : List Byte} {rest : List Answer}
    (hw : w.Within s.cfg) (h0 : w.r1 = 0) (hf : TokenWithin s.cfg fillers) (tr : Transfer)
    (hl : buf.length = payloadLen tr + 2) (ha : s.answers = readAnswers w fillers buf ++ rest) (index : BitVec 6) (arg : Word)
    (check : Bool) : readData index arg tr check s =
      (validate tr check (buf.take (payloadLen tr)) (trailerOf (payloadLen tr) buf)
        (dataState index arg w fillers tr buf rest s)).andThen fun p s => .done p (endRead (tDeselect s)) := by
  have ha' : s.answers = w.answers ++ (byteAnswers (fillers ++ [0xFE]) ++ .data buf :: rest) := by
    rw [ha, readAnswers]; simp
  have hB : (enterB .bCommand s).table = builtTable := ht
  have hc : ∀ r, (afterR1 index arg w r (enterB .bCommand s)).cfg.nTokenPoll = s.cfg.nTokenPoll := fun _ => by
    rw [afterR1_cfg, show (enterB .bCommand s).cfg = s.cfg from rfl]
  rw [readData, readCommand_script hw h0 ha', Proc.done_andThen, waitToken, hc,
    pollToken_script (rest := .data buf :: rest) hf.2 hf.1 ((enterB_answers _ _).trans (afterR1_answers _ _ _ _ _)), Proc.done_andThen,
    takeToken_waiting rfl, receiveData, tRecv, Config.trailerLen,
    tCall_data (bs := buf) (rest := rest) rfl _ _ hl, afterR1_built hB]
  simp only [Proc.done_andThen, checkData]
  congr 2
  cases tr <;> simp [dataState, storeBuffer, setPollLeft, afterPolls, enterB, afterCall, setDbuf, setRbuf, h0]

/-- A transaction whose token does not come (R199). -/
theorem readData_noToken {s : State} (ht : s.table = builtTable) {w : R1Wait} {fillers : List Byte} {rest : List Answer}
    (hw : w.Within s.cfg) (h0 : w.r1 = 0) (hn : fillers.length = s.cfg.nTokenPoll) (hf : ∀ f ∈ fillers, f ≠ 0xFE)
    (ha : s.answers = w.answers ++ byteAnswers fillers ++ rest) (index : BitVec 6) (arg : Word) (tr : Transfer)
    (check : Bool) : readData index arg tr check s = .raised .timeout { s with
      acc7 := bitFold (frameBody index arg), frame := sentFrame index arg, r1 := 0, pollLeft := 0, csHeld := true,
      bstate := .bToken, answers := rest, draws := s.draws + 1 + (w.fillers.length + 1) + fillers.length,
      calls := s.calls ++ [.select, .send (frameBytes index arg) s.cfg.tBuf] ++ polls s.cfg (w.fillers.length + 1)
        ++ polls s.cfg fillers.length,
      bpath := s.bpath ++ [.bCommand, .bToken] } := by
  have hB : (enterB .bCommand s).table = builtTable := ht
  rw [readData, readCommand_script (rest := byteAnswers fillers ++ rest) hw h0 (by rw [ha]; simp), Proc.done_andThen,
    waitToken]
  have hc : ∀ r, (afterR1 index arg w r (enterB .bCommand s)).cfg.nTokenPoll = fillers.length := fun _ => by
    rw [afterR1_cfg, show (enterB .bCommand s).cfg = s.cfg from rfl, hn]
  rw [hc, pollToken_timeout (rest := rest) hf ((enterB_answers _ _).trans (afterR1_answers _ _ _ _ _)), afterR1_built hB]
  simp [enterB, setPollLeft, afterPolls, h0]

/-- The received checksum of a payload and its two trailer bytes (R200). -/
theorem trailerOf_append {p : List Byte} {n : Nat} (hp : p.length = n) (hi lo : Byte) :
    trailerOf n (p ++ [hi, lo]) = hi ++ lo := by
  subst hp
  simp [trailerOf, be16, List.getD_eq_getElem?_getD]

/-- The address translation, as a shift (R56: "equally (index << 9) at 32 bits"). -/
theorem translateIndex_eq (a : Addressing) (index : Word) :
    translateIndex a index = if a = .blockAddressed then index else index <<< 9 := by
  unfold translateIndex
  split
  · rfl
  · rw [show (512 : Word) = BitVec.twoPow 32 9 from rfl, BitVec.mul_twoPow_eq_shiftLeft]

end Sys2Proof.Machine
end

