-- ==== Sys2Proof/Laws/Negotiation.lean ====
section
/-! SUPPORT. NEGOTIATE over scripted answers: what one exchange, one init iteration, the mismatching probes and the states before
the init loop do, and what they leave alone. -/

namespace Sys2Proof.Machine

/-- `t` is `s` after exchanges with the calls `cs`, `rest` the answers left: what exchanges write apart, all is as it was. -/
structure Exchanged (s t : State) (cs : List Call) (rest : List Answer) : Prop where
  calls : t.calls = s.calls ++ cs
  answers : t.answers = rest
  cfg : t.cfg = s.cfg
  npath : t.npath = s.npath
  nstate : t.nstate = s.nstate
  acmd : t.acmdDone = s.acmdDone
  cls : t.cls = s.cls
  volt : t.voltageAccepted = s.voltageAccepted
  cc : t.cardClass = s.cardClass
  ba : t.blockAddressing = s.blockAddressing
  ce : t.checksumEnabled = s.checksumEnabled
  table : t.table = s.table
  tb : t.tableBuilt = s.tableBuilt
  cs : t.csHeld = false
  frame : t.reg16 = s.reg16 ∧ t.dbuf = s.dbuf ∧ t.rbuf = s.rbuf ∧ t.outBlock = s.outBlock ∧ t.outReg = s.outReg ∧
      t.reqPort = s.reqPort ∧ t.wire = s.wire

/-- A short exchange whose response arrives. -/
theorem xchgShort_exchanged {s : State} {w : R1Wait} {rest} (hw : w.Within s.cfg) (ht : s.table = builtTable)
    (h : s.answers = w.answers ++ rest) (i a) :
   ∃ t, xchgShort i a s = .done w.r1 t ∧ Exchanged s t (exchangeCalls s.cfg i a w false) rest := by
  refine ⟨_, xchgShort_script hw h i a, ?_⟩
  constructor <;> simp [afterR1, afterPolls, afterSend, afterCall, loadFrame, setFrame, setAcc7, tSelect, exchangeCalls, frameBytes, buildFrame_sent ht, setR1, setPollLeft]

/-- A long exchange whose payload is not wanted. -/
theorem xchgLong_exchanged_short {s : State} {w : R1Wait} {rest} (hw : w.Within s.cfg) (ht : s.table = builtTable)
    (h : s.answers = w.answers ++ rest) (i a want) (hwant : want w.r1 = false) :
   ∃ t, xchgLong i a want s = .done w.r1 t ∧ Exchanged s t (exchangeCalls s.cfg i a w false) rest := by
  refine ⟨_, xchgLong_script_short hw h i a hwant, ?_⟩
  constructor <;> simp [afterR1, afterPolls, afterSend, afterCall, loadFrame, setFrame, setAcc7, tSelect, exchangeCalls, frameBytes, buildFrame_sent ht, setR1, setPollLeft]

/-- A long exchange whose payload arrives. -/
theorem xchgLong_exchanged {s : State} {w : R1Wait} {e rest} (hw : w.Within s.cfg) (ht : s.table = builtTable)
    (h : s.answers = extAnswers w e ++ rest) (i a want) (hwant : want w.r1 = true) :
   ∃ t, xchgLong i a want s = .done w.r1 t ∧ Exchanged s t (exchangeCalls s.cfg i a w true) rest ∧ t.ext = e := by
  refine ⟨_, xchgLong_script hw h i a hwant, ?_, ?_⟩
  · constructor <;> simp [afterLong, afterR1, afterPolls, afterSend, afterCall, loadFrame, setFrame, setAcc7, tSelect, exchangeCalls, frameBytes, buildFrame_sent ht, setR1, setPollLeft, setExt]
  · simp [afterLong, setExt]

theorem probeArg_eq : probeArg = 0x000001AA := by decide

/-- The echo matches when the last byte is the check pattern. -/
theorem echoMatches_iff (e : Bytes4) : echoMatches e = true ↔ e.b3 = 0xAA := by
  have : (wordOf e).extractLsb 7 0 = e.b3 := by
    refine BitVec.eq_of_getLsbD_eq fun i hi => ?_
    have hi : i < 8 := hi
    simp only [wordOf, be32, BitVec.getLsbD_extractLsb, BitVec.getLsbD_append]
    interval_cases i <;> simp
  simp [echoMatches, ifCondOf, this, Config.checkPattern]

/-- What no state of NEGOTIATE before `Ready` writes; chip-select is released. -/
structure Untouched (s t : State) : Prop where
  cfg : t.cfg = s.cfg
  cc : t.cardClass = s.cardClass
  ba : t.blockAddressing = s.blockAddressing
  ce : t.checksumEnabled = s.checksumEnabled
  table : t.table = s.table
  tb : t.tableBuilt = s.tableBuilt
  cs : t.csHeld = false
  frame : t.reg16 = s.reg16 ∧ t.dbuf = s.dbuf ∧ t.rbuf = s.rbuf ∧ t.outBlock = s.outBlock ∧ t.outReg = s.outReg ∧
      t.reqPort = s.reqPort ∧ t.wire = s.wire

theorem Untouched.trans {a b c} (h : Untouched a b) (h' : Untouched b c) : Untouched a c :=
  ⟨h'.cfg.trans h.cfg, h'.cc.trans h.cc, h'.ba.trans h.ba, h'.ce.trans h.ce, h'.table.trans h.table, h'.tb.trans h.tb, h'.cs,
   by obtain ⟨a1,a2,a3,a4,a5,a6,a7⟩ := h.frame; obtain ⟨b1,b2,b3,b4,b5,b6,b7⟩ := h'.frame; exact ⟨b1.trans a1, b2.trans a2, b3.trans a3, b4.trans a4, b5.trans a5, b6.trans a6, b7.trans a7⟩⟩

theorem Untouched.upd {a b b'} (h : Untouched a b) (h' : b'.cfg = b.cfg ∧ b'.cardClass = b.cardClass ∧
    b'.blockAddressing = b.blockAddressing ∧ b'.checksumEnabled = b.checksumEnabled ∧ b'.table = b.table ∧
    b'.tableBuilt = b.tableBuilt ∧ b'.csHeld = b.csHeld ∧ b'.reg16 = b.reg16 ∧ b'.dbuf = b.dbuf ∧ b'.rbuf = b.rbuf ∧
    b'.outBlock = b.outBlock ∧ b'.outReg = b.outReg ∧ b'.reqPort = b.reqPort ∧
    b'.wire = b.wire := by and_intros <;> rfl) : Untouched a b' := by
  obtain ⟨h1,h2,h3,h4,h5,h6,h7,h8⟩ := h'
  exact ⟨h1.trans h.cfg, h2.trans h.cc, h3.trans h.ba, h4.trans h.ce, h5.trans h.table, h6.trans h.tb, h7.trans h.cs, by rw [h8.1, h8.2.1, h8.2.2.1, h8.2.2.2.1, h8.2.2.2.2.1, h8.2.2.2.2.2.1, h8.2.2.2.2.2.2]; exact h.frame⟩

theorem Exchanged.untouched {s t c r}
    (h : Exchanged s t c r) : Untouched s t := ⟨h.cfg, h.cc, h.ba, h.ce, h.table, h.tb, h.cs, h.frame⟩

/-- One iteration of the init loop whose responses arrive: another one if the idle flag is set. -/
theorem acmdLoop_one {s : State} {a : AcmdTry} {idle} {hcs rest n} (ht : s.table = builtTable) (ha : a.Ends s.cfg idle)
    (h : s.answers = a.answers ++ rest) :
   ∃ t, acmdLoop (n+1) hcs s = (if idle then acmdLoop n hcs t else .done () t) ∧ Untouched s t ∧
       t.calls = s.calls ++ a.calls s.cfg hcs ∧ t.answers = rest ∧ t.npath = s.npath ∧ t.nstate = s.nstate ∧ t.cls = s.cls ∧
       t.voltageAccepted = s.voltageAccepted ∧ t.acmdDone = s.acmdDone + 1 := by
  obtain ⟨h55, h41, hi⟩ := ha
  obtain ⟨u, hu, eu⟩ := xchgShort_exchanged (rest := a.w41.answers ++ rest) h55 ht (by simpa [AcmdTry.answers] using h) 55 0
  obtain ⟨v, hv, ev⟩ := xchgShort_exchanged (s := u) (rest := rest) (by rw [eu.cfg]; exact h41) (eu.table.trans ht) eu.answers 41 hcs
  refine ⟨setAcmdDone (v.acmdDone + 1) v, ?_, ?_, ?_, ?_, ?_, ?_, ?_, ?_, ?_⟩
  · simp only [acmdLoop, hu, hv, Proc.done_andThen, hi]
  · have := eu.untouched.trans ev.untouched; exact ⟨this.cfg, this.cc, this.ba, this.ce, this.table, this.tb, this.cs, this.frame⟩
  · simp [setAcmdDone, ev.calls, eu.calls, AcmdTry.calls, eu.cfg]
  · exact ev.answers
  · exact ev.npath.trans eu.npath
  · exact ev.nstate.trans eu.nstate
  · exact ev.cls.trans eu.cls
  · exact ev.volt.trans eu.volt
  · simp [setAcmdDone, ev.acmd, eu.acmd]

/-- Iterations that all end with the idle flag set. -/
theorem acmdLoop_many {s : State} {tries : List AcmdTry} {hcs rest n} (ht : s.table = builtTable)
    (ha : ∀ a ∈ tries, a.Ends s.cfg true) (h : s.answers = tries.flatMap AcmdTry.answers ++ rest) (hc : s.csHeld = false) :
   ∃ t, acmdLoop (tries.length + n) hcs s = acmdLoop n hcs t ∧ Untouched s t ∧
       t.calls = s.calls ++ tries.flatMap (AcmdTry.calls s.cfg hcs) ∧ t.answers = rest ∧ t.npath = s.npath ∧
       t.nstate = s.nstate ∧ t.cls = s.cls ∧ t.voltageAccepted = s.voltageAccepted ∧
       t.acmdDone = s.acmdDone + tries.length := by
  induction tries generalizing s with
  | nil => exact ⟨s, by simp, ⟨rfl,rfl,rfl,rfl,rfl,rfl,hc,rfl,rfl,rfl,rfl,rfl,rfl,rfl⟩, by simp, by simpa using h, rfl, rfl, rfl, rfl, rfl⟩
  | cons a tries ih =>
    obtain ⟨u, hu, su, cu, au, nu, xu, clu, vu, du⟩ := acmdLoop_one (hcs := hcs) (n := tries.length + n) (rest := tries.flatMap AcmdTry.answers ++ rest) ht (ha a (by simp)) (by simpa using h)
    obtain ⟨t, hht, st, ct, at', nt, xt, clt, vt, dt⟩ := ih (s := u) (su.table.trans ht) (by rw [su.cfg]; exact fun b hb => ha b (by simp [hb])) au su.cs
    refine ⟨t, ?_, su.trans st, ?_, at', nt.trans nu, xt.trans xu, clt.trans clu, vt.trans vu, ?_⟩
    · rw [List.length_cons, show tries.length + 1 + n = tries.length + n + 1 by omega, hu, if_pos rfl, hht]
    · simp [ct, cu, su.cfg]
    · simp [dt, du]; omega

/-- One mismatching probe. -/
theorem probeLoop_miss {s : State} {m : R1Wait × Bytes4} {rest n} (ht : s.table = builtTable) (hm : ProbeMiss s.cfg m)
    (h : s.answers = missAnswers m ++ rest) :
   ∃ t, probeLoop (n+1) s = probeLoop n t ∧ Untouched s t ∧ t.calls = s.calls ++ probeCalls s.cfg m.1 true ∧
       t.answers = rest ∧ t.npath = s.npath ∧ t.nstate = s.nstate ∧ t.cls = s.cls ∧ t.voltageAccepted = s.voltageAccepted := by
  obtain ⟨hw, h2, h3⟩ := hm
  obtain ⟨u, hu, eu, xu⟩ := xchgLong_exchanged (e := m.2) hw ht h 8 probeArg wantIfCond (by show (!m.1.r1.getLsbD 2) = true; rw [h2]; rfl)
  refine ⟨setProbeLeft n u, ?_, ⟨eu.cfg, eu.cc, eu.ba, eu.ce, eu.table, eu.tb, eu.cs, eu.frame⟩, ?_, eu.answers, eu.npath, eu.nstate, eu.cls, eu.volt⟩
  · have : echoMatches m.2 = false := by
      rw [Bool.eq_false_iff]; intro h; exact h3 ((echoMatches_iff _).1 h)
    simp only [probeLoop, hu, Proc.done_andThen, h2, xu, this, if_false, Bool.false_eq_true]
  · exact eu.calls

/-- Mismatching probes in a row. -/
theorem probeLoop_misses {s : State} {ms : List (R1Wait × Bytes4)} {rest n} (ht : s.table = builtTable)
    (ha : ∀ a ∈ ms, ProbeMiss s.cfg a) (h : s.answers = ms.flatMap missAnswers ++ rest) (hc : s.csHeld = false) :
   ∃ t, probeLoop (ms.length + n) s = probeLoop n t ∧ Untouched s t ∧
       t.calls = s.calls ++ ms.flatMap (fun m => probeCalls s.cfg m.1 true) ∧ t.answers = rest ∧ t.npath = s.npath ∧
       t.nstate = s.nstate ∧ t.cls = s.cls ∧ t.voltageAccepted = s.voltageAccepted := by
  induction ms generalizing s with
  | nil => exact ⟨s, by simp, ⟨rfl,rfl,rfl,rfl,rfl,rfl,hc,rfl,rfl,rfl,rfl,rfl,rfl,rfl⟩, by simp, by simpa using h, rfl, rfl, rfl, rfl⟩
  | cons a ms ih =>
    obtain ⟨u, hu, su, cu, au, nu, xu, clu, vu⟩ := probeLoop_miss (n := ms.length + n) (rest := ms.flatMap missAnswers ++ rest) ht (ha a (by simp)) (by simpa using h)
    obtain ⟨t, hht, st, ct, at', nt, xt, clt, vt⟩ := ih (s := u) (su.table.trans ht) (by rw [su.cfg]; exact fun b hb => ha b (by simp [hb])) au su.cs
    refine ⟨t, ?_, su.trans st, ?_, at', nt.trans nu, xt.trans xu, clt.trans clu, vt.trans vu⟩
    · rw [List.length_cons, show ms.length + 1 + n = ms.length + n + 1 by omega, hu, hht]
    · simp [ct, cu, su.cfg]

theorem Untouched.of_enterN {s t : State} {n} (h : Untouched
    (enterN n s) t) : Untouched s t := ⟨h.cfg, h.cc, h.ba, h.ce, h.table, h.tb, h.cs, h.frame⟩

/-- The states before the init loop, for a transport that takes NEGOTIATE there. -/
theorem negotiationStates_probed {s : State} {p : ProbeScript} {rest} (ht : s.table = builtTable)
    (hp : p.Decides s.cfg) (h : s.answers = p.answers ++ rest) (hv : s.voltageAccepted = false) (hn : s.npath = [])
    (hk : s.calls = []) :
  ∃ t, negotiationStates s = ((acmdInitLoop t).andThen fun _ s => (readOcrFinal s).andThen fun _ s => becomeReady s) ∧
      Untouched s t ∧ t.calls = p.calls s.cfg ∧ t.answers = rest ∧ t.npath ++ [.acmdInitLoop] = p.path ∧
      t.cls = (if p.legacy then .legacyV1 else .standardV2) ∧ t.voltageAccepted = !p.legacy := by
  obtain ⟨w0, w1, w2, w3, w4⟩ := hp
  obtain ⟨u, hu, eu⟩ := xchgShort_exchanged (s := enterN .resetIdle (enterN .start s)) (w := p.w0) w0 ht (rest := p.misses.flatMap missAnswers ++
    (if p.legacy then p.w8.answers else extAnswers p.w8 p.e8 ++ p.ocrAnswers) ++ rest) (by simpa [ProbeScript.answers] using h) 0 0
  obtain ⟨v, hv', sv, cv, av, nv, xv, clv, vv⟩ := probeLoop_misses (s := setProbeLeft 3 (enterN .probeInterface u)) (ms := p.misses) (n := 3 - p.misses.length) (rest := (if p.legacy then p.w8.answers else extAnswers p.w8 p.e8 ++ p.ocrAnswers) ++ rest) (eu.table.trans ht) (by intro a ha; have := w2 a ha; simpa [eu.cfg] using this) (by simp [eu.answers]) (by simp [eu.cs])
  rw [show p.misses.length + (3 - p.misses.length) = 3 by omega] at hv'
  obtain ⟨k, hk'⟩ : ∃ k, 3 - p.misses.length = k + 1 := ⟨2 - p.misses.length, by omega⟩
  rw [hk'] at hv'
  have hcfg : v.cfg = s.cfg := by rw [sv.cfg]; simp [eu.cfg]
  have ht' : v.table = builtTable := by rw [sv.table]; simp [eu.table, ht]
  have hsm : Untouched s v := by
    have := eu.untouched.of_enterN.of_enterN.trans (Untouched.of_enterN (n := .probeInterface) (s := u) (t := v) ⟨sv.cfg, sv.cc, sv.ba, sv.ce, sv.table, sv.tb, sv.cs, sv.frame⟩)
    exact this
  have e1 : resetIdle s = .done () u := by rw [resetIdle, hu]; rfl
  have e2 : probeInterface u = probeLoop (k+1) v := by simp only [probeInterface, Config.nProbe, hv']
  cases hl : p.legacy
  · obtain ⟨hb3, hw58⟩ := w4 hl
    have hl' : p.w8.r1.getLsbD 2 = false := hl
    simp only [hl, if_false, Bool.false_eq_true] at av
    obtain ⟨t, ht1, et, xt⟩ := xchgLong_exchanged (s := v) (w := p.w8) (e := p.e8) (rest := p.ocrAnswers ++ rest) (by rw [hcfg]; exact w3) ht' (by simpa using av) 8 probeArg wantIfCond (by show (!p.w8.r1.getLsbD 2) = true; rw [hl']; rfl)
    have e3 : probeLoop (k+1) v = .done () (setVoltage true (setCls .standardV2 t)) := by
      have hj : judgeIfCond t = setVoltage true (setCls .standardV2 t) := by
        unfold judgeIfCond
        rw [if_pos]; refine ⟨?_, ?_⟩
        · rw [et.nstate, xv]; rfl
        · rw [xt, echoMatches_iff, hb3]
      simp only [probeLoop, ht1, Proc.done_andThen, hl', xt, (echoMatches_iff p.e8).2 hb3, if_true, hj, if_false, Bool.false_eq_true]
    let t' := setVoltage true (setCls .standardV2 t)
    have hcfg' : (enterN .readOcrInitial t').cfg = s.cfg := by show t.cfg = _; rw [et.cfg, hcfg]
    have htt : (enterN .readOcrInitial t').table = builtTable := et.table.trans ht'
    by_cases hidle : p.w58.r1.getLsbD 0 = true
    · obtain ⟨x, hx, ex, -⟩ := xchgLong_exchanged (s := enterN .readOcrInitial t') (w := p.w58) (e := p.e58) (rest := rest) (by rw [hcfg']; exact hw58) htt (by have := et.answers; simpa [t', ProbeScript.ocrAnswers, hidle] using this) 58 0 (wantOcr .readOcrInitial) (by simpa [wantOcr] using hidle)
      refine ⟨x, ?_, ?_, ?_, ex.answers, ?_, ?_, ?_⟩
      · have : judgeOcr x = x := by unfold judgeOcr; rw [if_neg]; rw [ex.nstate]; simp
        simp only [negotiationStates, e1, e2, e3, Proc.done_andThen]
        rw [readOcrInitial, if_neg (by simp)]
        simp only [t'] at hx
        simp only [hx, Proc.done_andThen, this]
      · exact hsm.trans ((show Untouched v t' from et.untouched.upd).trans (Untouched.of_enterN (s := t') ex.untouched))
      · rw [ex.calls]; show t.calls ++ _ = _
        rw [et.calls, cv]; show (u.calls ++ _) ++ _ ++ _ = _; rw [eu.calls]
        have hc2 : t'.cfg = s.cfg := hcfg'
        have : p.w58.r1[0] = p.w58.r1.getLsbD 0 := by simp
        simp [ProbeScript.calls, hl, hk, hcfg, hc2, probeCalls, probeArg_eq, eu.cfg]
        try (rw [this, hidle])
      · rw [ex.npath]; show (t.npath ++ _) ++ _ = _
        rw [et.npath, nv]; show ((u.npath ++ _) ++ _) ++ _ = _; rw [eu.npath]; simp [ProbeScript.path, hl, hn]
      · rw [ex.cls]; simp [t']
      · rw [ex.volt]; simp [t']
    · simp at hidle
      obtain ⟨x, hx, ex⟩ := xchgLong_exchanged_short (s := enterN .readOcrInitial t') (w := p.w58) (rest := rest) (by rw [hcfg']; exact hw58) htt (by have := et.answers; simpa [t', ProbeScript.ocrAnswers, hidle] using this) 58 0 (wantOcr .readOcrInitial) (by simpa [wantOcr] using hidle)
      refine ⟨x, ?_, ?_, ?_, ex.answers, ?_, ?_, ?_⟩
      · have : judgeOcr x = x := by unfold judgeOcr; rw [if_neg]; rw [ex.nstate]; simp
        simp only [negotiationStates, e1, e2, e3, Proc.done_andThen]
        rw [readOcrInitial, if_neg (by simp)]
        simp only [t'] at hx
        simp only [hx, Proc.done_andThen, this]
      · exact hsm.trans ((show Untouched v t' from et.untouched.upd).trans (Untouched.of_enterN (s := t') ex.untouched))
      · rw [ex.calls]; show t.calls ++ _ = _
        rw [et.calls, cv]; show (u.calls ++ _) ++ _ ++ _ = _; rw [eu.calls]
        have hc2 : t'.cfg = s.cfg := hcfg'
        have : p.w58.r1[0] = p.w58.r1.getLsbD 0 := by simp
        simp [ProbeScript.calls, hl, hidle, hk, hcfg, hc2, probeCalls, probeArg_eq, eu.cfg]
        try (rw [this, hidle])
      · rw [ex.npath]; show (t.npath ++ _) ++ _ = _
        rw [et.npath, nv]; show ((u.npath ++ _) ++ _) ++ _ = _; rw [eu.npath]; simp [ProbeScript.path, hl, hn]
      · rw [ex.cls]; simp [t']
      · rw [ex.volt]; simp [t']
  · have hl' : p.w8.r1.getLsbD 2 = true := hl
    simp only [hl, if_true] at av
    obtain ⟨t, ht1, et⟩ := xchgLong_exchanged_short (s := v) (w := p.w8) (rest := rest) (by rw [hcfg]; exact w3) ht' (by simpa using av) 8 probeArg wantIfCond (by show (!p.w8.r1.getLsbD 2) = false; rw [hl']; rfl)
    refine ⟨setCls .legacyV1 t, ?_, hsm.trans ⟨et.cfg, et.cc, et.ba, et.ce, et.table, et.tb, et.cs, et.frame⟩, ?_, et.answers, ?_, by simp, ?_⟩
    · simp only [negotiationStates, e1, e2, probeLoop, ht1, Proc.done_andThen, hl', if_true, readOcrInitial]
      rfl
    · show t.calls = _
      rw [et.calls, cv]; show (u.calls ++ _) ++ _ = _; rw [eu.calls]
      simp [ProbeScript.calls, hl, hk, hcfg, probeCalls, probeArg_eq, eu.cfg]
    · show t.npath ++ _ = _
      rw [et.npath, nv]; show ((u.npath ++ _) ++ _) = _; rw [eu.npath]; simp [ProbeScript.path, hl, hn]
    · show t.voltageAccepted = _
      rw [et.volt, vv]; show u.voltageAccepted = _; rw [eu.volt]; simp [hv]

end Sys2Proof.Machine
end

