-- ==== Sys2Proof/Laws/PerInstr.lean ====
section
/-! SUPPORT. A law of every instruction as syntax: how many bytes its encoding has. A frame is "6-byte" (R71), an R1 is one byte
(R76), an extended response is four (R78), a register block operand is sixteen (R82); the request port's layout is the model's (log 2). -/

namespace Sys2Proof.Laws.EncodedLength

open Sys2Proof

/-- The bytes of an encoded instruction. -/
def encodedLength : Instr → Nat
  | .crc7 m | .crc16 m => 2 * m.length + 2
  | .encodeCmd _ _ => 6
  | .decodeR1 _ | .encodeR1 _ => 2
  | .decodeOcr _ | .decodeIfCond _ | .readBlock _ => 5
  | .decodeCid _ | .decodeCsd _ => 17
  | .setDataChecksum _ | .setSpeedClass _ => 2
  | .buildTable | .negotiate | .readCid | .readCsd | .cardClass | .blockLength | .sessionReset | .blockAddressing => 1
  | .cmd0 _ _ | .cmd8 _ _ | .cmd9 _ _ | .cmd10 _ _ | .cmd17 _ _ | .cmd41 _ _ | .cmd55 _ _ | .cmd58 _ _ | .cmd59 _ _
  | .cmdAny _ _ _ => 6
  | .r1Response _ | .startToken => 1
  | .ocrView _ | .ifCondView _ => 4

/-- A well-formed instruction's encoding has that many bytes. -/
def Statement (i : Instr) : Prop := i.wellFormed = true → (encode i).length = encodedLength i

/-- A byte sequence on the request port takes two bytes a byte, and its end mark. -/
theorem writeMessage_length (l : List Byte) : (writeMessage l).length = 2 * l.length + 1 := by
  induction l with
  | nil => rfl
  | cons b l ih => simp [writeMessage, ih]; omega

theorem buildTable : Statement Instr.buildTable := fun _ => rfl

theorem crc7 (msg : List Byte) : Statement (Instr.crc7 msg) := fun _ => by simp [encode, encodedLength, writeMessage_length]

theorem crc16 (data : List Byte) : Statement (Instr.crc16 data) := fun _ => by simp [encode, encodedLength, writeMessage_length]

theorem encodeCmd (index : BitVec 6) (arg : Word) : Statement (Instr.encodeCmd index arg) := fun _ => rfl

theorem decodeR1 (b : Byte) : Statement (Instr.decodeR1 b) := fun _ => rfl

theorem encodeR1 (r : R1Status) : Statement (Instr.encodeR1 r) := fun _ => rfl

theorem decodeOcr (e : Bytes4) : Statement (Instr.decodeOcr e) := fun _ => rfl

theorem decodeIfCond (e : Bytes4) : Statement (Instr.decodeIfCond e) := fun _ => rfl

theorem decodeCid (p : List Byte) : Statement (Instr.decodeCid p) := fun h => by simp_all [encode, encodedLength, Instr.wellFormed]

theorem decodeCsd (p : List Byte) : Statement (Instr.decodeCsd p) := fun h => by simp_all [encode, encodedLength, Instr.wellFormed]

theorem negotiate : Statement Instr.negotiate := fun _ => rfl

theorem readBlock (index : Word) : Statement (Instr.readBlock index) := fun _ => rfl

theorem readCid : Statement Instr.readCid := fun _ => rfl

theorem readCsd : Statement Instr.readCsd := fun _ => rfl

theorem setDataChecksum (enabled : Bool) : Statement (Instr.setDataChecksum enabled) := fun _ => rfl

theorem setSpeedClass (c : SpeedClass) : Statement (Instr.setSpeedClass c) := fun _ => by cases c <;> rfl

theorem cardClass : Statement Instr.cardClass := fun _ => rfl

theorem blockLength : Statement Instr.blockLength := fun _ => rfl

theorem sessionReset : Statement Instr.sessionReset := fun _ => rfl

theorem blockAddressing : Statement Instr.blockAddressing := fun _ => rfl

theorem cmd0 (arg : Word) (crc : BitVec 7) : Statement (Instr.cmd0 arg crc) := fun _ => rfl

theorem cmd8 (arg : Word) (crc : BitVec 7) : Statement (Instr.cmd8 arg crc) := fun _ => rfl

theorem cmd9 (arg : Word) (crc : BitVec 7) : Statement (Instr.cmd9 arg crc) := fun _ => rfl

theorem cmd10 (arg : Word) (crc : BitVec 7) : Statement (Instr.cmd10 arg crc) := fun _ => rfl

theorem cmd17 (arg : Word) (crc : BitVec 7) : Statement (Instr.cmd17 arg crc) := fun _ => rfl

theorem cmd41 (arg : Word) (crc : BitVec 7) : Statement (Instr.cmd41 arg crc) := fun _ => rfl

theorem cmd55 (arg : Word) (crc : BitVec 7) : Statement (Instr.cmd55 arg crc) := fun _ => rfl

theorem cmd58 (arg : Word) (crc : BitVec 7) : Statement (Instr.cmd58 arg crc) := fun _ => rfl

theorem cmd59 (arg : Word) (crc : BitVec 7) : Statement (Instr.cmd59 arg crc) := fun _ => rfl

theorem cmdAny (index : BitVec 6) (arg : Word) (crc : BitVec 7) : Statement (Instr.cmdAny index arg crc) := fun _ => rfl

theorem r1Response (r : R1Status) : Statement (Instr.r1Response r) := fun _ => rfl

theorem startToken : Statement Instr.startToken := fun _ => rfl

theorem ocrView (e : Bytes4) : Statement (Instr.ocrView e) := fun _ => rfl

theorem ifCondView (e : Bytes4) : Statement (Instr.ifCondView e) := fun _ => rfl

end Sys2Proof.Laws.EncodedLength
end

