-- ==== Sys2Proof/Tests/Slice0.lean ====
section
/-! SUPPORT. Tests. Expected values are the source's oracle values and the vectors of 95_test_vectors.md (E1, E2, V1 ..., P1 ...),
or words written out from the encodings of 30_encoding.md. -/

namespace Sys2Proof.Tests

open Sys2Proof Machine

/-! ### Ill-formed terms, one for each check of WellFormed -/

theorem test_wf_cid_block_of_15_bytes : (Instr.decodeCid (List.replicate 15 0)).wellFormed = false := by decide

theorem test_wf_csd_block_of_17_bytes : (Instr.decodeCsd (List.replicate 17 0)).wellFormed = false := by decide

theorem test_wf_frame_checksums : ([.cmd0 0 0x4B, .cmd8 0x1AA 0x44, .cmd9 0 0, .cmd10 0 0, .cmd17 0 0, .cmd41 0 0, .cmd55 0 0,
    .cmd58 0 0, .cmd59 0 0, .cmdAny 63 0 0] : List Instr).all (fun i => !i.wellFormed) = true := by decide +kernel

theorem test_wf_general_frame_of_a_listed_index : (Instr.cmdAny 0 0 0x4A).wellFormed = false := by decide +kernel

theorem test_wf_r1_with_zero_bit : (Instr.r1Response (decodeR1Byte 0x80)).wellFormed = false := by decide

/-! ### Decoding: words written out from the encodings (R86, R72, R76, R199, R78, R79) -/

theorem test_decode_build_table : decode .request [0x00, 0x10] = .instr .buildTable [0x10] := by decide

theorem test_decode_crc7_message : decode .request [0x01, 0x01, 0xAB, 0x01, 0xCD, 0x00, 0x11] = .instr (.crc7 [0xAB, 0xCD]) [0x11] := by
  decide

theorem test_decode_crc16_message : decode .request [0x02, 0x01, 0x31, 0x00] = .instr (.crc16 [0x31]) [] := by decide

theorem test_decode_encode_cmd : decode .request [0x03, 0x11, 0x00, 0x00, 0x02, 0x00] = .instr (.encodeCmd 17 0x200) [] := by decide

theorem test_decode_one_byte_operands : decode .request [0x04, 0x05] = .instr (.decodeR1 0x05) [] ∧
    decode .request [0x05, 0x05] = .instr (.encodeR1 ⟨true, false, true, false, false, false, false, false⟩) [] ∧
    decode .request [0x0E, 0x01] = .instr (.setDataChecksum true) [] ∧
    decode .request [0x0F, 0x01] = .instr (.setSpeedClass .operational) [] := by decide

theorem test_decode_four_byte_operands : decode .request [0x06, 0xC0, 0xFF, 0x80, 0x00] = .instr (.decodeOcr ⟨0xC0, 0xFF, 0x80, 0x00⟩) [] ∧
    decode .request [0x07, 0x00, 0x00, 0x01, 0xAA] = .instr (.decodeIfCond ⟨0x00, 0x00, 0x01, 0xAA⟩) [] ∧
    decode .request [0x0B, 0x00, 0x00, 0x00, 0x07] = .instr (.readBlock 7) [] := by decide

theorem test_decode_register_blocks : decode .request (0x08 :: List.replicate 16 7) = .instr (.decodeCid (List.replicate 16 7)) [] ∧
    decode .request (0x09 :: List.replicate 16 7) = .instr (.decodeCsd (List.replicate 16 7)) [] := by decide

theorem test_decode_operations_without_operand :
    ([0x0A, 0x0C, 0x0D, 0x10, 0x11, 0x12, 0x13] : List Byte).map (fun c => decode .request [c]) =
      ([.negotiate, .readCid, .readCsd, .cardClass, .blockLength, .sessionReset, .blockAddressing] : List Instr).map
        (fun i => .instr i []) := by decide

/-- V68. -/
theorem test_decode_unassigned_code : decode .request [0x14] = .badCode 0x14 [] ∧ decode .request [0xFF] = .badCode 0xFF [] := by decide

/-- Frames of V1 to V13 and V15, whole. -/
theorem test_decode_frames :
    ([[0x40, 0, 0, 0, 0, 0x95], [0x48, 0, 0, 0x01, 0xAA, 0x87], [0x49, 0, 0, 0, 0, 0xAF], [0x4A, 0, 0, 0, 0, 0x1B],
      [0x51, 0, 0, 0x02, 0, 0x79], [0x77, 0, 0, 0, 0, 0x65], [0x69, 0x40, 0, 0, 0, 0x77], [0x7A, 0, 0, 0, 0, 0xFD],
      [0x7B, 0, 0, 0, 1, 0x83], [0x7F, 0xFF, 0xFF, 0xFF, 0xFF, 0x19]] : List (List Byte)).map (decode .frame) =
    ([.cmd0 0 0x4A, .cmd8 0x1AA 0x43, .cmd9 0 0x57, .cmd10 0 0x0D, .cmd17 0x200 0x3C, .cmd55 0 0x32, .cmd41 0x40000000 0x3B,
      .cmd58 0 0x7E, .cmd59 1 0x41, .cmdAny 63 0xFFFFFFFF 0x0C] : List Instr).map (fun i => .instr i []) := by decide +kernel

theorem test_decode_received_items : decode .r1 [0x05] = .instr (.r1Response ⟨true, false, true, false, false, false, false, false⟩) [] ∧
    decode .token [0xFE] = .instr .startToken [] ∧ decode .ocr [1, 2, 3, 4] = .instr (.ocrView ⟨1, 2, 3, 4⟩) [] ∧
    decode .ifCond [1, 2, 3, 4] = .instr (.ifCondView ⟨1, 2, 3, 4⟩) [] := by decide

theorem test_decode_rejections : decode .r1 [0x80] = .badR1 ∧ decode .token [0xFF] = .badToken ∧
    decode .frame [0xC0, 0, 0, 0, 0, 0x95] = .badFrame ∧ decode .frame [0x40, 0, 0, 0, 0, 0x94] = .badFrame ∧
    decode .request [0x0E, 0x02] = .badOperand ∧ decode .request [0x03, 0x40, 0, 0, 0, 0] = .badOperand := by decide

/-! ### The Checksum Unit -/

/-- The listing of R111, row by row. -/
theorem test_table_listing_first_half : tableBytesOfSpec.take 128 =
    [0x00, 0x09, 0x12, 0x1B, 0x24, 0x2D, 0x36, 0x3F, 0x48, 0x41, 0x5A, 0x53, 0x6C, 0x65, 0x7E, 0x77] ++
    [0x19, 0x10, 0x0B, 0x02, 0x3D, 0x34, 0x2F, 0x26, 0x51, 0x58, 0x43, 0x4A, 0x75, 0x7C, 0x67, 0x6E] ++
    [0x32, 0x3B, 0x20, 0x29, 0x16, 0x1F, 0x04, 0x0D, 0x7A, 0x73, 0x68, 0x61, 0x5E, 0x57, 0x4C, 0x45] ++
    [0x2B, 0x22, 0x39, 0x30, 0x0F, 0x06, 0x1D, 0x14, 0x63, 0x6A, 0x71, 0x78, 0x47, 0x4E, 0x55, 0x5C] ++
    [0x64, 0x6D, 0x76, 0x7F, 0x40, 0x49, 0x52, 0x5B, 0x2C, 0x25, 0x3E, 0x37, 0x08, 0x01, 0x1A, 0x13] ++
    [0x7D, 0x74, 0x6F, 0x66, 0x59, 0x50, 0x4B, 0x42, 0x35, 0x3C, 0x27, 0x2E, 0x11, 0x18, 0x03, 0x0A] ++
    [0x56, 0x5F, 0x44, 0x4D, 0x72, 0x7B, 0x60, 0x69, 0x1E, 0x17, 0x0C, 0x05, 0x3A, 0x33, 0x28, 0x21] ++
    [0x4F, 0x46, 0x5D, 0x54, 0x6B, 0x62, 0x79, 0x70, 0x07, 0x0E, 0x15, 0x1C, 0x23, 0x2A, 0x31, 0x38] := by decide +kernel

theorem test_table_listing_second_half : tableBytesOfSpec.drop 128 =
    [0x41, 0x48, 0x53, 0x5A, 0x65, 0x6C, 0x77, 0x7E, 0x09, 0x00, 0x1B, 0x12, 0x2D, 0x24, 0x3F, 0x36] ++
    [0x58, 0x51, 0x4A, 0x43, 0x7C, 0x75, 0x6E, 0x67, 0x10, 0x19, 0x02, 0x0B, 0x34, 0x3D, 0x26, 0x2F] ++
    [0x73, 0x7A, 0x61, 0x68, 0x57, 0x5E, 0x45, 0x4C, 0x3B, 0x32, 0x29, 0x20, 0x1F, 0x16, 0x0D, 0x04] ++
    [0x6A, 0x63, 0x78, 0x71, 0x4E, 0x47, 0x5C, 0x55, 0x22, 0x2B, 0x30, 0x39, 0x06, 0x0F, 0x14, 0x1D] ++
    [0x25, 0x2C, 0x37, 0x3E, 0x01, 0x08, 0x13, 0x1A, 0x6D, 0x64, 0x7F, 0x76, 0x49, 0x40, 0x5B, 0x52] ++
    [0x3C, 0x35, 0x2E, 0x27, 0x18, 0x11, 0x0A, 0x03, 0x74, 0x7D, 0x66, 0x6F, 0x50, 0x59, 0x42, 0x4B] ++
    [0x17, 0x1E, 0x05, 0x0C, 0x33, 0x3A, 0x21, 0x28, 0x5F, 0x56, 0x4D, 0x44, 0x7B, 0x72, 0x69, 0x60] ++
    [0x0E, 0x07, 0x1C, 0x15, 0x2A, 0x23, 0x38, 0x31, 0x46, 0x4F, 0x54, 0x5D, 0x62, 0x6B, 0x70, 0x79] := by decide +kernel

/-- V18, both forms. -/
theorem test_crc7_digits : crc7Bits [0x31, 0x32, 0x33, 0x34, 0x35, 0x36, 0x37, 0x38, 0x39] = 0x75 ∧
    crc7Over (Memory.read builtTable) [0x31, 0x32, 0x33, 0x34, 0x35, 0x36, 0x37, 0x38, 0x39] = 0x75 := by decide +kernel

/-- V20 (the source's), V21 to V27. -/
theorem test_crc16_values : crc16 [] = 0x0000 ∧ crc16 [0x00] = 0x78F0 ∧ crc16 [0xFF] = 0x00FF ∧ crc16 [0x01] = 0xF1E1 ∧
    crc16 [0x80] = 0x7074 ∧ crc16 [0x41] = 0xF5A3 ∧ crc16 [0x31, 0x32, 0x33, 0x34, 0x35, 0x36, 0x37, 0x38, 0x39] = 0x6E90 ∧
    crc16 (List.replicate 16 0) = 0xA9AF := by decide +kernel

/-! ### One step of each operation, on small states -/

/-- The state after reset and BUILD_TABLE, with budgets 8 and 16 (the example values of 95_test_vectors.md). -/
def built : State := { State.reset with table := builtTable, tableBuilt := true, cfg := ⟨7, 15, 0, 0⟩ }

/-- The response a step leaves. -/
def respOf : Host.Outcome State Fault Refusal → Option Response
  | .next s => s.resp
  | .fault _ => none
  | .refused _ => none

/-- The calls a step makes. -/
def callsOf : Host.Outcome State Fault Refusal → List Call
  | .next s => s.calls
  | .fault _ => []
  | .refused _ => []

/-- The session a step leaves. -/
def sessionOf : Host.Outcome State Fault Refusal → Option (CardClass × Addressing × Bool)
  | .next s => some (s.cardClass, s.blockAddressing, s.checksumEnabled)
  | .fault _ => none
  | .refused _ => none

/-- P1 steps 1, 2. -/
theorem test_crc7_without_table : respOf (exec (.crc7 [0x40, 0, 0, 0, 0]) State.reset) = some ⟨.tableNotBuilt, .none⟩ ∧
    respOf (exec (.crc16 []) State.reset) = some ⟨.ok, .u16 0⟩ := by decide +kernel

/-- E1: the oracle values. -/
theorem test_crc7_oracle : respOf (exec (.crc7 [0x40, 0, 0, 0, 0]) built) = some ⟨.ok, .u7 0x4A⟩ ∧
    respOf (exec (.crc7 [0x48, 0, 0, 0x01, 0xAA]) built) = some ⟨.ok, .u7 0x43⟩ := by decide +kernel

/-- V1, V14. -/
theorem test_encode_cmd : respOf (exec (.encodeCmd 0 0) built) = some ⟨.ok, .frame ⟨0x40, 0, 0, 0, 0, 0x95⟩⟩ ∧
    respOf (exec (.encodeCmd 17 0xFFFFFFFF) built) = some ⟨.ok, .frame ⟨0x51, 0xFF, 0xFF, 0xFF, 0xFF, 0x7F⟩⟩ := by decide +kernel

/-- V32b, V34, V34e, V35b. -/
theorem test_small_decoders :
    respOf (exec (.decodeR1 0x05) State.reset) = some ⟨.ok, .r1Status ⟨true, false, true, false, false, false, false, false⟩⟩ ∧
    respOf (exec (.decodeOcr ⟨0xC0, 0xFF, 0x80, 0x00⟩) State.reset) = some ⟨.ok, .ocr ⟨true, true, 0x1FF⟩⟩ ∧
    respOf (exec (.decodeOcr ⟨0x3F, 0x00, 0x7F, 0xFF⟩) State.reset) = some ⟨.ok, .ocr ⟨false, false, 0⟩⟩ ∧
    respOf (exec (.decodeIfCond ⟨0x12, 0x34, 0x56, 0x78⟩) State.reset) = some ⟨.ok, .ifCond ⟨0b0110, 0x78⟩⟩ := by decide +kernel

/-- V33 on three bytes: the re-encoding reproduces the byte. -/
theorem test_encode_r1 : ([0x00, 0x5A, 0xFF] : List Byte).map (fun b => respOf (exec (.encodeR1 (decodeR1Byte b)) State.reset)) =
    [some ⟨.ok, .byte 0x00⟩, some ⟨.ok, .byte 0x5A⟩, some ⟨.ok, .byte 0xFF⟩] := by decide +kernel

/-- The register block of V36. -/
def cidBlock : List Byte :=
  [0x03, 0x53, 0x44, 0x53, 0x44, 0x31, 0x36, 0x47, 0x80, 0x12, 0x34, 0x56, 0x78, 0x01, 0x4A, 0x01]

/-- The register block of V37. -/
def csdBlock : List Byte :=
  [0x40, 0x0E, 0x00, 0x32, 0x5B, 0x59, 0x00, 0x00, 0x76, 0xB2, 0x7F, 0x80, 0x0A, 0x40, 0x40, 0x01]

theorem test_decode_cid : respOf (exec (.decodeCid cidBlock) State.reset) =
    some ⟨.ok, .cid ⟨0x03, 0x5344, [0x53, 0x44, 0x31, 0x36, 0x47], 0x80, 0x12345678, 0x14A⟩⟩ := by decide +kernel

/-- V37, V38: both layouts of the device size. -/
theorem test_decode_csd : respOf (exec (.decodeCsd csdBlock) State.reset) =
      some ⟨.ok, .csd ⟨1, 0x0E, 0x32, 0x5B5, 9, 0x0076B2⟩⟩ ∧
    respOf (exec (.decodeCsd [0x00, 0x26, 0x00, 0x32, 0x5F, 0x59, 0x83, 0xC8, 0xAD, 0xDB, 0xCF, 0xFF, 0xD2, 0x40, 0x40, 0xA5])
      State.reset) = some ⟨.ok, .csd ⟨0, 0x26, 0x32, 0x5F5, 9, 0x000F22⟩⟩ := by decide +kernel

/-- One exchange of a script: the frame is accepted, a filler byte, the R1 byte. -/
def reply (r1 : Byte) : List Answer := [.data [], .data [0xFF], .data [r1]]

/-- The script of P2 step 1. -/
def legacyScript : List Answer := reply 0x01 ++ reply 0x05 ++ reply 0x01 ++ reply 0x00

/-- P2 step 1: result, and the counts 4 select, 4 send, 8 xbyte, 0 recv, 4 deselect. -/
theorem test_negotiate_legacy : let o := exec .negotiate { built with answers := legacyScript }
    respOf o = some ⟨.ok, .cardClass .legacyV1⟩ ∧ sessionOf o = some (.legacyV1, .byteAddressed, false) ∧
    [isSelect, isSend, isXbyte, isRecv, isDeselect].map (fun k => countCalls k (callsOf o)) = [4, 4, 8, 0, 4] := by decide +kernel

/-- The script of P3 step 3. -/
def highCapacityScript : List Answer :=
  reply 0x01 ++ (reply 0x01 ++ [.data [0, 0, 1, 0xAA]]) ++ (reply 0x01 ++ [.data [0, 0xFF, 0x80, 0]]) ++ reply 0x01 ++
    reply 0x01 ++ reply 0x01 ++ reply 0x00 ++ (reply 0x00 ++ [.data [0xC0, 0xFF, 0x80, 0]])

/-- P3 step 3 (the mode was set before): counts 8, 8, 16, 3, 8. -/
theorem test_negotiate_high_capacity :
    let o := exec .negotiate { built with checksumEnabled := true, answers := highCapacityScript }
    respOf o = some ⟨.ok, .cardClass .highCapacityV2⟩ ∧ sessionOf o = some (.highCapacityV2, .blockAddressed, true) ∧
    [isSelect, isSend, isXbyte, isRecv, isDeselect].map (fun k => countCalls k (callsOf o)) = [8, 8, 16, 3, 8] := by decide +kernel

/-- A Ready session with the data-checksum mode on. -/
def readyHc : State :=
  { built with cardClass := .highCapacityV2, blockAddressing := .blockAddressed, checksumEnabled := true }

/-- V55: the teardown stands although the first send fails. -/
theorem test_negotiate_teardown_before_error :
    let o := exec .negotiate { readyHc with answers := [.tErr] }
    respOf o = some ⟨.timeout, .none⟩ ∧ sessionOf o = some (.unclassified, .byteAddressed, false) ∧
    callsOf o = [.select, .send [0x40, 0, 0, 0, 0, 0x95] 0, .deselect] := by decide +kernel

/-- The script of V40. -/
def cidScript : List Answer := reply 0x00 ++ [.data [0xFF], .data [0xFE], .data (cidBlock ++ [0, 0])]

/-- The script of V41. -/
def csdScript : List Answer := [.data [], .data [0x00], .data [0xFE], .data (csdBlock ++ [0xFF, 0xFF])]

/-- V40: the trailer is not checked, although the mode is on. -/
theorem test_read_cid : respOf (exec .readCid { readyHc with answers := cidScript }) =
    some ⟨.ok, .cid ⟨0x03, 0x5344, [0x53, 0x44, 0x31, 0x36, 0x47], 0x80, 0x12345678, 0x14A⟩⟩ := by decide +kernel

/-- V41. -/
theorem test_read_csd : respOf (exec .readCsd { readyHc with answers := csdScript }) =
    some ⟨.ok, .csd ⟨1, 0x0E, 0x32, 0x5B5, 9, 0x0076B2⟩⟩ := by decide +kernel

/-- A Ready session of a standard card. -/
def readySc : State := { built with cardClass := .standardV2 }

/-- V57, V57a: the frame a read sends, for the two addressing modes; the R1 ends it (V61: `04`). -/
theorem test_read_block_address :
    callsOf (exec (.readBlock 7) { readySc with answers := [.data [], .data [4]] }) =
      [.select, .send [0x51, 0, 0, 0x0E, 0, 0x91] 0, .xbyte 0xFF 0, .deselect] ∧
    callsOf (exec (.readBlock 7) { readyHc with answers := [.data [], .data [4]] }) =
      [.select, .send [0x51, 0, 0, 0, 7, 0x2B] 0, .xbyte 0xFF 0, .deselect] := by decide +kernel

/-- Whether a validation returns its payload. -/
def validated : Proc (List Byte) → Bool
  | .done _ _ => true
  | .raised _ _ => false

/-- The comparison of R201 on the one-byte payload of V21: the trailer right, its bytes exchanged (as V59a), and unchecked. -/
theorem test_validate : validated (validate .block true [0x00] 0x78F0 built) = true ∧
    validated (validate .block true [0x00] 0xF078 built) = false ∧
    validated (validate .block false [0x00] 0xF078 built) = true := by decide +kernel

/-- V56 with a payload of zeros: the mode is off and the trailer ignored. -/
theorem test_read_block : respOf (exec (.readBlock 0) { readySc with answers :=
    [.data [], .data [0], .data [0xFF], .data [0xFE], .data (List.replicate 514 7)] }) = some ⟨.ok, .block⟩ := by decide +kernel

/-- V62, V62a. -/
theorem test_read_gate : respOf (exec (.readBlock 0) built) = some ⟨.notReady, .none⟩ ∧
    respOf (exec (.readBlock 0) State.reset) = some ⟨.tableNotBuilt, .none⟩ := by decide +kernel

/-- V63, V64a. -/
theorem test_queries : ([.cardClass, .blockLength, .blockAddressing] : List Instr).map (fun i => respOf (exec i State.reset)) =
      [some ⟨.ok, .cardClass .unclassified⟩, some ⟨.ok, .u32 0⟩, some ⟨.ok, .addressing .byteAddressed⟩] ∧
    ([.cardClass, .blockLength, .blockAddressing] : List Instr).map (fun i => respOf (exec i readyHc)) =
      [some ⟨.ok, .cardClass .highCapacityV2⟩, some ⟨.ok, .u32 512⟩, some ⟨.ok, .addressing .blockAddressed⟩] := by decide +kernel

/-- V65, V67. -/
theorem test_session_toggles : callsOf (exec (.setSpeedClass .init) State.reset) = [.setDiv .init] ∧
    sessionOf (exec (.setDataChecksum true) State.reset) = some (.unclassified, .byteAddressed, true) ∧
    sessionOf (exec .sessionReset readyHc) = some (.unclassified, .byteAddressed, false) := by decide +kernel

/-- V46a: index 8 answered `05` reads no extended response. -/
theorem test_wire_cmd8_short : callsOf (exec (.cmd8 0x1AA 0x43) { built with answers := [.data [], .data [5]] }) =
    [.select, .send [0x48, 0, 0, 1, 0xAA, 0x87] 0, .xbyte 0xFF 0, .deselect] := by decide +kernel

/-- V44: no response within the budget of 8. -/
theorem test_wire_cmd0_timeout :
    let o := exec (.cmd0 0 0x4A) { built with answers := .data [] :: List.replicate 8 (.data [0xFF]) }
    respOf o = some ⟨.timeout, .none⟩ ∧ countCalls isXbyte (callsOf o) = 8 ∧ countCalls isDeselect (callsOf o) = 1 := by
  decide +kernel

/-! ### Steps from the request port -/

/-- The requests left after a step. -/
def portOf : Host.Outcome State Fault Refusal → List Byte
  | .next s => s.reqPort
  | .fault _ => []
  | .refused _ => []

/-- Whether a step took the wire item. -/
def tookWire : Host.Outcome State Fault Refusal → Bool
  | .next s => s.wire.isNone
  | .fault _ => false
  | .refused _ => false

/-- P5 steps 9, 10: a bad code is answered, and the next request stands. -/
theorem test_step_bad_operation : respOf (step { State.reset with reqPort := [0x20, 0x10] }) = some ⟨.badOperation, .none⟩ ∧
    portOf (step { State.reset with reqPort := [0x20, 0x10] }) = [0x10] := by decide +kernel

/-- Every host operation runs as the first step after reset. -/
theorem test_step_every_operation_after_reset :
    (List.range 20).all (fun code => (respOf (step (State.reset.withFetchWord 8 code))).isSome) = true := by decide +kernel

/-- The wire-format rows run from the internal sequencer, a frame row whatever its checksum field holds. -/
theorem test_step_wire_rows : [step (State.reset.withFetchWord 48 0x400000000095),
    step (State.reset.withFetchWord 48 0x400000000001), step (State.reset.withFetchWord 8 0xFE), step (State.reset.withFetchWord 8 0x7F), step (State.reset.withFetchWord 32 0xC0FF8000)].all tookWire = true := by decide +kernel

/-- A frame whose end bit is 0 is taken and nothing is sent. -/
theorem test_step_bad_frame : let o := step { built with wire := some ⟨.frame, [0x40, 0, 0, 0, 0, 0x94]⟩ }
    tookWire o = true ∧ callsOf o = [] := by decide +kernel

/-! ### Witnesses: for each statement with hypotheses, a state and operands that meet them all -/

theorem built_inv : Inv built where
  session := by decide
  released := rfl
  quiet := rfl
  nAtRest := rfl
  bAtRest := rfl
  tableContents := fun _ => rfl
  tableWf := builtTable_wf
  dbufWf := rfl
  rbufWf := rfl
  outBlockWf := rfl
  outRegWf := rfl
  probeBound := by decide
  acmdBound := by decide
  pollBound := by decide

theorem reset_inv : Inv State.reset where
  session := by decide
  released := rfl
  quiet := rfl
  nAtRest := rfl
  bAtRest := rfl
  tableContents := fun h => absurd h (by decide)
  tableWf := rfl
  dbufWf := rfl
  rbufWf := rfl
  outBlockWf := rfl
  outRegWf := rfl
  probeBound := by decide
  acmdBound := by decide
  pollBound := Nat.zero_le _

/-- `s` with transport answers to come. -/
def answering (as : List Answer) (s : State) : State := { s with answers := as }

theorem built_answering (as : List Answer) : Built (answering as built) := ⟨{ built_inv with }, rfl⟩

theorem readySc_ready (as : List Answer) : Ready (answering as readySc) :=
  ⟨⟨{ built_inv with session := (by decide : readySc.blockAddressing = _ ↔ readySc.cardClass = _) }, rfl⟩,
    (by decide : readySc.cardClass ≠ .unclassified)⟩

theorem readyHc_ready (as : List Answer) : Ready (answering as readyHc) :=
  ⟨⟨{ built_inv with session := (by decide : readyHc.blockAddressing = _ ↔ readyHc.cardClass = _) }, rfl⟩,
    (by decide : readyHc.cardClass ≠ .unclassified)⟩

/-- An R1 after as many fillers as a budget of 8 allows. -/
def late (r1 : Byte) : R1Wait := ⟨List.replicate 7 0xFF, r1⟩

theorem late_within {r1 : Byte} (h : r1.getLsbD 7 = false) : (late r1).Within built.cfg :=
  ⟨(by decide : (List.replicate 7 (0xFF : Byte)).length < 8), (by decide : ∀ f ∈ List.replicate 7 (0xFF : Byte), _), h⟩

/-- A try whose index 41 is answered with `r1`. -/
def tryOf (r1 : Byte) : AcmdTry := ⟨late 0x01, late r1⟩

theorem try_ends {r1 : Byte} {idle : Bool} (h : r1.getLsbD 7 = false) (h' : r1.getLsbD 0 = idle) :
    (tryOf r1).Ends built.cfg idle := ⟨late_within (by decide), late_within h, h'⟩

theorem tries_end (n : Nat) : ∀ a ∈ List.replicate n (tryOf 0x01), a.Ends built.cfg true := by
  intro a h
  rw [(List.mem_replicate.1 h).2]
  exact try_ends (by decide) (by decide)

/-- Two probes without the echo, then the deciding one. -/
def probe (r1 : Byte) : ProbeScript :=
  ⟨late 0x01, [(late 0x01, ⟨0, 0, 1, 0xAB⟩), (late 0x01, ⟨0, 0, 1, 0x55⟩)], late r1, ⟨0, 0, 1, 0xAA⟩, late 0x01, ⟨0, 0xFF, 0x80, 0⟩⟩

theorem miss_ok {e : Bytes4} (h : e.b3 ≠ 0xAA) : ProbeMiss built.cfg (late 0x01, e) :=
  ⟨late_within (by decide), (by decide : (0x01 : Byte).getLsbD 2 = false), h⟩

theorem probe_decides {r1 : Byte} (h : r1.getLsbD 7 = false) : (probe r1).Decides built.cfg := by
  refine ⟨late_within (by decide), Nat.lt_succ_self 2, ?_, late_within h, fun _ => ⟨rfl, late_within (by decide)⟩⟩
  intro m hm
  rcases List.mem_cons.1 hm with rfl | hm
  · exact miss_ok (by decide)
  · rw [List.mem_singleton.1 hm]
    exact miss_ok (by decide)

theorem witness_BuildTableWritesRemainders : State.reset.csHeld = false := rfl

theorem witness_BuildTableIsIdempotent : Built built := built_answering []

theorem witness_TableMapIsLinear : (∃ t, exec .buildTable State.reset = .next t) ∧ (0x7F#8).toNat < 0x80 := ⟨⟨_, rfl⟩, by decide⟩

/-- Both clauses: the table built and not. -/
theorem witness_Crc7FoldsTheTable : Inv built ∧ built.tableBuilt = true ∧ Inv State.reset ∧ State.reset.tableBuilt = false :=
  ⟨built_inv, rfl, reset_inv, rfl⟩

theorem witness_Crc7IsTheBitwiseForm : Built built := built_answering []

theorem witness_Crc16FoldsTheData : State.reset.csHeld = false := rfl

theorem witness_Crc16SeesAChangedByte : State.reset.csHeld = false ∧ (0x00 : Byte) ≠ 0x80 := ⟨rfl, by decide⟩

/-- Each of the six operations. -/
theorem witness_TableNotBuiltComesFirst : Inv State.reset ∧ State.reset.tableBuilt = false ∧
    ∀ i ∈ ([.negotiate, .readCid, .readCsd, .crc7 [], .encodeCmd 0 0, .readBlock 0] : List Instr),
      (i = .negotiate ∨ i = .readCid ∨ i = .readCsd ∨ (∃ msg, i = .crc7 msg) ∨ (∃ index arg, i = .encodeCmd index arg) ∨
        ∃ index, i = .readBlock index) := ⟨reset_inv, rfl, by simp⟩

/-- The three rows, the table built and not. -/
theorem witness_EncodeCmdBuildsTheFrame : Inv built ∧ built.tableBuilt = true ∧ Inv State.reset ∧
    State.reset.tableBuilt = false ∧ ∀ p ∈ ([(59, .encodeCmd 59 1), (59, .cmd59 1 0x41), (63, .cmdAny 63 1 0)] : List (BitVec 6 × Instr)),
      (p.2 = .encodeCmd p.1 1 ∨ (∃ crc, p.2 = .cmd59 1 crc ∧ p.1 = 59) ∨ ∃ crc, p.2 = .cmdAny p.1 1 crc) :=
  ⟨built_inv, rfl, reset_inv, rfl, by simp⟩

theorem witness_EncodeCmdIsInjective : Built built ∧ ∃ t u, exec (.encodeCmd 63 0xFFFFFFFF) built = .next t ∧
    exec (.encodeCmd 63 0xFFFFFFFF) built = .next u ∧ t.resp = u.resp := ⟨built_answering [], _, _, rfl, rfl, rfl⟩

theorem witness_FramesAreTheImageOfEncodeCmd : Built built := built_answering []

theorem witness_DecodeR1ReadsTheFlags : State.reset.csHeld = false := rfl

theorem witness_R1RoundTrip : State.reset.csHeld = false := rfl

theorem witness_DecodeOcrReadsTheView : State.reset.csHeld = false := rfl

theorem witness_DecodeIfCondReadsTheView : State.reset.csHeld = false := rfl

theorem witness_DecodeCidSlicesTheBlock : State.reset.csHeld = false ∧ cidBlock.length = 16 := ⟨rfl, rfl⟩

/-- Both layouts: the one block has layout 1, the other layout 0. -/
theorem witness_DecodeCsdSlicesTheBlock : State.reset.csHeld = false ∧ csdBlock.length = 16 ∧
    (csdOf csdBlock).layout ≠ 0 ∧ (List.replicate 16 (0x3F : Byte)).length = 16 ∧
    (csdOf (List.replicate 16 0x3F)).layout = 0 := by decide

theorem witness_SetDataChecksumWritesTheMode : readyHc.csHeld = false := rfl

theorem witness_SetSpeedClassSignalsTheTransport : readyHc.csHeld = false := rfl

/-- Not ready and ready. -/
theorem witness_QueriesReadTheSession : Inv State.reset ∧ Inv (answering [] readyHc) := ⟨reset_inv, (readyHc_ready []).1.1⟩

theorem witness_SessionResetTearsDown : readyHc.csHeld = false := rfl

/-- At the bound: two misses, 19 tries before the last. -/
theorem witness_NegotiateClassifiesLegacy :
    Built (answering ((probe 0x05).answers ++ (List.replicate 19 (tryOf 0x01)).flatMap AcmdTry.answers ++ (tryOf 0x00).answers ++ []) built)
      ∧ (probe 0x05).Decides built.cfg ∧ (probe 0x05).legacy = true ∧ (List.replicate 19 (tryOf 0x01)).length < 20 ∧
      (∀ a ∈ List.replicate 19 (tryOf 0x01), a.Ends built.cfg true) ∧ (tryOf 0x00).Ends built.cfg false :=
  ⟨built_answering _, probe_decides (by decide), by decide, by decide, tries_end 19, try_ends (by decide) (by decide)⟩

/-- The capacity bit set and clear. -/
theorem witness_NegotiateClassifiesByCapacity : ∀ e ∈ ([⟨0xC0, 0xFF, 0x80, 0⟩, ⟨0x80, 0xFF, 0x80, 0⟩] : List Bytes4),
    Built (answering ((probe 0x01).answers ++ (List.replicate 19 (tryOf 0x01)).flatMap AcmdTry.answers ++ (tryOf 0x00).answers
        ++ extAnswers (late 0x00) e ++ []) built) ∧
      (probe 0x01).Decides built.cfg ∧ (probe 0x01).legacy = false ∧ (List.replicate 19 (tryOf 0x01)).length < 20 ∧
      (∀ a ∈ List.replicate 19 (tryOf 0x01), a.Ends built.cfg true) ∧ (tryOf 0x00).Ends built.cfg false ∧
      (late 0x00).Within built.cfg :=
  fun _ _ => ⟨built_answering _, probe_decides (by decide), by decide, by decide, tries_end 19,
    try_ends (by decide) (by decide), late_within (by decide)⟩

theorem witness_ThreeMismatchesEndNegotiation : ∃ m : R1Wait × Bytes4,
    Built (answering ((late 0x01).answers ++ missAnswers m ++ missAnswers m ++ missAnswers m ++ []) built) ∧
      (late 0x01).Within built.cfg ∧ ProbeMiss built.cfg m :=
  ⟨(late 0x01, ⟨0, 0, 1, 0⟩), built_answering _, late_within (by decide), miss_ok (by decide)⟩

/-- On both paths. -/
theorem witness_TwentyTriesEndNegotiation : ∀ r1 ∈ ([0x01, 0x05] : List Byte),
    Built (answering ((probe r1).answers ++ (List.replicate 20 (tryOf 0x01)).flatMap AcmdTry.answers ++ []) built) ∧
      (probe r1).Decides built.cfg ∧ (List.replicate 20 (tryOf 0x01)).length = 20 ∧
      (∀ a ∈ List.replicate 20 (tryOf 0x01), a.Ends built.cfg true) := by
  intro r1 h
  refine ⟨built_answering _, probe_decides ?_, by decide, tries_end 20⟩
  simp only [List.mem_cons, List.not_mem_nil, or_false] at h
  rcases h with rfl | rfl <;> decide

theorem witness_NegotiateOutcomes : Built (answering [.tErr] built) ∧ Built (answering [] readyHc) :=
  ⟨built_answering _, (readyHc_ready []).1⟩

theorem witness_NegotiationMovesForward : Built (answering [.tErr] built) ∧ ∃ t, exec .negotiate (answering [.tErr] built) = .next t :=
  ⟨built_answering _, _, rfl⟩

theorem witness_SilentCardEndsNegotiation :
    Built (answering (.data [] :: byteAnswers (List.replicate 8 0xFF) ++ []) readyHc) ∧
      (List.replicate 8 (0xFF : Byte)).length = built.cfg.nR1Poll ∧ ∀ f ∈ List.replicate 8 (0xFF : Byte), f.getLsbD 7 = true :=
  ⟨(readyHc_ready _).1, by decide, by decide⟩

theorem witness_NegotiateCallBounds : Built built ∧ ∃ t, exec .negotiate built = .next t := ⟨built_answering [], _, rfl⟩

/-- A token as late as the budget of 16 allows. -/
theorem witness_ReadBlockDelivers : Ready (answering (readAnswers (late 0x00) (List.replicate 15 0xFF) (List.replicate 512 7 ++ [0, 0]) ++ []) readySc) ∧
    (late 0x00).Within built.cfg ∧ (late 0x00).r1 = 0 ∧ TokenWithin built.cfg (List.replicate 15 0xFF) ∧
    (List.replicate 512 (7 : Byte)).length = 512 ∧ readySc.checksumEnabled = false :=
  ⟨readySc_ready _, late_within (by decide), rfl, ⟨by decide, by decide⟩, List.length_replicate, rfl⟩

theorem halves (v : BitVec 16) : v = v.extractLsb 15 8 ++ v.extractLsb 7 0 := by
  refine BitVec.eq_of_getLsbD_eq fun i hi => ?_
  simp only [BitVec.getLsbD_append, BitVec.getLsbD_extractLsb]
  interval_cases i <;> simp

/-- The trailer CRC16 gives for a payload. -/
def trailerBytes (p : List Byte) : List Byte := [(crc16Result p).extractLsb 15 8, (crc16Result p).extractLsb 7 0]

/-- A payload of one byte value. -/
def sevens (n : Nat) : List Byte := List.replicate n 7

/-- With the mode on, the trailer being what CRC16 gives. -/
theorem witness_ReadBlockDelivers_checked :
    Ready (answering (readAnswers (late 0x00) [] (sevens 512 ++ trailerBytes (sevens 512)) ++ []) readyHc) ∧
      (late 0x00).Within built.cfg ∧ (late 0x00).r1 = 0 ∧ TokenWithin built.cfg [] ∧ (sevens 512).length = 512 ∧
      readyHc.checksumEnabled = true ∧
      crc16Result (sevens 512) = (crc16Result (sevens 512)).extractLsb 15 8 ++ (crc16Result (sevens 512)).extractLsb 7 0 :=
  ⟨readyHc_ready _, late_within (by decide), rfl, ⟨by decide, by decide⟩, List.length_replicate, rfl, halves _⟩

/-- A trailer other than CRC16 of the payload. -/
theorem witness_ReadBlockRejectsBadTrailer : ∃ hi lo : Byte,
    Ready (answering (readAnswers (late 0x00) [] (sevens 512 ++ [hi, lo]) ++ []) readyHc) ∧ (late 0x00).Within built.cfg ∧
      (late 0x00).r1 = 0 ∧ TokenWithin built.cfg [] ∧ (sevens 512).length = 512 ∧ readyHc.checksumEnabled = true ∧
      crc16Result (sevens 512) ≠ hi ++ lo := by
  refine ⟨(crc16Result (sevens 512) ^^^ 1#16).extractLsb 15 8, (crc16Result (sevens 512) ^^^ 1#16).extractLsb 7 0,
    readyHc_ready _, late_within (by decide), rfl, ⟨by decide, by decide⟩, List.length_replicate, rfl, ?_⟩
  intro h
  rw [← halves] at h
  have := congrArg (fun v : BitVec 16 => v.getLsbD 0) h
  simp at this

/-- The first byte changed. -/
theorem witness_OneFlippedByteIsCaught : ∃ hi lo : Byte,
    Ready (answering (readAnswers (late 0x00) [] ([] ++ 8 :: sevens 511 ++ [hi, lo]) ++ []) readyHc) ∧
      (late 0x00).Within built.cfg ∧ (late 0x00).r1 = 0 ∧ TokenWithin built.cfg [] ∧ ([] ++ 7 :: sevens 511).length = 512 ∧
      readyHc.checksumEnabled = true ∧ crc16Result ([] ++ 7 :: sevens 511) = hi ++ lo ∧ (7 : Byte) ≠ 8 := by
  refine ⟨(crc16Result ([] ++ 7 :: sevens 511)).extractLsb 15 8, (crc16Result ([] ++ 7 :: sevens 511)).extractLsb 7 0,
    readyHc_ready _, late_within (by decide), rfl, ⟨by decide, by decide⟩, ?_, rfl, halves _, by decide⟩
  rw [List.nil_append, List.length_cons, sevens, List.length_replicate]

/-- Both register reads. -/
theorem witness_RegisterReadsDeliver :
    Ready (answering (readAnswers (late 0x00) (List.replicate 15 0xFF) (cidBlock ++ [0, 0]) ++ []) readyHc) ∧
      (late 0x00).Within built.cfg ∧ (late 0x00).r1 = 0 ∧ TokenWithin built.cfg (List.replicate 15 0xFF) ∧ cidBlock.length = 16 ∧
      ∀ p ∈ ([(.readCid, .decodeCid cidBlock, 10), (.readCsd, .decodeCsd cidBlock, 9)] : List (Instr × Instr × BitVec 6)),
        (p.1 = .readCid ∧ p.2.1 = .decodeCid cidBlock ∧ p.2.2 = 10 ∨ p.1 = .readCsd ∧ p.2.1 = .decodeCsd cidBlock ∧ p.2.2 = 9) :=
  ⟨readyHc_ready _, late_within (by decide), rfl, ⟨by decide, by decide⟩, rfl, by simp⟩

/-- Both clauses: no table; a table and no session. -/
theorem witness_ReadsAreGated : Inv State.reset ∧ State.reset.tableBuilt = false ∧ Inv built ∧ built.tableBuilt = true ∧
    built.cardClass = .unclassified := ⟨reset_inv, rfl, built_inv, rfl, rfl⟩

/-- Each of the five errors, for the three operations, in both addressing modes. -/
theorem witness_ReadR1Errors : ∀ r1 ∈ ([0x7F, 0x08, 0x77, 0x04, 0x73, 0x20, 0x53, 0x40, 0x13, 0x01] : List Byte),
    Ready (answering ((late r1).answers ++ []) readyHc) ∧ Ready (answering ((late r1).answers ++ []) readySc) ∧
      (late r1).Within built.cfg ∧ (late r1).r1 ≠ 0 ∧ readCommandOf readyHc (.readBlock 7) = some (17, 7) ∧
      readCommandOf readySc (.readBlock 7) = some (17, 0xE00) ∧ readCommandOf readySc .readCid = some (10, 0) ∧
      readCommandOf readySc .readCsd = some (9, 0) := by
  intro r1 h
  have h7 : r1.getLsbD 7 = false ∧ r1 ≠ 0 := by
    revert h
    revert r1
    decide +kernel
  exact ⟨readyHc_ready _, readySc_ready _, late_within h7.1, h7.2, rfl, rfl, rfl, rfl⟩

theorem witness_ReadWithoutResponse : Ready (answering (.data [] :: byteAnswers (List.replicate 8 0xFF) ++ []) readySc) ∧
    readCommandOf readySc .readCid = some (10, 0) ∧ (List.replicate 8 (0xFF : Byte)).length = built.cfg.nR1Poll ∧
    ∀ f ∈ List.replicate 8 (0xFF : Byte), f.getLsbD 7 = true := ⟨readySc_ready _, rfl, by decide, by decide⟩

theorem witness_ReadWithoutToken : Ready (answering ((late 0x00).answers ++ byteAnswers (List.replicate 16 0xFC) ++ []) readySc) ∧
    readCommandOf readySc .readCsd = some (9, 0) ∧ (late 0x00).Within built.cfg ∧ (late 0x00).r1 = 0 ∧
    (List.replicate 16 (0xFC : Byte)).length = built.cfg.nTokenPoll ∧ ∀ f ∈ List.replicate 16 (0xFC : Byte), f ≠ 0xFE :=
  ⟨readySc_ready _, rfl, late_within (by decide), rfl, by decide, by decide⟩

theorem witness_ReadsKeepTheSession : Ready (answering [.tErr] readySc) ∧ ∃ index, Instr.readBlock 7 = .readBlock index :=
  ⟨readySc_ready _, 7, rfl⟩

/-- The last clause too: a read that ends `Ok`. -/
theorem witness_ReadCallBounds : Ready (answering cidScript readyHc) ∧
    ∃ t, exec .readCid (answering cidScript readyHc) = .next t ∧ ∃ v, t.resp = some ⟨.ok, v⟩ :=
  ⟨readyHc_ready _, _, rfl, .cid ⟨0x03, 0x5344, [0x53, 0x44, 0x31, 0x36, 0x47], 0x80, 0x12345678, 0x14A⟩, by decide +kernel⟩

theorem witness_ChipSelectDiscipline : readyHc.csHeld = false ∧ ∃ t, exec .readCid readyHc = .next t := ⟨rfl, _, rfl⟩

theorem witness_CallsKeepTheBoundary : readyHc.csHeld = false ∧ ∃ t, exec .readCid readyHc = .next t := ⟨rfl, _, rfl⟩

/-- The `TErr` answers the second byte exchange. -/
theorem witness_TransportErrorIsTimeout : let before : List (List Byte) := [[], [0xFF]]
    let s := answering (before.map .data ++ .tErr :: [.data [0]]) readyHc
    Inv s ∧ ∃ t, exec .readCid s = .next t ∧ s.draws + before.length < t.draws :=
  ⟨(readyHc_ready _).1.1, _, rfl, by decide +kernel⟩

theorem witness_EveryOperationAnswersOnce : Inv State.reset ∧ Instr.negotiate.port = .request := ⟨reset_inv, rfl⟩

/-- An instruction of each clause. -/
theorem witness_WritersOfArchitecturalState : ∃ t, exec .readCid readyHc = .next t ∧ Instr.readCid ≠ .negotiate ∧
    Instr.readCid ≠ .sessionReset ∧ (∀ v, Instr.readCid ≠ .setDataChecksum v) ∧ Instr.readCid ≠ .buildTable :=
  ⟨_, rfl, by decide, by decide, by simp, by decide⟩

/-- Both clauses: the mode left and entered. -/
theorem witness_ModeChanges :
    (built.cardClass = .unclassified ∧ ∃ t, exec .negotiate (answering legacyScript built) = .next t ∧ t.cardClass ≠ .unclassified) ∧
    (readyHc.cardClass ≠ .unclassified ∧ ∃ t, exec .sessionReset readyHc = .next t ∧ t.cardClass = .unclassified) :=
  ⟨⟨rfl, _, rfl, by decide +kernel⟩, by decide, _, rfl, by decide +kernel⟩

theorem witness_StepKeepsInvariant : Inv { State.reset with reqPort := [0x00] } ∧
    ∃ t, step { State.reset with reqPort := [0x00] } = .next t := ⟨{ reset_inv with }, _, rfl⟩

theorem witness_StepRunsTheRequest : State.reset.wire = none ∧ State.reset.busy = false ∧
    decode .request [0x0B, 0, 0, 0, 7, 0x10] = .instr (.readBlock 7) [0x10] := by decide

theorem witness_StepRunsTheWireItem : ∃ w : WireItem, { State.reset with wire := some w }.wire = some w ∧
    decode w.port w.bytes = .instr (.cmd0 0 0x4A) [] :=
  ⟨⟨.frame, [0x40, 0, 0, 0, 0, 0x95]⟩, rfl, by decide +kernel⟩

/-- At both ends of the unassigned range. -/
theorem witness_UnassignedCodeIsBadOperation : ∀ code ∈ ([0x14, 0xFF] : List Byte),
    Inv { State.reset with reqPort := [code] } ∧ State.reset.wire = none ∧ 0x14 ≤ code.toNat :=
  fun code h => ⟨{ reset_inv with }, rfl, by revert code; decide⟩

/-- Both clauses, each at the byte next to the one that is no filler. -/
theorem witness_FillerIsSkipped : ∀ p ∈ ([(.r1, 0x80), (.token, 0xFF), (.token, 0xFD)] : List (Port × Byte)),
    { State.reset with wire := some ⟨p.1, [p.2]⟩ }.wire = some ⟨p.1, [p.2]⟩ ∧
      (p.1 = .r1 ∧ p.2.getLsbD 7 = true ∨ p.1 = .token ∧ p.2 ≠ 0xFE) := by decide

/-- Both clauses: busy, and nothing at the port. -/
theorem witness_StepWaits : { State.reset with busy := true }.wire = none ∧ { State.reset with busy := true }.busy = true ∧
    State.reset.wire = none ∧ State.reset.reqPort = [] := ⟨rfl, rfl, rfl, rfl⟩

theorem witness_DecodeEncodeAgree : (Instr.cmd8 0x1AA 0x43).wellFormed = true ∧ (Instr.decodeCid cidBlock).wellFormed = true := by
  decide +kernel

/-- The three rows. -/
theorem witness_ShortFramesRunTheExchange : Built (answering ((late 0x7F).answers ++ []) built) ∧ (late 0x7F).Within built.cfg ∧
    ∀ p ∈ ([(.cmd0 1 0, 0), (.cmd55 1 0, 55), (.cmd41 1 0, 41)] : List (Instr × BitVec 6)),
      (p.1 = .cmd0 1 0 ∧ p.2 = 0 ∨ p.1 = .cmd55 1 0 ∧ p.2 = 55 ∨ p.1 = .cmd41 1 0 ∧ p.2 = 41) :=
  ⟨built_answering _, late_within (by decide), by simp⟩

/-- Index 8 with and without the four bytes, index 58 with them. -/
theorem witness_LongFramesRunTheExchange :
    ∀ p ∈ ([(.cmd8 1 0, 8, 0x05, false), (.cmd8 1 0, 8, 0x01, true), (.cmd58 1 0, 58, 0x05, true)] : List (Instr × BitVec 6 × Byte × Bool)),
      Built (answering ((if p.2.2.2 then extAnswers (late p.2.2.1) ⟨1, 2, 3, 4⟩ else (late p.2.2.1).answers) ++ []) built) ∧
      (late p.2.2.1).Within built.cfg ∧ (p.1 = .cmd8 1 0 ∧ p.2.1 = 8 ∧ p.2.2.2 = !(late p.2.2.1).r1.getLsbD 2 ∨
        p.1 = .cmd58 1 0 ∧ p.2.1 = 58 ∧ p.2.2.2 = true) := by
  intro p h
  refine ⟨built_answering _, ?_⟩
  simp only [List.mem_cons, List.not_mem_nil, or_false] at h
  rcases h with rfl | rfl | rfl <;> exact ⟨late_within (by decide), by decide⟩

/-- A register block, and a block with the mode off. -/
theorem witness_DataFramesRunTheTransaction :
    Built (answering (readAnswers (late 0x00) (List.replicate 15 0xFF) (cidBlock ++ [0, 0]) ++ []) built) ∧
      (late 0x00).Within built.cfg ∧ (late 0x00).r1 = 0 ∧ TokenWithin built.cfg (List.replicate 15 0xFF) ∧ cidBlock.length = 16 ∧
      Built (answering (readAnswers (late 0x00) (List.replicate 15 0xFF) (sevens 512 ++ [0, 0]) ++ []) built) ∧
      (sevens 512).length = 512 ∧ built.checksumEnabled = false :=
  ⟨built_answering _, late_within (by decide), rfl, ⟨by decide, by decide⟩, rfl, built_answering _, List.length_replicate, rfl⟩

theorem witness_FramesNeedTheTable : Inv State.reset ∧ State.reset.tableBuilt = false := ⟨reset_inv, rfl⟩

/-- The states that judge the two views, and the token wait. -/
theorem witness_ReceivedItemsAreTaken : { State.reset with bstate := .bToken }.bstate = .bToken ∧
    { State.reset with nstate := .readOcrFinal }.nstate = .readOcrFinal ∧
    { State.reset with nstate := .probeInterface }.nstate = .probeInterface := ⟨rfl, rfl, rfl⟩

end Sys2Proof.Tests
end

/-! PROOF. The state family (10_state.md): one step of CORE in terms of its ports, the writers of the architectural state, and the
invariant kept by every step. -/

namespace Sys2Proof.Machine

/-! ### The three ways a step begins (R35, R60, log 13) -/

theorem step_wireItem {s : State} {w : WireItem} (hw : s.wire = some w) : step s = stepWire w s := by
  simp [step, stepOnce, hw]

theorem step_busy {s : State} (hw : s.wire = none) (hb : s.busy = true) : step s = .next s := by
  simp [step, stepOnce, hw, hb]

theorem step_request {s : State} (hw : s.wire = none) (hb : s.busy = false) : step s = stepRequest s := by
  simp [step, stepOnce, hw, hb]

/-- An empty request port is waited at (R266, log 5). -/
theorem stepRequest_empty {s : State} (h : s.reqPort = []) : stepRequest s = .next s := by
  rw [stepRequest, h]
  rfl

/-- A decoded request is run on the state without its bytes. -/
theorem stepRequest_instr {s : State} {i : Instr} {rest : List Byte} (h : decode .request s.reqPort = .instr i rest) :
    stepRequest s = exec i (takeRequest rest s) := by
  rw [stepRequest, h]
  rfl

/-! ### The writers of the architectural state (R38) -/

/-- The architectural state of `u` is that of `s`, in every part that instruction `i` does not write (R38). -/
def WritesOnly (i : Instr) (s u : State) : Prop :=
  u.cfg = s.cfg ∧
  (i ≠ .negotiate → i ≠ .sessionReset → u.cardClass = s.cardClass ∧ u.blockAddressing = s.blockAddressing ∧
    ((∀ v, i ≠ .setDataChecksum v) → u.checksumEnabled = s.checksumEnabled)) ∧
  (i ≠ .buildTable → u.table = s.table ∧ u.tableBuilt = s.tableBuilt)

theorem WritesOnly.refl (i : Instr) (s : State) : WritesOnly i s s :=
  ⟨rfl, fun _ _ => ⟨rfl, rfl, fun _ => rfl⟩, fun _ => ⟨rfl, rfl⟩⟩

/-- Only four named operations write the architectural state; each is reached from its writers of R38 alone. -/
theorem writesOnly_stable (i : Instr) (s : State) : MachineStable s.cfg i (· = s) (WritesOnly i s) (WritesOnly i s)
    (fun _ => WritesOnly i s) (WritesOnly i s) where
  cfg := fun _ h => h.1
  call := fun _ n _ _ h => tCall_all (P := WritesOnly i s) (fun _ h => h) (fun _ h => h) n h
  fail := fun _ _ h => h
  pollLeft := fun _ _ _ h => h
  r1 := fun _ _ h => h
  ext := fun _ _ h => h
  frame := fun _ _ h => h
  acc7 := fun _ _ h => h
  select := fun _ h => h
  deselect := fun _ h => h
  failFree := fun _ _ h => h
  command := fun _ h => h
  enterB := fun _ _ h => h
  endRead := fun _ h => h
  dbuf := fun _ _ _ h => h
  rbuf := fun _ _ _ h => h
  reg16 := fun _ _ h => h
  outBlock := fun _ _ _ h => h
  outReg := fun _ _ _ h => h
  enterN := fun _ _ h => h
  cls := fun _ _ h => h
  voltage := fun _ _ h => h
  probeLeft := fun _ _ _ h => h
  acmdDone := fun _ _ _ h => h
  accept := fun _ h => h ▸ WritesOnly.refl i s
  beginStep := fun _ h => h ▸ WritesOnly.refl i s
  freeAcc7 := fun _ _ h => h
  freeReg16 := fun _ _ h => h
  freeFrame := fun _ _ h => h
  freeR1 := fun _ _ h => h
  freeExt := fun _ _ h => h
  freeOutBlock := fun _ _ _ h => h
  freeOutReg := fun _ _ _ h => h
  freeToken := fun _ h => by simpa [WritesOnly] using h
  table := fun hi _ ⟨hcfg, hsession, _⟩ => ⟨hcfg, hsession, fun hn => absurd hi hn⟩
  mode := fun v hi _ ⟨hcfg, hsession, htable⟩ => ⟨hcfg, fun hn hr =>
    have ⟨hclass, haddr, _⟩ := hsession hn hr
    ⟨hclass, haddr, fun hv => absurd hi (hv v)⟩, htable⟩
  teardown := fun hi _ ⟨hcfg, _, htable⟩ => ⟨hcfg, fun hn hr => absurd hi (not_or.2 ⟨hn, hr⟩), htable⟩
  commit := fun hi _ ⟨hcfg, _, htable⟩ => ⟨hcfg, fun hn => absurd hi hn, htable⟩
  failedState := fun _ _ h => h
  finishOk := fun _ _ h => by simpa [WritesOnly] using h
  finishError := fun _ _ h => by simpa [WritesOnly] using h
  internal := fun _ h => h

/-- SET_SPEED_CLASS only makes its one call (R219). -/
theorem exec_setSpeedClass (c : SpeedClass) (s : State) :
    exec (.setSpeedClass c) s = .next (exit .ok .none (tSetDiv c (accept s))) := rfl

/-- `exec_stable` for every instruction, SET_SPEED_CLASS too, when its call outside a hold keeps `F`. -/
theorem exec_stable_all {c₀ : Config} {i : Instr} {S F P G : State → Prop} {E : Status → State → Prop}
    (h : MachineStable c₀ i S F P E G) (hlog : ∀ c s, F s → F (tSetDiv c s)) {s t : State} (hs : S s)
    (e : exec i s = .next t) : G t := by
  by_cases hi : ∃ c, i = .setSpeedClass c
  · obtain ⟨c, rfl⟩ := hi
    rw [exec_setSpeedClass] at e
    cases e
    exact h.finishOk _ _ (hlog c _ (h.accept _ hs))
  · exact exec_stable h (fun c hc => hi ⟨c, hc⟩) hs e

/-- Every instruction writes only its part of the architectural state. -/
theorem exec_writesOnly {i : Instr} {s t : State} (e : exec i s = .next t) : WritesOnly i s t :=
  exec_stable_all (writesOnly_stable i s) (fun _ _ h => h) rfl e

/-! ### The invariant apart from the control registers -/

/-- The fields the invariant speaks of, but for the control registers; all others as at reset. -/
def dataOf (s : State) : State := { State.reset with
  cardClass := s.cardClass, blockAddressing := s.blockAddressing, table := s.table, tableBuilt := s.tableBuilt
  dbuf := s.dbuf, rbuf := s.rbuf, outBlock := s.outBlock, outReg := s.outReg
  probeLeft := s.probeLeft, acmdDone := s.acmdDone, pollLeft := s.pollLeft, cfg := s.cfg }

/-- The part of the invariant that holds in the middle of an operation too, with parameters `c₀`. -/
def DataInv (c₀ : Config) (s : State) : Prop := s.cfg = c₀ ∧ Inv (dataOf s)

/-- The control registers between two operations (R27, R28, R33, R35, R245). -/
structure AtRest (s : State) : Prop where
  released : s.csHeld = false
  quiet : s.busy = false
  nAtRest : s.nstate = .idle
  bAtRest : s.bstate = .bIdle

theorem dataInv_of_inv {s : State} (h : Inv s) : DataInv s.cfg s :=
  ⟨rfl, { h with released := rfl, quiet := rfl, nAtRest := rfl, bAtRest := rfl }⟩

theorem atRest_of_inv {s : State} (h : Inv s) : AtRest s := { h with }

theorem DataInv.inv {c₀ : Config} {s : State} (h : DataInv c₀ s) (hr : AtRest s) : Inv s := { hr, h.2 with }

theorem DataInv.accept {c₀ : Config} {s : State} (h : DataInv c₀ s) : DataInv c₀ (accept s) := h

theorem DataInv.exit {c₀ : Config} {s : State} (h : DataInv c₀ s) (st : Status) (v : Value) :
    DataInv c₀ (exit st v s) := by
  simpa [DataInv, dataOf] using h

theorem DataInv.takeToken {c₀ : Config} {s : State} (h : DataInv c₀ s) : DataInv c₀ (takeToken s) := by
  simpa [DataInv, dataOf] using h

/-- Class and addressing mode of a commit agree (R186). -/
theorem addressingOf_eq_block (c : CardClass) : addressingOf c = .blockAddressed ↔ c = .highCapacityV2 := by
  cases c <;> simp [addressingOf]

/-- The data part of the invariant is kept by every named operation, in and out of a hold. -/
theorem dataInv_stable (c₀ : Config) (i : Instr) : MachineStable c₀ i (DataInv c₀) (DataInv c₀) (DataInv c₀)
    (fun _ => DataInv c₀) (DataInv c₀) where
  cfg := fun _ h => h.1
  call := fun _ n _ _ h => tCall_all (P := DataInv c₀) (fun _ h => h) (fun _ h => h) n h
  fail := fun _ _ h => h
  pollLeft := fun _ _ hn h => ⟨h.1, { h.2 with pollBound := h.1 ▸ hn }⟩
  r1 := fun _ _ h => h
  ext := fun _ _ h => h
  frame := fun _ _ h => h
  acc7 := fun _ _ h => h
  select := fun _ h => h
  deselect := fun _ h => h
  failFree := fun _ _ h => h
  command := fun _ h => h
  enterB := fun _ _ h => h
  endRead := fun _ h => h
  dbuf := fun _ _ hl h => ⟨h.1, { h.2 with dbufWf := Memory.ofBytes_wf hl.le }⟩
  rbuf := fun _ _ hl h => ⟨h.1, { h.2 with rbufWf := Memory.ofBytes_wf hl.le }⟩
  reg16 := fun _ _ h => h
  outBlock := fun _ _ hl h => ⟨h.1, { h.2 with outBlockWf := Memory.ofBytes_wf hl }⟩
  outReg := fun _ _ hl h => ⟨h.1, { h.2 with outRegWf := Memory.ofBytes_wf hl }⟩
  enterN := fun _ _ h => h
  cls := fun _ _ h => h
  voltage := fun _ _ h => h
  probeLeft := fun _ _ hn h => ⟨h.1, { h.2 with probeBound := hn }⟩
  acmdDone := fun _ _ hn h => ⟨h.1, { h.2 with acmdBound := hn }⟩
  accept := fun _ h => h.accept
  beginStep := fun _ h => h
  freeAcc7 := fun _ _ h => h
  freeReg16 := fun _ _ h => h
  freeFrame := fun _ _ h => h
  freeR1 := fun _ _ h => h
  freeExt := fun _ _ h => h
  freeOutBlock := fun _ _ hl h => ⟨h.1, { h.2 with outBlockWf := Memory.ofBytes_wf hl }⟩
  freeOutReg := fun _ _ hl h => ⟨h.1, { h.2 with outRegWf := Memory.ofBytes_wf hl }⟩
  freeToken := fun _ h => h.takeToken
  table := fun _ _ h => ⟨h.1, { h.2 with tableContents := fun _ => rfl, tableWf := builtTable_wf }⟩
  mode := fun _ _ _ h => h
  teardown := fun _ _ h => ⟨h.1, { h.2 with session := addressingOf_eq_block .unclassified }⟩
  commit := fun _ s h => ⟨h.1, { h.2 with session := addressingOf_eq_block s.cls }⟩
  failedState := fun _ _ h => h
  finishOk := fun _ _ h => h.exit _ _
  finishError := fun _ _ h => h.exit _ _
  internal := fun _ h => h

theorem exec_dataInv {c₀ : Config} {i : Instr} {s t : State} (h : DataInv c₀ s) (e : exec i s = .next t) :
    DataInv c₀ t :=
  exec_stable_all (dataInv_stable c₀ i) (fun _ _ h => h) h e

/-! ### The control registers: every instruction ends at rest -/

theorem exit_atRest (st : Status) (v : Value) (s : State) : AtRest (exit st v s) := by
  constructor <;> simp

/-- A host operation ends with the exit procedure, whatever its body did (R245). -/
theorem runOperation_atRest {body : State → Proc Value} {s t : State} (e : runOperation body s = .next t) : AtRest t := by
  cases e
  cases body (accept s) with
  | done v u => exact exit_atRest _ _ _
  | raised e u => exact exit_atRest _ _ _

/-- Inside a procedure run alone: not busy (the request port is not involved), no negotiation, and the Block Transfer Engine in a
phase of `B`. -/
def Alone (c₀ : Config) (B : BState → Prop) (s : State) : Prop :=
  s.cfg = c₀ ∧ s.busy = false ∧ s.nstate = .idle ∧ B s.bstate

/-- Between two holds of a procedure run alone. -/
def AloneFree (c₀ : Config) (B : BState → Prop) (s : State) : Prop := s.csHeld = false ∧ Alone c₀ B s

/-- Command exchanges write none of the control registers but chip-select. -/
theorem alone_exchangeStable (c₀ : Config) (B : BState → Prop) :
    ExchangeStable c₀ (AloneFree c₀ B) (Alone c₀ B) (fun _ _ => True) where
  cfg := fun _ h => h.1
  call := fun _ n _ _ h => (tCall_all (P := Alone c₀ B) (fun _ h => h) (fun _ h => h) n h).imp
    (fun _ _ h => h) (fun _ _ _ => trivial)
  fail := fun _ _ _ => trivial
  pollLeft := fun _ _ _ h => h
  r1 := fun _ _ h => h
  ext := fun _ _ h => h
  frame := fun _ _ h => h
  acc7 := fun _ _ h => h
  select := fun _ h => h.2
  deselect := fun _ h => ⟨rfl, h⟩
  failFree := fun _ _ _ => trivial

/-- A read transaction moves `bstate` as well. -/
theorem alone_readStable (c₀ : Config) :
    ReadStable c₀ (AloneFree c₀ fun _ => True) (Alone c₀ fun _ => True) (fun _ _ => True) where
  toExchangeStable := alone_exchangeStable c₀ _
  command := fun _ h => h
  enterB := fun _ _ h => h
  endRead := fun _ h => h
  dbuf := fun _ _ _ h => h
  rbuf := fun _ _ _ h => h
  reg16 := fun _ _ h => h
  outBlock := fun _ _ _ h => h
  outReg := fun _ _ _ h => h

theorem AtRest.aloneFree {s : State} (h : AtRest s) : AloneFree s.cfg (· = .bIdle) s :=
  ⟨h.released, rfl, h.quiet, h.nAtRest, h.bAtRest⟩

theorem AloneFree.atRest {c₀ : Config} {s : State} (h : AloneFree c₀ (· = .bIdle) s) : AtRest s :=
  have ⟨hreleased, _, hquiet, hn, hb⟩ := h
  ⟨hreleased, hquiet, hn, hb⟩

theorem Proc.sat_true {α : Type} (p : Proc α) : p.Sat (fun _ _ => True) (fun _ _ => True) := by
  cases p <;> trivial

/-- A read transaction that returns leaves the engine idle (R198: "bstate <- BIdle"). -/
theorem readData_bIdle (index : BitVec 6) (arg : Word) (tr : Transfer) (check : Bool) (s : State) :
    (readData index arg tr check s).Sat (fun _ t => t.bstate = .bIdle) (fun _ _ => True) :=
  (Proc.sat_true _).andThen fun _ _ _ => (Proc.sat_true _).andThen fun _ _ _ =>
    (Proc.sat_true _).andThen fun _ _ _ => (Proc.sat_true _).andThen fun _ _ _ => rfl

/-- A procedure run alone that is at rest when it returns; an error is left to the exit procedure. -/
abbrev ReturnsAtRest (p : Proc Unit) : Prop := p.Sat (fun _ => AtRest) (fun _ _ => True)

/-- The end of a procedure run alone: what it returns with, or the exit procedure. -/
theorem runInternal_atRest {body : State → Proc Unit} {s t : State} (e : runInternal body s = .next t)
    (hb : ReturnsAtRest (body (beginStep s))) : AtRest t := by
  unfold runInternal at e
  revert hb e
  cases body (beginStep s) with
  | done _ u =>
    intro e hu
    cases e
    exact hu
  | raised _ u =>
    intro e _
    cases e
    exact exit_atRest _ _ _

theorem needTable_andThen_atRest {f : State → Proc Unit} {s : State} (hf : ReturnsAtRest (f s)) :
    ReturnsAtRest ((needTable s).andThen fun _ s => f s) := by
  unfold needTable
  split
  · exact hf
  · trivial

theorem shortExchange_atRest (index : BitVec 6) (arg : Word) {s : State} (h : AtRest s) :
    ReturnsAtRest (shortExchange index arg s) :=
  needTable_andThen_atRest <|
    (xchgShort_sat (alone_exchangeStable s.cfg _) index arg h.aloneFree).andThen fun _ _ hu => hu.atRest

theorem longExchange_atRest (index : BitVec 6) (arg : Word) (want : Byte → Bool) {s : State} (h : AtRest s) :
    ReturnsAtRest (longExchange index arg want s) :=
  needTable_andThen_atRest <|
    (xchgLong_sat (alone_exchangeStable s.cfg _) index arg want h.aloneFree).andThen fun _ _ hu => hu.atRest

theorem readExchange_atRest (index : BitVec 6) (arg : Word) (tr : Transfer) (check : Bool) {s : State} (h : AtRest s) :
    ReturnsAtRest (readExchange index arg tr check s) := by
  have hfree : AloneFree s.cfg (fun _ => True) s := ⟨h.released, rfl, h.quiet, h.nAtRest, trivial⟩
  refine needTable_andThen_atRest <|
    ((readData_sat (alone_readStable s.cfg) index arg tr check hfree).and (readData_bIdle index arg tr check s)).imp
      (fun _ _ h => h) (fun _ _ h => h.1) |>.andThen ?_
  rintro _ u ⟨⟨-, hr, -, hq, hn, -⟩, hb⟩
  exact ⟨hr, hq, hn, hb⟩

/-- From rest every instruction ends at rest: an operation by its exit (R245), a wire item because it returns chip-select and the
engine as it found them. -/
theorem exec_atRest {i : Instr} {s t : State} (h : AtRest s) (e : exec i s = .next t) : AtRest t := by
  have hbegin : AtRest (beginStep s) := { h with }
  cases i with
  | cmd0 | cmd41 | cmd55 => exact runInternal_atRest e (shortExchange_atRest _ _ hbegin)
  | cmd8 | cmd58 => exact runInternal_atRest e (longExchange_atRest _ _ _ hbegin)
  | cmd9 | cmd10 | cmd17 => exact runInternal_atRest e (readExchange_atRest _ _ _ _ hbegin)
  | r1Response r =>
    cases e
    split
    · exact hbegin
    · exact { hbegin with }
  | startToken | ocrView | ifCondView =>
    cases e
    constructor <;> simp [h.released, h.quiet, h.nAtRest, h.bAtRest]
  | buildTable | crc16 | setDataChecksum | setSpeedClass | sessionReset =>
    cases e
    exact exit_atRest _ _ _
  | crc7 m =>
    rw [exec, execCrc7] at e
    exact runOperation_atRest e
  | _ => exact runOperation_atRest e

/-! ### The invariant over a step -/

/-- Every instruction keeps the invariant. -/
theorem exec_inv {i : Instr} {s t : State} (h : Inv s) (e : exec i s = .next t) : Inv t :=
  (exec_dataInv (dataInv_of_inv h) e).inv (exec_atRest (atRest_of_inv h) e)

theorem badOperation_inv {s : State} (h : Inv s) : Inv (badOperation s) :=
  ((dataInv_of_inv h).accept.exit _ _).inv (exit_atRest _ _ _)

/-- Whatever the decoder read, acting on it keeps the invariant, when taking the bytes does. -/
theorem runRead_inv {take : List Byte → State → State} {d : Decoded} {s t : State} (h : Inv s)
    (htake : ∀ rest, Inv (take rest s)) (e : runRead take d s = .next t) : Inv t := by
  cases d with
  | instr i rest => exact exec_inv (htake rest) e
  | needMore => cases e; exact h
  | badCode code rest => cases e; exact badOperation_inv (htake rest)
  | badOperand => cases e
  | badFrame => cases e; exact { htake [] with }
  | badR1 => cases e; exact { htake [] with }
  | badToken => cases e; exact { htake [] with }

theorem takeRequest_inv {s : State} (h : Inv s) (rest : List Byte) : Inv (takeRequest rest s) := { h with }

theorem takeWire_inv {s : State} (h : Inv s) : Inv (takeWire s) := { h with }

/-! ### The obligations -/

/-- Settles O46: the data part is kept by every named operation, the control registers are at rest at every end. -/
theorem stepKeepsInvariant : Obligations.StepKeepsInvariant := by
  intro s t h e
  cases hw : s.wire with
  | some w =>
    rw [step_wireItem hw] at e
    exact runRead_inv h (fun _ => takeWire_inv h) e
  | none =>
    rw [step_request hw h.quiet] at e
    exact runRead_inv h (takeRequest_inv h) e

/-- Settles O44: the table reads alike because it is the same data. -/
theorem writersOfArchitecturalState : Obligations.WritersOfArchitecturalState := by
  intro i s t e
  obtain ⟨-, hsession, htable⟩ := exec_writesOnly e
  refine ⟨hsession, fun hi => ?_⟩
  obtain ⟨ht, hb⟩ := htable hi
  exact ⟨fun a => by rw [ht], hb⟩

/-- Settles O49: the step's request branch on a decoded instruction. -/
theorem stepRunsTheRequest : Obligations.StepRunsTheRequest := by
  intro s i rest hw hb hd
  rw [step_request hw hb, stepRequest_instr hd]
  rfl

/-- Settles O52: a busy port waits; an idle one with no bytes waits for more. -/
theorem stepWaits : Obligations.StepWaits := by
  intro s hw h
  cases hb : s.busy with
  | true => exact step_busy hw hb
  | false =>
    have hempty : s.reqPort = [] := by simpa [hb] using h
    rw [step_request hw hb, stepRequest_empty hempty]

end Sys2Proof.Machine

/-! PROOF. The encoding family (30_encoding.md): the decoder undoes the encoder operand by operand and frame by frame, and what it
reads as no response is skipped. -/

namespace Sys2Proof.Machine

/-! ### Operands of the request port (log 2) -/

@[simp] theorem readMessage_writeMessage (m rest : List Byte) : readMessage (writeMessage m ++ rest) = .message m rest := by
  induction m with
  | nil => cases rest <;> rfl
  | cons b m ih => simp [writeMessage, readMessage, ih]

theorem withMessage_writeMessage (mk : List Byte → Instr) (m rest : List Byte) :
    withMessage mk (writeMessage m ++ rest) = .instr (mk m) rest := by
  rw [withMessage, readMessage_writeMessage]

theorem withFour_listOf4 (mk : Bytes4 → Instr) (e : Bytes4) (rest : List Byte) :
    withFour mk (listOf4 e ++ rest) = .instr (mk e) rest := rfl

theorem withSixteen_append (mk : List Byte → Instr) {p : List Byte} (h : p.length = 16) (rest : List Byte) :
    withSixteen mk (p ++ rest) = .instr (mk p) rest := by
  simp [withSixteen, h]

theorem withBool_boolByte (mk : Bool → Instr) (b : Bool) (rest : List Byte) :
    withBool mk (boolByte b :: rest) = .instr (mk b) rest := by
  cases b <;> rfl

/-- The bytes of a 32-bit value, most significant first, are read back as that value (R72, R78). -/
@[simp] theorem wordOf_bytesOf (w : Word) : wordOf (bytesOf w) = w := by
  refine BitVec.eq_of_getLsbD_eq fun i hi => ?_
  simp only [wordOf, bytesOf, be32, BitVec.getLsbD_append, BitVec.getLsbD_extractLsb]
  interval_cases i <;> simp

theorem withIndexArg_bytesOf (index : BitVec 6) (arg : Word) (rest : List Byte) :
    withIndexArg (index.setWidth 8 :: (listOf4 (bytesOf arg) ++ rest)) = .instr (.encodeCmd index arg) rest := by
  have hindex : (index.setWidth 8).toNat < 64 := by
    rw [BitVec.toNat_setWidth_of_le (by decide)]
    exact index.isLt
  have hback : (index.setWidth 8).setWidth 6 = index := by simp
  calc withIndexArg (index.setWidth 8 :: (listOf4 (bytesOf arg) ++ rest))
      = .instr (.encodeCmd ((index.setWidth 8).setWidth 6) (wordOf (bytesOf arg))) rest := if_pos hindex
    _ = .instr (.encodeCmd index arg) rest := by rw [hback, wordOf_bytesOf]

/-! ### Frames (R71, R72, R74, R132) -/

@[simp] theorem frameIndex_frameOf (index : BitVec 6) (arg : Word) (crc : BitVec 7) :
    frameIndex (frameOf index arg crc) = index := by
  have h : ∀ i : BitVec 6, (0b01#2 ++ i).extractLsb 5 0 = i := by decide +kernel
  exact h index

@[simp] theorem frameArg_frameOf (index : BitVec 6) (arg : Word) (crc : BitVec 7) :
    frameArg (frameOf index arg crc) = arg := wordOf_bytesOf arg

@[simp] theorem frameCrc_frameOf (index : BitVec 6) (arg : Word) (crc : BitVec 7) :
    frameCrc (frameOf index arg crc) = crc := by
  have h : ∀ c : BitVec 7, (c ++ 1#1).extractLsb 7 1 = c := by decide +kernel
  exact h crc

/-- The start, transmission and end bits stand in every frame (R71). -/
@[simp] theorem frameFramed_frameOf (index : BitVec 6) (arg : Word) (crc : BitVec 7) :
    frameFramed (frameOf index arg crc) = true := by
  have hhead : ∀ i : BitVec 6, (0b01#2 ++ i).extractLsb 7 6 = 0b01 := by decide +kernel
  have hend : ∀ c : BitVec 7, (c ++ 1#1).getLsbD 0 = true := by decide +kernel
  simp [frameFramed, frameOf, hhead, hend]

/-- A frame of any index, argument and checksum is read as the row of its index. -/
theorem decodeFrame_encodeFrame (index : BitVec 6) (arg : Word) (crc : BitVec 7) (rest : List Byte) :
    decodeFrame (encodeFrame index arg crc ++ rest) = .instr (frameInstr index arg crc) rest := by
  have hread : ∀ f : Frame6, decodeFrame (listOf6 f ++ rest) =
      if frameFramed f then .instr (frameInstr (frameIndex f) (frameArg f) (frameCrc f)) rest else .badFrame := fun _ => rfl
  rw [encodeFrame, packFrame_eq, hread]
  simp

/-- An index without a row of its own has the general row (R74). -/
theorem frameInstr_unlisted {index : BitVec 6} (h : index ∉ listedIndices) (arg : Word) (crc : BitVec 7) :
    frameInstr index arg crc = .cmdAny index arg crc := by
  simp only [listedIndices, List.mem_cons, List.not_mem_nil, or_false, not_or, ← BitVec.toNat_inj] at h
  unfold frameInstr
  split <;> simp_all

/-! ### Received bytes (R76, R77, R199) -/

theorem decode_r1_filler {b : Byte} (h : b.getLsbD 7 = true) (rest : List Byte) : decode .r1 (b :: rest) = .badR1 := if_pos h

theorem decode_token_filler {b : Byte} (h : b ≠ Config.startToken) (rest : List Byte) : decode .token (b :: rest) = .badToken :=
  if_neg h

/-- The R1 byte of a response keeps its mandatory-zero bit (R76). -/
theorem encodeR1Byte_zeroBit (r : R1Status) : (encodeR1Byte r).getLsbD 7 = r.zeroBit :=
  congrArg R1Status.zeroBit (decodeR1Byte_encode r)

theorem decode_r1_encodeR1Byte {r : R1Status} (h : r.zeroBit = false) (rest : List Byte) :
    decode .r1 (encodeR1Byte r :: rest) = .instr (.r1Response r) rest := by
  have hbit : ¬ (encodeR1Byte r).getLsbD 7 = true := ne_true_of_eq_false ((encodeR1Byte_zeroBit r).trans h)
  calc decode .r1 (encodeR1Byte r :: rest)
      = .instr (.r1Response (decodeR1Byte (encodeR1Byte r))) rest := if_neg hbit
    _ = .instr (.r1Response r) rest := by rw [decodeR1Byte_encode]

/-- What the sequencer reads as no response is taken, and nothing is run (R77, R199, log 13). -/
theorem stepWire_filler {w : WireItem} (s : State) (h : decode w.port w.bytes = .badR1 ∨ decode w.port w.bytes = .badToken) :
    stepWire w s = .next (beginStep (takeWire s)) := by
  rcases h with h | h <;> rw [stepWire, h] <;> rfl

/-! ### The obligations -/

/-- Settles O53: row by row, by the rule of the row's operands; the rows without operands are read by evaluation. -/
theorem decodeEncodeAgree : Obligations.DecodeEncodeAgree := by
  intro i rest h
  cases i with
  | buildTable | negotiate | readCid | readCsd | cardClass | blockLength | sessionReset | blockAddressing | startToken => rfl
  | crc7 m => exact withMessage_writeMessage .crc7 m rest
  | crc16 m => exact withMessage_writeMessage .crc16 m rest
  | encodeCmd index arg => exact withIndexArg_bytesOf index arg rest
  | decodeR1 b => rfl
  | encodeR1 r => exact congrArg (fun r => Decoded.instr (.encodeR1 r) rest) (decodeR1Byte_encode r)
  | decodeOcr e => exact withFour_listOf4 .decodeOcr e rest
  | decodeIfCond e => exact withFour_listOf4 .decodeIfCond e rest
  | decodeCid p => exact withSixteen_append .decodeCid (by simpa [Instr.wellFormed] using h) rest
  | decodeCsd p => exact withSixteen_append .decodeCsd (by simpa [Instr.wellFormed] using h) rest
  | readBlock index => exact congrArg (fun w => Decoded.instr (.readBlock w) rest) (wordOf_bytesOf index)
  | setDataChecksum enabled => exact withBool_boolByte .setDataChecksum enabled rest
  | setSpeedClass c => cases c <;> rfl
  | cmd0 arg crc | cmd8 arg crc | cmd9 arg crc | cmd10 arg crc | cmd17 arg crc | cmd41 arg crc | cmd55 arg crc | cmd58 arg crc
  | cmd59 arg crc => exact decodeFrame_encodeFrame _ arg crc rest
  | cmdAny index arg crc =>
    have hindex : index ∉ listedIndices := by simp_all [Instr.wellFormed]
    exact (decodeFrame_encodeFrame index arg crc rest).trans (by rw [frameInstr_unlisted hindex])
  | r1Response r => exact decode_r1_encodeR1Byte (by simpa [Instr.wellFormed] using h) rest
  | ocrView e => exact withFour_listOf4 .ocrView e rest
  | ifCondView e => exact withFour_listOf4 .ifCondView e rest

/-- Settles O54: the first six words are the encodings of well-formed instructions; the last code has no row. -/
theorem decodeSanity : Obligations.DecodeSanity := by
  unfold Obligations.DecodeSanity
  exact ⟨decodeEncodeAgree (.cmd0 0 0x4A) [] (by decide +kernel), decodeEncodeAgree (.cmd8 0x1AA 0x43) [] (by decide +kernel),
    decodeEncodeAgree (.cmd17 0x200 0x3C) [] (by decide +kernel),
    decodeEncodeAgree (.r1Response ⟨true, false, true, false, false, false, false, false⟩) [] rfl,
    decodeEncodeAgree .startToken [] rfl, decodeEncodeAgree (.readBlock 7) [] rfl, rfl⟩

/-- Settles O60: both bytes decode to no response, which the sequencer takes and passes over. -/
theorem fillerIsSkipped : Obligations.FillerIsSkipped := by
  intro s port b rest hw h
  rw [step_wireItem hw]
  refine stepWire_filler s ?_
  obtain ⟨rfl, hb⟩ | ⟨rfl, hb⟩ := h
  · exact .inl (decode_r1_filler hb rest)
  · exact .inr (decode_token_filler hb rest)

end Sys2Proof.Machine

/-! PROOF. The checksum family (40_checksum.md): what BUILD_TABLE, CRC7 and CRC16 leave in the state, the table's entries as
remainders, and the data checksum as an injective function of each byte. -/

namespace Sys2Proof.Machine

/-! ### The ends of an operation that makes no transport call (R243, R245) -/

/-- With chip-select still released, an operation that returns delivers its value on the state it wrote. -/
theorem runOperation_done {body : State → Proc Value} {s u : State} {v : Value} (hbody : body (accept s) = .done v u)
    (hu : u.csHeld = false) : runOperation body s = .next (deliver .ok v u) := by
  rw [runOperation, hbody, finish, exit_released _ _ hu]

/-- Without the table an operation that needs it ends before anything else. -/
theorem runOperation_needTable_unbuilt (f : Unit → State → Proc Value) {s : State} (hs : s.csHeld = false)
    (ht : s.tableBuilt = false) :
    runOperation (fun s => (needTable s).andThen f) s = .next (answered s .tableNotBuilt .none) := by
  have hneed : needTable (accept s) = .raised .tableNotBuilt (accept s) := needTable_unbuilt (by simpa using ht)
  rw [runOperation, hneed, Proc.raised_andThen, finish, exit_accept _ _ hs]

/-- With the table an operation that needs it goes on at once. -/
theorem runOperation_needTable_built (f : Unit → State → Proc Value) {s : State} (ht : s.tableBuilt = true) :
    runOperation (fun s => (needTable s).andThen f) s = runOperation (f ()) s := by
  have hneed : needTable (accept s) = .done () (accept s) := needTable_built (by simpa using ht)
  rw [runOperation, hneed, Proc.done_andThen, runOperation]

/-! ### The three operations on the state (R112, R113, R116) -/

theorem exec_buildTable {s : State} (hs : s.csHeld = false) :
    exec .buildTable s = .next { answered s .ok .none with table := builtTable, tableBuilt := true } :=
  runOperation_done (body := fun s => .done .none (setTable builtTable s)) rfl hs

/-- The table that BUILD_TABLE leaves, from any state. -/
theorem table_of_exec_buildTable {s t : State} (e : exec .buildTable s = .next t) : t.table = builtTable := by
  cases e
  simp [finish]

theorem exec_crc7_unbuilt {s : State} (hs : s.csHeld = false) (ht : s.tableBuilt = false) (msg : List Byte) :
    exec (.crc7 msg) s = .next (answered s .tableNotBuilt .none) :=
  runOperation_needTable_unbuilt _ hs ht

theorem exec_crc7_built {s : State} (hs : s.csHeld = false) (ht : s.tableBuilt = true) (msg : List Byte) :
    exec (.crc7 msg) s = .next
      { answered s .ok (.u7 (tableFold s.table msg)) with acc7 := tableFold s.table msg } :=
  (runOperation_needTable_built _ ht).trans <|
    runOperation_done (u := setAcc7 (tableFold s.table msg) (accept s)) rfl hs

theorem exec_crc16 {s : State} (hs : s.csHeld = false) (data : List Byte) :
    exec (.crc16 data) s = .next { answered s .ok (.u16 (crc16 data)) with reg16 := crc16Reg data } :=
  runOperation_done (body := fun s => .done (.u16 (crc16 data)) (setReg16 (crc16Reg data) s)) rfl hs

/-! ### The table's entries as remainders (R111) -/

theorem tableEntry_top : ∀ i : Byte, (tableEntry i).getLsbD 7 = false := by decide +kernel

/-- The quotient of `i(x) * x^7` by `g = x^7 + x^3 + 1`. Since `x^7 = g + x^3 + 1`, dividing once gives `i` and leaves
`i(x) * x^3 + i(x)`; dividing each term again gives `i >> 4` and `i >> 7` and leaves degree at most 6. -/
def tableQuotient (i : Byte) : Byte := i ^^^ (i >>> 4) ^^^ (i >>> 7)

theorem tableEntry_division :
    ∀ i : Byte, i.setWidth 16 <<< 7 = polyMul (tableQuotient i) 0x89 ^^^ (tableEntry i).setWidth 16 := by
  decide +kernel

/-- Below `0x80` setting bit 7 is adding it (R110). -/
theorem or_top_eq_xor : ∀ k : Byte, k.toNat < 0x80 → 0x80#8 ||| k = 0x80#8 ^^^ k := by decide +kernel

/-- Setting bit 7 of the index adds the entry of `0x80` (R111). -/
theorem tableEntry_or_top {k : Byte} (hk : k.toNat < 0x80) : tableEntry (0x80#8 ||| k) = tableEntry k ^^^ 0x41#8 := by
  have htop : tableEntry 0x80#8 = 0x41#8 := by decide +kernel
  rw [or_top_eq_xor k hk, tableEntry_xor, htop, BitVec.xor_comm]

/-! ### The data checksum is injective in each byte (R117 a) -/

/-- Registers that differ before some bytes differ after them. -/
theorem foldl_crc16Steps_inj {data : List Byte} {r q : BitVec 16}
    (h : data.foldl (fun r d => crc16Steps 8 r d) r = data.foldl (fun r d => crc16Steps 8 r d) q) : r = q := by
  induction data generalizing r q with
  | nil => exact h
  | cons d data ih => exact crc16Steps_inj_register 8 (ih h)

/-- Equal results over data that differ at most in one byte: the bytes are equal. -/
theorem crc16_inj_byte {pre suf : List Byte} {a b : Byte} (h : crc16 (pre ++ a :: suf) = crc16 (pre ++ b :: suf)) : a = b := by
  have hreg : crc16Reg (pre ++ a :: suf) = crc16Reg (pre ++ b :: suf) := crc16Finish_inj h
  simp only [crc16Reg, List.foldl_append, List.foldl_cons] at hreg
  exact crc16Steps_inj_byte (foldl_crc16Steps_inj hreg)

/-! ### The obligations -/

/-- Settles O1: the table read is `tableEntry`, whose division by `g` has the quotient `tableQuotient`. -/
theorem buildTableWritesRemainders : Obligations.BuildTableWritesRemainders := by
  intro s hs
  refine ⟨_, exec_buildTable hs, rfl, fun i => ?_⟩
  rw [builtTable_read]
  exact ⟨tableEntry_top i, tableQuotient i, tableEntry_division i⟩

/-- Settles O3: both facts are facts about `tableEntry`, which the table holds after BUILD_TABLE from any state. -/
theorem tableMapIsLinear : Obligations.TableMapIsLinear := by
  intro s t e
  rw [table_of_exec_buildTable e]
  simp only [builtTable_read]
  exact ⟨tableEntry_xor, fun _ => tableEntry_or_top⟩

/-- Settles O5: the built table is the table of R111, over which the two loops agree. -/
theorem crc7IsTheBitwiseForm : Obligations.Crc7IsTheBitwiseForm := by
  intro s msg ⟨hinv, ht⟩
  rw [exec_crc7_built hinv.released ht, hinv.tableContents ht, tableFold_builtTable]

/-- Settles O6: the operation's register and result are the forms of R116. -/
theorem crc16FoldsTheData : Obligations.Crc16FoldsTheData := by
  intro s data hs
  rw [exec_crc16 hs, crc16Result_eq, crc16Loop_eq]

/-- Settles O7: equal results would make the two bytes equal. -/
theorem crc16SeesAChangedByte : Obligations.Crc16SeesAChangedByte := by
  intro s pre suf a b hs hab
  exact ⟨_, _, _, _, exec_crc16 hs _, rfl, exec_crc16 hs _, rfl, fun h => hab (crc16_inj_byte h)⟩

/-- Settles O2: the invariant already has the flag set and the table equal to what is written. -/
theorem buildTableIsIdempotent : Obligations.BuildTableIsIdempotent := by
  intro s ⟨hinv, ht⟩
  rw [exec_buildTable hinv.released, ← hinv.tableContents ht, ← ht]
  rfl

/-- Settles O4: with the table the fold, without it the status alone. -/
theorem crc7FoldsTheTable : Obligations.Crc7FoldsTheTable := by
  intro s msg hinv
  cases ht : s.tableBuilt with
  | true => exact exec_crc7_built hinv.released ht msg
  | false => exact exec_crc7_unbuilt hinv.released ht msg

end Sys2Proof.Machine

/-! PROOF. The frame-codec family (41_frame_codec.md): ENCODE_CMD's frame and the frames it reaches, and the decoders' fields as
slices of the 32-bit response and of the 128-bit register block. -/

namespace Sys2Proof.Machine

/-! ### Slices of bit vectors -/

/-- A slice of a slice is a slice of the whole. -/
theorem extractLsb'_extractLsb' {w i m j n : Nat} (x : BitVec w) (h : j + n ≤ m) :
    (x.extractLsb' i m).extractLsb' j n = x.extractLsb' (i + j) n := by
  refine BitVec.eq_of_getLsbD_eq fun k hk => ?_
  have hm : j + k < m := by omega
  simp [hm, Nat.add_assoc]

/-- Three slices that stand side by side are one. -/
theorem append_three_slices {w : Nat} (x : BitVec w) (i l m n : Nat) :
    x.extractLsb' (i + n + m) l ++ x.extractLsb' (i + n) m ++ x.extractLsb' i n = x.extractLsb' i (l + m + n) := by
  rw [BitVec.extractLsb'_append_extractLsb'_eq_extractLsb' rfl, BitVec.extractLsb'_append_extractLsb'_eq_extractLsb' rfl]

theorem be16_slices {w : Nat} (x : BitVec w) (i : Nat) :
    be16 (x.extractLsb' (i + 8) 8) (x.extractLsb' i 8) = x.extractLsb' i 16 :=
  BitVec.extractLsb'_append_extractLsb'_eq_extractLsb' rfl

theorem be32_slices {w : Nat} (x : BitVec w) (i : Nat) :
    be32 (x.extractLsb' (i + 24) 8) (x.extractLsb' (i + 16) 8) (x.extractLsb' (i + 8) 8) (x.extractLsb' i 8) =
      x.extractLsb' i 32 := by
  simp only [be32, BitVec.extractLsb'_append_extractLsb'_eq_extractLsb']

/-- The four bytes of a value joined from four bytes are those bytes (R72, R78). -/
@[simp] theorem bytesOf_wordOf (e : Bytes4) : bytesOf (wordOf e) = e := by
  obtain ⟨a, b, c, d⟩ := e
  simp only [bytesOf, wordOf, be32, BitVec.extractLsb, BitVec.extractLsb'_append_eq_ite]
  simp

/-! ### The operations that only compute (R130, R133) -/

theorem exec_decodeR1 {s : State} (hs : s.csHeld = false) (b : Byte) :
    exec (.decodeR1 b) s = .next (answered s .ok (.r1Status (decodeR1Byte b))) :=
  pureOperation_eq _ hs

theorem exec_encodeR1 {s : State} (hs : s.csHeld = false) (r : R1Status) :
    exec (.encodeR1 r) s = .next (answered s .ok (.byte (encodeR1Byte r))) :=
  pureOperation_eq _ hs

theorem exec_decodeOcr {s : State} (hs : s.csHeld = false) (e : Bytes4) :
    exec (.decodeOcr e) s = .next (answered s .ok (.ocr (ocrOf e))) :=
  pureOperation_eq _ hs

theorem exec_decodeIfCond {s : State} (hs : s.csHeld = false) (e : Bytes4) :
    exec (.decodeIfCond e) s = .next (answered s .ok (.ifCond (ifCondOf e))) :=
  pureOperation_eq _ hs

theorem exec_decodeCid {s : State} (hs : s.csHeld = false) (p : List Byte) :
    exec (.decodeCid p) s = .next (answered s .ok (.cid (cidOf p))) :=
  pureOperation_eq _ hs

theorem exec_decodeCsd {s : State} (hs : s.csHeld = false) (p : List Byte) :
    exec (.decodeCsd p) s = .next (answered s .ok (.csd (csdOf p))) :=
  pureOperation_eq _ hs

/-! ### ENCODE_CMD (R131, R132) -/

theorem encodeBody_unbuilt {s : State} (hs : s.csHeld = false) (ht : s.tableBuilt = false) (index : BitVec 6) (arg : Word) :
    runOperation (encodeBody index arg) s = .next (answered s .tableNotBuilt .none) :=
  runOperation_needTable_unbuilt _ hs ht

theorem encodeBody_built {s : State} (hs : s.csHeld = false) (ht : s.tableBuilt = true) (index : BitVec 6) (arg : Word) :
    runOperation (encodeBody index arg) s = .next
      { answered s .ok (.frame (frameOf index arg (tableFold s.table (frameBody index arg)))) with
        acc7 := tableFold s.table (frameBody index arg)
        frame := frameOf index arg (tableFold s.table (frameBody index arg)) } := by
  rw [← buildFrame_eq, ← frameHead_eq]
  exact (runOperation_needTable_built _ ht).trans <| runOperation_done (u := loadFrame index arg (accept s)) rfl hs

/-- Over the built table ENCODE_CMD returns the frame of R131 and no other. -/
theorem encodeCmd_returns_iff {s : State} (hb : Built s) (index : BitVec 6) (arg : Word) (f : Frame6) :
    (∃ t, exec (.encodeCmd index arg) s = .next t ∧ t.resp = some ⟨.ok, .frame f⟩) ↔
      frameOf index arg (tableFold s.table (frameBody index arg)) = f := by
  obtain ⟨hinv, ht⟩ := hb
  have hexec : exec (.encodeCmd index arg) s = _ := encodeBody_built hinv.released ht index arg
  simp [hexec, answered]

/-- Index and argument can be read off a frame, whatever its checksum. -/
theorem frameOf_inj {i j : BitVec 6} {a b : Word} {c d : BitVec 7} (h : frameOf i a c = frameOf j b d) : i = j ∧ a = b :=
  ⟨by simpa using congrArg frameIndex h, by simpa using congrArg frameArg h⟩

/-- The first byte of a frame from its index (R71). -/
theorem startBits_append_index : ∀ b : Byte, b.extractLsb 7 6 = 0b01 → 0b01#2 ++ b.extractLsb 5 0 = b := by decide +kernel

/-- The last byte of a frame from its checksum (R71). -/
theorem crc_append_endBit : ∀ b : Byte, b.getLsbD 0 = true → b.extractLsb 7 1 ++ 1#1 = b := by decide +kernel

/-- With the start and transmission bits of R71, the bytes the checksum covers are the first five. -/
theorem frameBody_fields {f : Frame6} (hstart : f.b0.extractLsb 7 6 = 0b01) :
    frameBody (frameIndex f) (frameArg f) = [f.b0, f.b1, f.b2, f.b3, f.b4] := by
  calc frameBody (frameIndex f) (frameArg f)
      = (0b01#2 ++ f.b0.extractLsb 5 0) :: listOf4 (bytesOf (wordOf ⟨f.b1, f.b2, f.b3, f.b4⟩)) := rfl
    _ = [f.b0, f.b1, f.b2, f.b3, f.b4] := by rw [startBits_append_index _ hstart, bytesOf_wordOf, listOf4]

/-- Six bytes are the frame of the index and the argument they hold exactly when the fixed bits of R71 stand and the checksum
field is the frame's. -/
theorem frameOf_fields_eq_iff (f : Frame6) (crc : BitVec 7) : frameOf (frameIndex f) (frameArg f) crc = f ↔
    f.b0.extractLsb 7 6 = 0b01 ∧ f.b5.getLsbD 0 = true ∧ frameCrc f = crc := by
  constructor
  · intro h
    have hframed := frameFramed_frameOf (frameIndex f) (frameArg f) crc
    have hcrc := frameCrc_frameOf (frameIndex f) (frameArg f) crc
    rw [h] at hframed hcrc
    simp only [frameFramed, Bool.and_eq_true, beq_iff_eq] at hframed
    exact ⟨hframed.1, hframed.2, hcrc⟩
  · rintro ⟨hstart, hend, rfl⟩
    have hbody := frameBody_fields hstart
    have hlast : frameCrc f ++ 1#1 = f.b5 := crc_append_endBit _ hend
    simp only [frameBody, List.cons.injEq, and_true] at hbody
    obtain ⟨h0, h1, h2, h3, h4⟩ := hbody
    rw [frameOf, h0, h1, h2, h3, h4, hlast]

/-! ### The extended response (R136, R137) -/

/-- The view reads bits of the four bytes' value; each byte is a slice of that value. -/
theorem ocrOf_eq (e : Bytes4) : ocrOf e = ⟨e.b0.getLsbD 7, e.b0.getLsbD 6, e.b1 ++ e.b2.extractLsb 7 7⟩ := by
  have hwindow : (wordOf e).extractLsb 23 15 = (bytesOf (wordOf e)).b1 ++ (bytesOf (wordOf e)).b2.extractLsb 7 7 := by
    simp (disch := decide) only [bytesOf, BitVec.extractLsb, extractLsb'_extractLsb']
    exact (BitVec.extractLsb'_append_extractLsb'_eq_extractLsb' rfl).symm
  have hup : (wordOf e).getLsbD 31 = (bytesOf (wordOf e)).b0.getLsbD 7 := by simp [bytesOf]
  have hccs : (wordOf e).getLsbD 30 = (bytesOf (wordOf e)).b0.getLsbD 6 := by simp [bytesOf]
  rw [bytesOf_wordOf] at hwindow hup hccs
  rw [ocrOf, hup, hccs, hwindow]

theorem ifCondOf_eq (e : Bytes4) : ifCondOf e = ⟨e.b2.extractLsb 3 0, e.b3⟩ := by
  have hrange : (wordOf e).extractLsb 11 8 = (bytesOf (wordOf e)).b2.extractLsb 3 0 := by
    simp (disch := decide) only [bytesOf, BitVec.extractLsb, extractLsb'_extractLsb']
  have hpattern : (wordOf e).extractLsb 7 0 = (bytesOf (wordOf e)).b3 := rfl
  rw [bytesOf_wordOf] at hrange hpattern
  rw [ifCondOf, hrange, hpattern]

/-! ### The register block (R82, R83) -/

theorem blockBits_concat (p : List Byte) (b : Byte) : blockBits (p ++ [b]) = (blockBits p <<< 8) ||| b.setWidth 128 := by
  simp [blockBits]

/-- Counted from the end, byte `j` stands at bits `8 j + 7 : 8 j`. -/
theorem extractLsb'_blockBits (p : List Byte) {j : Nat} (hj : j < 16) :
    (blockBits p).extractLsb' (8 * j) 8 = p.reverse.getD j 0 := by
  induction p using List.reverseRecOn generalizing j with
  | nil => simp [blockBits]
  | append_singleton p b ih =>
    rw [blockBits_concat]
    cases j with
    | zero =>
      refine BitVec.eq_of_getLsbD_eq fun i hi => ?_
      have hin : i < 128 := by omega
      simp [hi, hin]
    | succ j =>
      have hnext : ((blockBits p <<< 8) ||| b.setWidth 128).extractLsb' (8 * (j + 1)) 8 =
          (blockBits p).extractLsb' (8 * j) 8 := by
        refine BitVec.eq_of_getLsbD_eq fun i hi => ?_
        have hin : 8 * (j + 1) + i < 128 := by omega
        have hout : 8 ≤ 8 * (j + 1) + i := by omega
        have hback : 8 * (j + 1) + i - 8 = 8 * j + i := by omega
        simp [-BitVec.getLsbD_eq_getElem, hi, hin, hout, hback]
      rw [hnext, ih (by omega)]
      simp

/-- Byte `k` of a register block, the first byte on top. -/
theorem getD_eq_blockBits_slice {p : List Byte} (hp : p.length = 16) {k : Nat} (hk : k < 16) :
    p.getD k 0 = (blockBits p).extractLsb' (8 * (15 - k)) 8 := by
  have hback : p.length - 1 - (15 - k) = k := by omega
  rw [extractLsb'_blockBits p (by omega), List.getD_eq_getElem?_getD, List.getD_eq_getElem?_getD,
    List.getElem?_reverse (by omega), hback]

/-- The fields of a CID at their bits of the block (R82). -/
def cidOfBits (q : BitVec 128) : CidRegister where
  manufacturerId := q.extractLsb 127 120
  oemId := q.extractLsb 119 104
  productName :=
    [q.extractLsb 103 96, q.extractLsb 95 88, q.extractLsb 87 80, q.extractLsb 79 72, q.extractLsb 71 64]
  revision := q.extractLsb 63 56
  serialNumber := q.extractLsb 55 24
  manufactureDate := q.extractLsb 19 8

/-- The fields of a CSD at their bits of the block (R83). -/
def csdOfBits (q : BitVec 128) : CsdRegister where
  layout := q.extractLsb 127 126
  readAccessTime := q.extractLsb 119 112
  maxTransferSpeed := q.extractLsb 103 96
  commandClasses := q.extractLsb 95 84
  readBlockLength := q.extractLsb 83 80
  deviceSize := if q.extractLsb 127 126 = 0 then (q.extractLsb 73 62).setWidth 22 else q.extractLsb 69 48

/-- Each byte is a slice of the block; the fields of more than one byte are adjacent slices. -/
theorem cidOf_eq_bits {p : List Byte} (hp : p.length = 16) : cidOf p = cidOfBits (blockBits p) := by
  simp (disch := decide) only [cidOf, cidOfBits, getD_eq_blockBits_slice hp, BitVec.extractLsb, extractLsb'_extractLsb']
  congr 1
  case e_oemId => exact be16_slices _ 104
  case e_serialNumber => exact be32_slices _ 24
  case e_manufactureDate => exact BitVec.extractLsb'_append_extractLsb'_eq_extractLsb' rfl

theorem csdOf_eq_bits {p : List Byte} (hp : p.length = 16) : csdOf p = csdOfBits (blockBits p) := by
  simp (disch := decide) only [csdOf, csdOfBits, deviceSizeOf, getD_eq_blockBits_slice hp, BitVec.extractLsb,
    extractLsb'_extractLsb']
  congr 1
  case e_commandClasses => exact BitVec.extractLsb'_append_extractLsb'_eq_extractLsb' rfl
  case e_deviceSize =>
    congr 2
    · exact append_three_slices _ 62 2 8 2
    · exact append_three_slices _ 48 6 8 8

/-! ### The obligations -/

/-- Settles O9: the three rows run the one body of ENCODE_CMD, with the table or without. -/
theorem encodeCmdBuildsTheFrame : Obligations.EncodeCmdBuildsTheFrame := by
  intro s index arg crc i hinv hi
  have hexec : exec i s = runOperation (encodeBody index arg) s := by
    obtain rfl | ⟨rfl, rfl⟩ | rfl := hi <;> rfl
  rw [hexec]
  cases ht : s.tableBuilt with
  | true => exact encodeBody_built hinv.released ht index arg
  | false => exact encodeBody_unbuilt hinv.released ht index arg

/-- Settles O10: equal results are equal frames, and a frame holds its index and argument. -/
theorem encodeCmdIsInjective : Obligations.EncodeCmdIsInjective := by
  intro s t u i j a b hb et eu h
  obtain ⟨_, hexec, hresp⟩ := (encodeCmd_returns_iff hb i a _).2 rfl
  cases hexec.symm.trans et
  exact (frameOf_inj ((encodeCmd_returns_iff hb j b _).1 ⟨u, eu, h ▸ hresp⟩)).imp .symm .symm

/-- Settles O11: ENCODE_CMD returns the six bytes exactly when they are the frame of their own fields. -/
theorem framesAreTheImageOfEncodeCmd : Obligations.FramesAreTheImageOfEncodeCmd := by
  intro s f hb
  calc
    _ ↔ f.b0.extractLsb 7 6 = 0b01 ∧ f.b5.getLsbD 0 = true ∧
        frameCrc f = tableFold s.table (frameBody (frameIndex f) (frameArg f)) :=
      and_congr_right fun hstart => by rw [frameBody_fields hstart, frameCrc]
    _ ↔ frameOf (frameIndex f) (frameArg f) (tableFold s.table (frameBody (frameIndex f) (frameArg f))) = f :=
      (frameOf_fields_eq_iff f _).symm
    _ ↔ _ := (encodeCmd_returns_iff hb _ _ f).symm

/-- Settles O16: DECODE_CID's function reads the fields of the block. -/
theorem decodeCidSlicesTheBlock : Obligations.DecodeCidSlicesTheBlock := by
  intro s p hs hp
  rw [exec_decodeCid hs, cidOf_eq_bits hp]
  rfl

/-- Settles O17: DECODE_CSD's function reads the fields of the block, the device size by the layout. -/
theorem decodeCsdSlicesTheBlock : Obligations.DecodeCsdSlicesTheBlock := by
  intro s p hs hp
  rw [exec_decodeCsd hs, csdOf_eq_bits hp]
  rfl

/-- Settles O12: the record read is the record of the byte's bits. -/
theorem decodeR1ReadsTheFlags : Obligations.DecodeR1ReadsTheFlags := by
  intro s b hs
  rw [exec_decodeR1 hs, decodeR1Byte_eq]

/-- Settles O13: the two functions are inverse to each other, on bytes and on records. -/
theorem r1RoundTrip : Obligations.R1RoundTrip := by
  intro s r b hs
  rw [exec_encodeR1 hs, exec_encodeR1 hs, exec_decodeR1 hs, ← decodeR1Byte_eq, ← encodeR1Byte_eq, encodeR1Byte_decode,
    decodeR1Byte_encode]
  exact ⟨rfl, rfl, rfl⟩

/-- Settles O14: the view's bits are bits of the first three bytes. -/
theorem decodeOcrReadsTheView : Obligations.DecodeOcrReadsTheView := by
  intro s e hs
  rw [exec_decodeOcr hs, ocrOf_eq]

/-- Settles O15: the view's bits are bits of the last two bytes. -/
theorem decodeIfCondReadsTheView : Obligations.DecodeIfCondReadsTheView := by
  intro s e hs
  rw [exec_decodeIfCond hs, ifCondOf_eq]

end Sys2Proof.Machine

/-! PROOF. The command exchange (42_command_exchange.md): the chip-select discipline and the transport's errors over every instruction,
the exchanges run alone, and the read operation whose response does not come. -/

namespace Sys2Proof.Machine

/-! ### Rules about the Transport Port alone (R12, R33, R252) -/

/-- The fields that rules about the Transport Port speak of; all others as at reset. -/
def transportOf (s : State) : State := { State.reset with
  cfg := s.cfg, csHeld := s.csHeld, answers := s.answers, draws := s.draws, calls := s.calls }

/-- What `MachineStable` asks of properties that depend on those fields alone: the rest of the named operations keep them. -/
structure TransportStable (c₀ : Config) (S F P : State → Prop) (E : Status → State → Prop) (G : State → Prop) : Prop where
  viewF : ∀ s, F (transportOf s) ↔ F s
  viewP : ∀ s, P (transportOf s) ↔ P s
  viewE : ∀ e s, E e (transportOf s) ↔ E e s
  cfg : ∀ s, P s → s.cfg = c₀
  call : ∀ c n s, HeldCall c₀ c → P s → (tCall c n s).Sat (fun _ => P) E
  fail : ∀ e s, P s → E e s
  failFree : ∀ e s, F s → E e s
  select : ∀ s, F s → P (tSelect s)
  deselect : ∀ s, P s → F (tDeselect s)
  beginStep : ∀ s, S s → F (beginStep s)
  finishOk : ∀ v s, F s → G (exit .ok v s)
  finishError : ∀ e s, E e s → G (exit e .none s)
  internal : ∀ s, F s → G s

section

variable {c₀ : Config} {S F P G : State → Prop} {E : Status → State → Prop}

theorem TransportStable.keepF (h : TransportStable c₀ S F P E G) {s t : State} (hs : F s) (ht : transportOf t = transportOf s) : F t :=
  (h.viewF t).1 (ht ▸ (h.viewF s).2 hs)

theorem TransportStable.keepP (h : TransportStable c₀ S F P E G) {s t : State} (hs : P s) (ht : transportOf t = transportOf s) : P t :=
  (h.viewP t).1 (ht ▸ (h.viewP s).2 hs)

theorem TransportStable.keepE (h : TransportStable c₀ S F P E G) {e : Status} {s t : State} (hs : E e s)
    (ht : transportOf t = transportOf s) : E e t :=
  (h.viewE e t).1 (ht ▸ (h.viewE e s).2 hs)

/-- The named operations that are no transport call leave the Transport Port as it was. -/
theorem TransportStable.machineStable (h : TransportStable c₀ S F P E G) (i : Instr) : MachineStable c₀ i S F P E G where
  cfg := h.cfg
  call := h.call
  fail := h.fail
  pollLeft := fun _ _ _ hs => h.keepP hs rfl
  r1 := fun _ _ hs => h.keepP hs rfl
  ext := fun _ _ hs => h.keepP hs rfl
  frame := fun _ _ hs => h.keepP hs rfl
  acc7 := fun _ _ hs => h.keepP hs rfl
  select := h.select
  deselect := h.deselect
  failFree := h.failFree
  command := fun _ hs => h.keepF hs rfl
  enterB := fun _ _ hs => h.keepP hs rfl
  endRead := fun _ hs => h.keepF hs rfl
  dbuf := fun _ _ _ hs => h.keepP hs rfl
  rbuf := fun _ _ _ hs => h.keepP hs rfl
  reg16 := fun _ _ hs => h.keepP hs rfl
  outBlock := fun _ _ _ hs => h.keepP hs rfl
  outReg := fun _ _ _ hs => h.keepP hs rfl
  enterN := fun _ _ hs => h.keepF hs rfl
  cls := fun _ _ hs => h.keepF hs rfl
  voltage := fun _ _ hs => h.keepF hs rfl
  probeLeft := fun _ _ _ hs => h.keepF hs rfl
  acmdDone := fun _ _ _ hs => h.keepF hs rfl
  accept := fun s hs => h.keepF (h.beginStep s hs) rfl
  beginStep := h.beginStep
  freeAcc7 := fun _ _ hs => h.keepF hs rfl
  freeReg16 := fun _ _ hs => h.keepF hs rfl
  freeFrame := fun _ _ hs => h.keepF hs rfl
  freeR1 := fun _ _ hs => h.keepF hs rfl
  freeExt := fun _ _ hs => h.keepF hs rfl
  freeOutBlock := fun _ _ _ hs => h.keepF hs rfl
  freeOutReg := fun _ _ _ hs => h.keepF hs rfl
  freeToken := fun s hs => h.keepF hs (by simp [transportOf])
  table := fun _ _ hs => h.keepF hs rfl
  mode := fun _ _ _ hs => h.keepF hs rfl
  teardown := fun _ _ hs => h.keepF hs rfl
  commit := fun _ _ hs => h.keepF hs rfl
  failedState := fun _ _ hs => h.keepE hs rfl
  finishOk := h.finishOk
  finishError := h.finishError
  internal := h.internal

end

/-! ### Chip-select along the calls (R157) -/

/-- One more call after a list: the discipline goes on from where the list left chip-select. -/
theorem csAfter_concat (held : Bool) (cs : List Call) (c : Call) :
    csAfter held (cs ++ [c]) = (csAfter held cs).bind fun h => csAfter h [c] := by
  induction cs generalizing held with
  | nil => rfl
  | cons d cs ih => cases d <;> cases held <;> simp [csAfter, ih]

/-- The calls keep the discipline, and chip-select is as they left it; parameters `c₀`. -/
def Disciplined (c₀ : Config) (s : State) : Prop := s.cfg = c₀ ∧ csAfter false s.calls = some s.csHeld

/-- Disciplined, with chip-select held or released as `held` says. -/
def DisciplinedAt (held : Bool) (c₀ : Config) (s : State) : Prop := s.csHeld = held ∧ Disciplined c₀ s

/-- A call that moves bytes leaves a held chip-select held. -/
theorem csAfter_heldCall {c₀ : Config} {c : Call} (hc : HeldCall c₀ c) : csAfter true [c] = some true := by
  obtain rfl | ⟨_, _, rfl⟩ | rfl | rfl | rfl := hc <;> rfl

/-- A call that takes chip-select from `held` to `held'` keeps the discipline, when the state records it and says so. -/
theorem DisciplinedAt.snoc {held held' : Bool} {c₀ : Config} {c : Call} {s t : State} (h : DisciplinedAt held c₀ s)
    (hc : csAfter held [c] = some held') (hcfg : t.cfg = s.cfg) (hcalls : t.calls = s.calls ++ [c]) (hcs : t.csHeld = held') :
    DisciplinedAt held' c₀ t := by
  obtain ⟨rfl, hcfg₀, hcalls₀⟩ := h
  exact ⟨hcs, hcfg.trans hcfg₀, by rw [hcalls, csAfter_concat, hcalls₀, hcs]; exact hc⟩

/-- The exit procedure releases chip-select with one deselect, or with none when it is released (R245). -/
theorem Disciplined.exit {c₀ : Config} {s : State} (h : Disciplined c₀ s) (st : Status) (v : Value) :
    DisciplinedAt false c₀ (exit st v s) := by
  cases hs : s.csHeld with
  | true =>
    rw [exit_held _ _ hs]
    exact DisciplinedAt.snoc (s := s) (c := .deselect) ⟨hs, h⟩ rfl rfl rfl rfl
  | false =>
    rw [exit_released _ _ hs]
    exact ⟨hs, h⟩

/-- The discipline of R157 through every operation on the Transport Port: released between holds, held inside one. -/
theorem disciplined_stable (c₀ : Config) :
    TransportStable c₀ (fun s => s.csHeld = false ∧ s.cfg = c₀) (DisciplinedAt false c₀) (DisciplinedAt true c₀)
      (fun _ => Disciplined c₀) (DisciplinedAt false c₀) where
  viewF := fun _ => Iff.rfl
  viewP := fun _ => Iff.rfl
  viewE := fun _ _ => Iff.rfl
  cfg := fun _ h => h.2.1
  call := fun c n s hc h => by
    have hlog : DisciplinedAt true c₀ (logCall c s) := h.snoc (csAfter_heldCall hc) rfl rfl h.1
    have hall : (tCall c n s).All (DisciplinedAt true c₀) := by
      unfold tCall
      split <;> exact hlog
    exact hall.imp (fun _ _ h => h) (fun _ _ h => h.2)
  fail := fun _ _ h => h.2
  failFree := fun _ _ h => h.2
  select := fun _ h => h.snoc (c := .select) rfl rfl rfl rfl
  deselect := fun _ h => h.snoc (c := .deselect) rfl rfl rfl rfl
  beginStep := fun _ h => ⟨h.1, h.2, congrArg some h.1.symm⟩
  finishOk := fun v _ h => h.2.exit .ok v
  finishError := fun e _ h => h.exit e .none
  internal := fun _ h => h

/-! ### The first transport error (R158) -/

/-- The next error among the answers is not taken yet: `rest` comes after it, and it is answer number `d`; parameters `c₀`. -/
def ErrorAhead (c₀ : Config) (rest : List Answer) (d : Nat) (s : State) : Prop :=
  s.cfg = c₀ ∧ ∃ left : List (List Byte), s.answers = left.map .data ++ .tErr :: rest ∧ s.draws + left.length = d

/-- The error was the last answer taken, and `Timeout` was raised. -/
def ErrorTaken (rest : List Answer) (d : Nat) (e : Status) (s : State) : Prop :=
  e = .timeout ∧ s.answers = rest ∧ s.draws = d + 1

theorem ErrorAhead.draws_le {c₀ : Config} {rest : List Answer} {d : Nat} {s : State} (h : ErrorAhead c₀ rest d s) : s.draws ≤ d :=
  have ⟨_, _, _, hd⟩ := h
  hd ▸ Nat.le_add_right _ _

/-- A call takes an answer before the error and goes on, or takes the error and raises `Timeout`. -/
theorem tCall_errorAhead {c₀ : Config} {rest : List Answer} {d : Nat} {s : State} (h : ErrorAhead c₀ rest d s) (c : Call) (n : Nat) :
    (tCall c n s).Sat (fun _ => ErrorAhead c₀ rest d) (ErrorTaken rest d) := by
  obtain ⟨hcfg, left, hans, hd⟩ := h
  cases left with
  | nil =>
    rw [tCall_err hans]
    exact ⟨rfl, rfl, congrArg (· + 1) hd⟩
  | cons bs left =>
    simp only [tCall, nextAnswer, hans, List.map_cons, List.cons_append]
    refine ⟨hcfg, left, ?_, ?_⟩
    · simp [hans]
    · simp only [List.length_cons] at hd
      simp only [consumeAnswer_fields, logCall_fields]
      omega

/-- Only a call takes an answer, and a taken error is what the operation ends with. -/
theorem errorAhead_stable (c₀ : Config) (rest : List Answer) (d : Nat) :
    TransportStable c₀ (ErrorAhead c₀ rest d) (ErrorAhead c₀ rest d) (ErrorAhead c₀ rest d)
      (fun e s => ErrorAhead c₀ rest d s ∨ ErrorTaken rest d e s)
      (fun t => d < t.draws → t.resp = some ⟨.timeout, .none⟩ ∧ t.answers = rest ∧ t.draws = d + 1) where
  viewF := fun _ => Iff.rfl
  viewP := fun _ => Iff.rfl
  viewE := fun _ _ => Iff.rfl
  cfg := fun _ h => h.1
  call := fun c n _ _ h => (tCall_errorAhead h c n).imp (fun _ _ h => h) (fun _ _ h => .inr h)
  fail := fun _ _ h => .inl h
  failFree := fun _ _ h => .inl h
  select := fun _ h => h
  deselect := fun _ h => h
  beginStep := fun _ h => h
  finishOk := fun v s h hlt => absurd h.draws_le (by simpa using hlt)
  finishError := fun e s h hlt => by
    obtain h | ⟨rfl, hans, hd⟩ := h
    · exact absurd h.draws_le (by simpa using hlt)
    · simpa using ⟨hans, hd⟩
  internal := fun s h hlt => absurd h.draws_le (by simpa using hlt)

/-! ### The exchanges run alone (R150, R155, R156; log 13) -/

/-- Without the table a procedure run alone ends before anything else. -/
theorem runInternal_needTable_unbuilt (f : Unit → State → Proc Unit) {s : State} (hs : s.csHeld = false)
    (ht : s.tableBuilt = false) :
    runInternal (fun s => (needTable s).andThen f) s = .next (answered s .tableNotBuilt .none) := by
  have hneed : needTable (beginStep s) = .raised .tableNotBuilt (beginStep s) := needTable_unbuilt (by simpa using ht)
  simp only [runInternal, hneed, Proc.raised_andThen]
  exact congrArg _ (exit_released _ _ hs)

/-- With the table a procedure run alone that returns leaves the state it returns with. -/
theorem runInternal_needTable_done {f : Unit → State → Proc Unit} {s t : State} (ht : s.tableBuilt = true)
    (hf : f () (beginStep s) = .done () t) : runInternal (fun s => (needTable s).andThen f) s = .next t := by
  have hneed : needTable (beginStep s) = .done () (beginStep s) := needTable_built (by simpa using ht)
  rw [runInternal, hneed, Proc.done_andThen, hf]

/-- `s` after one exchange run alone: what the exchange writes, `e` being read into `ext` when `ext` says so; `n` answers were
taken in all. -/
def exchangedAlone (index : BitVec 6) (arg : Word) (w : R1Wait) (ext : Bool) (e : Bytes4) (rest : List Answer) (n : Nat) (s : State) :
    State := { s with
  acc7 := bitFold (frameBody index arg), frame := sentFrame index arg, r1 := w.r1
  ext := if ext then e else s.ext
  pollLeft := s.cfg.nR1Poll - w.fillers.length, answers := rest, draws := n
  calls := exchangeCalls s.cfg index arg w ext, npath := [], bpath := [] }

section

variable {s : State} {w : R1Wait} {rest : List Answer}

/-- The state after an exchange without the extended response. -/
theorem deselect_afterR1 (hb : Built s) (index : BitVec 6) (arg : Word) (e : Bytes4) :
    ∃ n, tDeselect (afterR1 index arg w rest (beginStep s)) = exchangedAlone index arg w false e rest n s := by
  have ht : (beginStep s).table = builtTable := hb.1.tableContents hb.2
  rw [afterR1_built ht]
  exact ⟨s.draws + 1 + (w.fillers.length + 1), by simp [tDeselect, exchangedAlone, exchangeCalls, beginStep, hb.1.released]⟩

/-- The state after an exchange with the extended response. -/
theorem afterLong_alone (hb : Built s) (index : BitVec 6) (arg : Word) (e : Bytes4) :
    ∃ n, afterLong index arg w e rest (beginStep s) = exchangedAlone index arg w true e rest n s := by
  have ht : (beginStep s).table = builtTable := hb.1.tableContents hb.2
  rw [afterLong, afterR1_built ht]
  exact ⟨s.draws + 1 + (w.fillers.length + 1) + 1,
    by simp [tDeselect, setExt, afterCall, exchangedAlone, exchangeCalls, beginStep, hb.1.released]⟩

/-- A short exchange run alone (R155). -/
theorem shortExchange_alone (hb : Built s) (hw : w.Within s.cfg) (ha : s.answers = w.answers ++ rest)
    (index : BitVec 6) (arg : Word) (e : Bytes4) :
    ∃ n, runInternal (shortExchange index arg) s = .next (exchangedAlone index arg w false e rest n s) := by
  obtain ⟨n, hn⟩ := deselect_afterR1 hb index arg e
  refine ⟨n, runInternal_needTable_done hb.2 ?_⟩
  rw [xchgShort_script (s := beginStep s) hw ha, Proc.done_andThen, hn]

/-- A long exchange run alone, with the extended response or without (R156). -/
theorem longExchange_alone (hb : Built s) (hw : w.Within s.cfg) {ext : Bool} {e : Bytes4}
    (ha : s.answers = (if ext then extAnswers w e else w.answers) ++ rest) (index : BitVec 6) (arg : Word) {want : Byte → Bool}
    (hwant : want w.r1 = ext) :
    ∃ n, runInternal (longExchange index arg want) s = .next (exchangedAlone index arg w ext e rest n s) := by
  cases ext with
  | true =>
    obtain ⟨n, hn⟩ := afterLong_alone hb index arg e
    refine ⟨n, runInternal_needTable_done hb.2 ?_⟩
    rw [xchgLong_script (s := beginStep s) hw ha index arg hwant, Proc.done_andThen, hn]
  | false =>
    obtain ⟨n, hn⟩ := deselect_afterR1 hb index arg e
    refine ⟨n, runInternal_needTable_done hb.2 ?_⟩
    rw [xchgLong_script_short (s := beginStep s) hw ha index arg hwant, Proc.done_andThen, hn]

end

/-! ### Received items (R153, R154, R199) -/

/-- The token starts the data phase in the token wait alone (R199). -/
theorem takeToken_eq (s : State) : takeToken s = { s with
    bstate := if s.bstate = .bToken then .bData else s.bstate
    bpath := s.bpath ++ if s.bstate = .bToken then [.bData] else [] } := by
  unfold takeToken
  split <;> simp [enterB, *]

/-- The operating-condition view decides the class in ReadOcrFinal alone, by bit 6 of its first byte (R184). -/
theorem judgeOcr_eq (s : State) : judgeOcr s = { s with
    cls := if s.nstate = .readOcrFinal then (if s.ext.b0.getLsbD 6 then .highCapacityV2 else .standardV2) else s.cls } := by
  simp only [judgeOcr, ocrOf_eq]
  split <;> rfl

/-- The interface-condition view decides in ProbeInterface alone, when its last byte is the check pattern (R174). -/
theorem judgeIfCond_eq (s : State) : judgeIfCond s = { s with
    cls := if s.nstate = .probeInterface ∧ s.ext.b3 = 0xAA then .standardV2 else s.cls
    voltageAccepted := if s.nstate = .probeInterface ∧ s.ext.b3 = 0xAA then true else s.voltageAccepted } := by
  simp only [judgeIfCond, echoMatches_iff]
  split <;> rfl

/-! ### Reads that end before their data (R153, R202, R245) -/

theorem runOperation_raised {body : State → Proc Value} {s u : State} {e : Status} (h : body (accept s) = .raised e u) :
    runOperation body s = .next (exit e .none u) := by
  rw [runOperation, h, finish]

theorem readBlockBody_raised {s u : State} {e : Status} (hentry : readEntry s = .done () s) {index : Word}
    (h : readData 17 (translateIndex s.blockAddressing index) .block s.checksumEnabled s = .raised e u) :
    readBlockBody index s = .raised e u := by
  rw [readBlockBody, hentry, Proc.done_andThen, h, Proc.raised_andThen]

theorem readRegisterBody_raised {s u : State} {e : Status} (hentry : readEntry s = .done () s) {index : BitVec 6}
    (view : List Byte → Value) (h : readData index 0 .register false s = .raised e u) :
    readRegisterBody index view s = .raised e u := by
  rw [readRegisterBody, hentry, Proc.done_andThen, h, Proc.raised_andThen]

/-- In a Ready session a read operation ends with the error its transaction raises. -/
theorem exec_read_raised {s u : State} {i : Instr} {index : BitVec 6} {arg : Word} {e : Status} (hr : Ready s)
    (hi : readCommandOf s i = some (index, arg)) (h : ∀ tr check, readData index arg tr check (accept s) = .raised e u) :
    exec i s = .next (exit e .none u) := by
  have hentry : readEntry (accept s) = .done () (accept s) := readEntry_ready hr.1.2 hr.2
  cases i with
  | readBlock j =>
    cases hi
    rw [← translateIndex_eq] at h
    exact runOperation_raised (readBlockBody_raised hentry (h _ _))
  | readCid | readCsd =>
    cases hi
    exact runOperation_raised (readRegisterBody_raised hentry _ (h _ _))
  | _ => cases hi

/-- The registers where no R1 came within the budget: those of the frame sent, no poll left, chip-select still held (R153). -/
def unanswered (index : BitVec 6) (arg : Word) (rest : List Answer) (s : State) : State := { s with
  csHeld := true, bstate := .bCommand, acc7 := bitFold (frameBody index arg), frame := sentFrame index arg, pollLeft := 0
  answers := rest, draws := s.draws + 1 + s.cfg.nR1Poll
  calls := s.calls ++ [.select, .send (frameBytes index arg) s.cfg.tBuf] ++ polls s.cfg s.cfg.nR1Poll
  bpath := s.bpath ++ [.bCommand] }

/-- A transaction whose R1 does not come (R153). -/
theorem readData_noResponse {s : State} (ht : s.table = builtTable) {fillers : List Byte} {rest : List Answer}
    (hn : fillers.length = s.cfg.nR1Poll) (hf : ∀ f ∈ fillers, f.getLsbD 7 = true)
    (ha : s.answers = .data [] :: byteAnswers fillers ++ rest) (index : BitVec 6) (arg : Word) (tr : Transfer) (check : Bool) :
    readData index arg tr check s = .raised .timeout (unanswered index arg rest s) := by
  have hB : (enterB .bCommand s).table = builtTable := ht
  rw [readData, readCommand_timeout hn hf ha, Proc.raised_andThen, afterSend_built hB, hn]
  rfl

/-! ### The obligations -/

/-- Settles O40: the discipline is kept by every named operation; SET_SPEED_CLASS's call stands outside a hold and moves nothing. -/
theorem chipSelectDiscipline : Obligations.ChipSelectDiscipline := by
  intro i s t hs e
  obtain ⟨hreleased, -, hcalls⟩ := exec_stable_all ((disciplined_stable s.cfg).machineStable i)
    (fun c _ h => h.snoc (c := .setDiv c) rfl rfl rfl h.1) ⟨hs, rfl⟩ e
  exact ⟨hreleased, hreleased ▸ hcalls⟩

/-- Settles O42: until the error is taken every answer is a success, and the call that takes it raises `Timeout`. -/
theorem transportErrorIsTimeout : Obligations.TransportErrorIsTimeout := by
  intro i s t before rest _ ha e
  have hstable := (errorAhead_stable s.cfg rest (s.draws + before.length)).machineStable i
  exact exec_stable_all hstable (fun _ _ h => h) ⟨rfl, before, ha, rfl⟩ e

/-- Settles O36: the transaction raises `Timeout` before its R1, and the exit procedure releases chip-select. -/
theorem readWithoutResponse : Obligations.ReadWithoutResponse := by
  intro s i index arg fillers rest hr hi hn hf ha
  have ht : (accept s).table = builtTable := hr.1.1.tableContents hr.1.2
  refine ⟨_, exec_read_raised hr hi fun tr check => readData_noResponse (s := accept s) ht hn hf ha index arg tr check, ?_⟩
  rw [exit_held _ _ rfl]
  simp [unanswered, readCallsUntil, SameOut, SameBuffers, ReadFrame, SameSession, SameTable, SameInputs]

/-- Settles O55: the three rows run the short exchange of their index. -/
theorem shortFramesRunTheExchange : Obligations.ShortFramesRunTheExchange := by
  intro s i index arg crc w rest hb hw ha hi
  have hexec : exec i s = runInternal (shortExchange index arg) s := by
    obtain ⟨rfl, rfl⟩ | ⟨rfl, rfl⟩ | ⟨rfl, rfl⟩ := hi <;> rfl
  obtain ⟨n, hn⟩ := shortExchange_alone hb hw ha index arg s.ext
  exact ⟨_, hexec.trans hn, rfl⟩

/-- Settles O56: both rows run the long exchange; between operations the negotiation is idle, so index 58 wants its payload. -/
theorem longFramesRunTheExchange : Obligations.LongFramesRunTheExchange := by
  intro s i index arg crc w e rest ext hb hw ha hi
  obtain ⟨want, hwant, hexec⟩ : ∃ want, want w.r1 = ext ∧ exec i s = runInternal (longExchange index arg want) s := by
    obtain ⟨rfl, rfl, rfl⟩ | ⟨rfl, rfl, rfl⟩ := hi
    · exact ⟨wantIfCond, rfl, rfl⟩
    · exact ⟨wantOcr s.nstate, by simp [wantOcr, hb.1.nAtRest], rfl⟩
  obtain ⟨n, hn⟩ := longExchange_alone hb hw ha index arg hwant
  exact ⟨_, hexec.trans hn, rfl⟩

/-- Settles O50: the step's wire branch on a decoded instruction. -/
theorem stepRunsTheWireItem : Obligations.StepRunsTheWireItem := by
  intro s w i rest hw hd
  rw [step_wireItem hw, stepWire, hd]
  rfl

/-- Settles O58: each of the eight procedures asks for the table first. -/
theorem framesNeedTheTable : Obligations.FramesNeedTheTable := by
  intro s i arg crc hinv ht hi
  obtain rfl | rfl | rfl | rfl | rfl | rfl | rfl | rfl := hi <;> exact runInternal_needTable_unbuilt _ hinv.released ht

/-- Settles O59: the R1 byte by its bit 7, the token and the views by the state they arrive in. -/
theorem receivedItemsAreTaken : Obligations.ReceivedItemsAreTaken := by
  intro s r e
  refine ⟨?_, ?_, ?_, ?_⟩
  · rw [← encodeR1Byte_eq, exec, execR1Response]
    split <;> rfl
  · exact congrArg Host.Outcome.next (takeToken_eq (beginStep s))
  · exact congrArg Host.Outcome.next (judgeOcr_eq (setExt e (beginStep s)))
  · exact congrArg Host.Outcome.next (judgeIfCond_eq (setExt e (beginStep s)))

end Sys2Proof.Machine

/-! PROOF. NEGOTIATE over any answers (43_negotiation.md): what one exchange costs and leaves alone, and from it the outcomes, the
order of the states and the bounds. -/

namespace Sys2Proof.Machine

/-! ### NEGOTIATE as one operation (R166, R167, R245) -/

/-- `s` when `Start` is entered: the session torn down, the scratch cleared (R167). -/
def entered (s : State) : State := { accept s with
  cardClass := .unclassified, blockAddressing := .byteAddressed, checksumEnabled := modeAfterNegotiate s
  cls := .unclassified, voltageAccepted := false }

@[simp] theorem entered_fields (s : State) : (entered s).cfg = s.cfg ∧ (entered s).answers = s.answers ∧
    (entered s).calls = [] ∧ (entered s).npath = [] := by and_intros <;> rfl

/-- The teardown writes nothing new in a session that is `Unclassified` already (R22, R167). -/
theorem negotiateEntry_accept {s : State} (h : Inv s) : negotiateEntry (accept s) = entered s := by
  have hready : sessionReady (accept s) = true ↔ s.cardClass ≠ .unclassified := sessionReady_iff _
  unfold negotiateEntry
  by_cases hc : s.cardClass = .unclassified
  · have ha : s.blockAddressing = .byteAddressed := by
      cases hb : s.blockAddressing with
      | byteAddressed => rfl
      | blockAddressed => exact absurd (hc.symm.trans (h.session.1 hb)) (by decide)
    rw [if_neg (by simp [hready, hc])]
    simp [entered, setCls, setVoltage, accept, modeAfterNegotiate, hc, ha]
  · rw [if_pos (hready.2 hc)]
    simp [entered, setCls, setVoltage, accept, teardown, modeAfterNegotiate, hc]

theorem exec_negotiate {s : State} (hb : Built s) :
    exec .negotiate s = .next (finish (toFailed (negotiationStates (entered s)))) := by
  have hneed : needTable (accept s) = .done () (accept s) := needTable_built hb.2
  rw [exec, execNegotiate, runOperation, negotiateBody, hneed, Proc.done_andThen, negotiateEntry_accept hb.1]

theorem exec_negotiate_done {s u : State} {v : Value} (hb : Built s) (h : negotiationStates (entered s) = .done v u) :
    exec .negotiate s = .next (exit .ok v u) := by
  rw [exec_negotiate hb, h]
  rfl

theorem exec_negotiate_raised {s u : State} {e : Status} (hb : Built s)
    (h : negotiationStates (entered s) = .raised e u) :
    exec .negotiate s = .next (exit e .none (enterN .failed u)) := by
  rw [exec_negotiate hb, h]
  rfl

/-! ### What a list of calls costs (R190) -/

theorem countCalls_append (p : Call → Bool) (as bs : List Call) :
    countCalls p (as ++ bs) = countCalls p as + countCalls p bs := by
  simp [countCalls]

theorem countCalls_perm (p : Call → Bool) {as bs : List Call} (h : as.Perm bs) : countCalls p as = countCalls p bs :=
  (h.filter p).length_eq

/-- The calls of at most `k` exchanges, as many sends as selects, with at most `x` byte exchanges and `r` receives in all. -/
structure Cost (k x r : Nat) (cs : List Call) : Prop where
  selects : countCalls isSelect cs ≤ k
  sends : countCalls isSend cs = countCalls isSelect cs
  xbytes : countCalls isXbyte cs ≤ x
  recvs : countCalls isRecv cs ≤ r
  deselects : countCalls isDeselect cs ≤ k
  setDivs : countCalls isSetDiv cs = 0

theorem Cost.mono {k x r k' x' r' : Nat} {cs : List Call} (h : Cost k x r cs) (hk : k ≤ k') (hx : x ≤ x') (hr : r ≤ r') :
    Cost k' x' r' cs where
  selects := h.selects.trans hk
  sends := h.sends
  xbytes := h.xbytes.trans hx
  recvs := h.recvs.trans hr
  deselects := h.deselects.trans hk
  setDivs := h.setDivs

theorem Cost.append {k x r k' x' r' : Nat} {as bs : List Call} (h : Cost k x r as) (h' : Cost k' x' r' bs) :
    Cost (k + k') (x + x') (r + r') (as ++ bs) := by
  constructor <;> rw [countCalls_append]
  · exact Nat.add_le_add h.selects h'.selects
  · rw [countCalls_append, h.sends, h'.sends]
  · exact Nat.add_le_add h.xbytes h'.xbytes
  · exact Nat.add_le_add h.recvs h'.recvs
  · exact Nat.add_le_add h.deselects h'.deselects
  · rw [h.setDivs, h'.setDivs]

theorem Cost.perm {k x r : Nat} {as bs : List Call} (h : Cost k x r as) (hp : as.Perm bs) : Cost k x r bs := by
  constructor <;> simp only [← countCalls_perm _ hp]
  exacts [h.selects, h.sends, h.xbytes, h.recvs, h.deselects, h.setDivs]

theorem cost_nil : Cost 0 0 0 [] := by constructor <;> decide

theorem cost_xbyte (b : Byte) (n : Nat) : Cost 0 1 0 [.xbyte b n] :=
  ⟨Nat.le_refl 0, rfl, Nat.le_refl 1, Nat.le_refl 0, Nat.le_refl 0, rfl⟩

theorem cost_recv (n m : Nat) : Cost 0 0 1 [.recv n m] :=
  ⟨Nat.le_refl 0, rfl, Nat.le_refl 0, Nat.le_refl 1, Nat.le_refl 0, rfl⟩

/-- An exchange without its byte exchanges and its receive: the hold and the frame. -/
theorem cost_hold (bs : List Byte) (n : Nat) : Cost 1 0 0 [.deselect, .select, .send bs n] :=
  ⟨Nat.le_refl 1, rfl, Nat.le_refl 0, Nat.le_refl 0, Nat.le_refl 1, rfl⟩

/-! ### One exchange, whatever is answered (R155, R156, R190) -/

/-- The fields that no exchange writes; what an exchange writes is cleared. -/
def outsideExchange (s : State) : State := { s with
  csHeld := false, acc7 := 0, frame := ⟨0, 0, 0, 0, 0, 0⟩, r1 := 0, ext := ⟨0, 0, 0, 0⟩, pollLeft := 0
  answers := [], draws := 0, calls := [] }

/-- `u` is in the hold of an exchange begun at `s`; its calls, with the deselect to come, cost `k`, `x`, `r`. -/
structure Holding (s : State) (k x r : Nat) (u : State) : Prop where
  held : u.csHeld = true
  outside : outsideExchange u = outsideExchange s
  cost : Cost k x r (.deselect :: u.calls)

/-- `u` is after the hold of an exchange begun at `s`; its calls cost `k`, `x`, `r`. -/
structure Released (s : State) (k x r : Nat) (u : State) : Prop where
  released : u.csHeld = false
  outside : outsideExchange u = outsideExchange s
  cost : Cost k x r u.calls

/-- An exchange begun at `s` raised an error: `Timeout` (R153, R158), in its hold. -/
def BrokenOff (s : State) (k x r : Nat) (e : Status) (u : State) : Prop := e = .timeout ∧ Holding s k x r u

section

variable {s u : State} {k x r x' r' n : Nat}

theorem Holding.mono (h : Holding s k x r u) (hx : x ≤ x') (hr : r ≤ r') : Holding s k x' r' u :=
  { h with cost := h.cost.mono (Nat.le_refl k) hx hr }

theorem BrokenOff.mono {e : Status} (h : BrokenOff s k x r e u) (hx : x ≤ x') (hr : r ≤ r') : BrokenOff s k x' r' e u :=
  ⟨h.1, h.2.mono hx hr⟩

theorem Holding.deselect (h : Holding s k x r u) : Released s k x r (tDeselect u) :=
  ⟨rfl, h.outside, h.cost.perm (List.perm_append_singleton _ _).symm⟩

theorem tCall_holding {c : Call} (h : Holding s k x r u) (hc : Cost 0 x' r' [c]) :
    (tCall c n u).Sat (fun _ => Holding s k (x + x') (r + r')) (BrokenOff s k (x + x') (r + r')) := by
  have hcalled : Holding s k (x + x') (r + r') (consumeAnswer (logCall c u)) := ⟨h.held, h.outside, h.cost.append hc⟩
  unfold tCall
  split
  · exact ⟨rfl, hcalled⟩
  · exact hcalled

/-- The frame is sent, accepted or not (R151). -/
theorem sendFrame_holding (index : BitVec 6) (arg : Word) (h : Cost k x r s.calls) :
    (sendFrame index arg (tSelect s)).Sat (fun _ => Holding s (k + 1) x r) (BrokenOff s (k + 1) x r) := by
  have hsent (bs : List Byte) (m : Nat) :
      Holding s (k + 1) x r (consumeAnswer (logCall (.send bs m) (loadFrame index arg (tSelect s)))) := by
    have hcalls : (consumeAnswer (logCall (.send bs m) (loadFrame index arg (tSelect s)))).calls
        = s.calls ++ [.select, .send bs m] := by simp
    refine ⟨rfl, rfl, ?_⟩
    rw [hcalls]
    exact (h.append (cost_hold bs m)).perm List.perm_middle
  refine Proc.Sat.andThen (Q := fun _ => Holding s (k + 1) x r) ?_ fun _ _ h => h
  unfold tCall
  split
  · exact ⟨rfl, hsent _ _⟩
  · exact hsent _ _

/-- The wait makes at most as many byte exchanges as it has polls left (R153). -/
theorem pollR1_holding (h : Holding s k x r u) :
    (pollR1 n u).Sat (fun _ => Holding s k (x + n) r) (BrokenOff s k (x + n) r) := by
  induction n generalizing u x with
  | zero => exact ⟨rfl, { h with }⟩
  | succ n ih =>
    have hpoll : Holding s k x r (setPollLeft (n + 1) u) := { h with }
    have hxbyte := (tCall_holding (n := 1) hpoll (cost_xbyte Config.fill u.cfg.tByte)).imp
      (fun _ _ h => h) fun _ _ h => h.mono (x' := x + (n + 1)) (by omega) (Nat.le_refl r)
    refine Proc.Sat.andThen (hxbyte.andThen (R := fun _ => Holding s k (x + 1) r) fun _ _ h => h) fun b v hv => ?_
    split
    · rw [Nat.add_comm n, ← Nat.add_assoc]
      exact ih hv
    · exact { hv.mono (x' := x + (n + 1)) (by omega) (Nat.le_refl r) with }

theorem waitR1_holding (h : Holding s k x r u) :
    (waitR1 u).Sat (fun _ => Holding s k (x + s.cfg.nR1Poll) r) (BrokenOff s k (x + s.cfg.nR1Poll) r) := by
  have hcfg : u.cfg = s.cfg := (congrArg State.cfg h.outside :)
  rw [waitR1, hcfg]
  exact pollR1_holding h

theorem readExt_holding (h : Holding s k x r u) :
    (readExt u).Sat (fun _ => Holding s k x (r + 1)) (BrokenOff s k x (r + 1)) :=
  (tCall_holding (n := 4) h (cost_recv 4 u.cfg.tBuf)).andThen fun _ _ hv => { hv with }

/-- A short exchange costs one hold and at most the poll budget (R155). -/
theorem xchgShort_cost (index : BitVec 6) (arg : Word) (h : Cost k x r s.calls) :
    (xchgShort index arg s).Sat (fun _ => Released s (k + 1) (x + s.cfg.nR1Poll) r)
      (BrokenOff s (k + 1) (x + s.cfg.nR1Poll) r) := by
  have hsend := (sendFrame_holding index arg h).imp (fun _ _ h => h)
    fun _ _ h => h.mono (Nat.le_add_right x s.cfg.nR1Poll) (Nat.le_refl r)
  exact hsend.andThen fun _ _ hu => (waitR1_holding hu).andThen fun _ _ hv => hv.deselect

/-- A long exchange costs one receive more, if it wants it (R156). -/
theorem xchgLong_cost (index : BitVec 6) (arg : Word) (want : Byte → Bool) (h : Cost k x r s.calls) :
    (xchgLong index arg want s).Sat (fun _ => Released s (k + 1) (x + s.cfg.nR1Poll) (r + 1))
      (BrokenOff s (k + 1) (x + s.cfg.nR1Poll) (r + 1)) := by
  have hsend := (sendFrame_holding index arg h).imp (fun _ _ h => h)
    fun _ _ h => h.mono (Nat.le_add_right x s.cfg.nR1Poll) (Nat.le_add_right r 1)
  refine hsend.andThen fun _ _ hu => ?_
  have hwait := (waitR1_holding hu).imp (fun _ _ h => h) fun _ _ h => h.mono (Nat.le_refl _) (Nat.le_add_right r 1)
  refine hwait.andThen fun b v hv => ?_
  split
  · exact (readExt_holding hv).andThen fun _ _ hw => hw.deselect
  · exact (hv.mono (Nat.le_refl _) (Nat.le_add_right r 1)).deselect

end

/-! ### The states before `Ready`, whatever is answered (R165, R187, R188) -/

/-- The states before `Ready` in the order of the source (R165). -/
def statesInOrder : List NState := [.start, .resetIdle, .probeInterface, .readOcrInitial, .acmdInitLoop, .readOcrFinal]

/-- The fields that no state before `Ready` writes; what one of them writes is cleared. -/
def outsideNegotiation (s : State) : State := { outsideExchange s with
  nstate := .idle, npath := [], cls := .unclassified, voltageAccepted := false, probeLeft := 0, acmdDone := 0 }

/-- The three reasons of `Failed` (R165). -/
def FailureReason (e : Status) : Prop := e = .timeout ∨ e = .protocolMismatch ∨ e = .initTimeout

/-- `u` is between two exchanges of a negotiation begun at `s`: states passed among the first `m`, at most `k` exchanges and `r`
receives made. -/
structure Reached (s : State) (m k r : Nat) (u : State) : Prop where
  released : u.csHeld = false
  outside : outsideNegotiation u = outsideNegotiation s
  passed : u.npath.Sublist (statesInOrder.take m)
  cost : Cost k (k * s.cfg.nR1Poll) r u.calls

/-- The same with a class provisionally found (R172, R174). -/
structure Classified (s : State) (m k r : Nat) (u : State) : Prop extends Reached s m k r u where
  classified : u.cls ≠ .unclassified

/-- A negotiation begun at `s` ends in `Failed` with reason `e`, within the bounds of R190. -/
structure Stopped (s : State) (e : Status) (u : State) : Prop where
  reason : FailureReason e
  outside : outsideNegotiation u = outsideNegotiation s
  passed : u.npath.Sublist statesInOrder
  cost : Cost 46 (46 * s.cfg.nR1Poll) 5 (releaseCs u).calls

section

variable {s u : State} {m k r m' k' r' : Nat}

theorem Reached.mono (h : Reached s m k r u) (hm : m ≤ m') (hk : k ≤ k') (hr : r ≤ r') : Reached s m' k' r' u where
  released := h.released
  outside := h.outside
  passed := h.passed.trans (List.take_sublist_take_left hm)
  cost := h.cost.mono hk (Nat.mul_le_mul_right _ hk) hr

theorem Classified.mono (h : Classified s m k r u) (hm : m ≤ m') (hk : k ≤ k') (hr : r ≤ r') : Classified s m' k' r' u :=
  { h.toReached.mono hm hk hr with classified := h.classified }

theorem Reached.enterN {n : NState} (h : Reached s m k r u) (hn : statesInOrder[m]? = some n) :
    Reached s (m + 1) k r (enterN n u) where
  released := h.released
  outside := h.outside
  passed := by
    rw [List.take_add_one, hn]
    exact h.passed.append (List.Sublist.refl [n])
  cost := h.cost

theorem Classified.enterN {n : NState} (h : Classified s m k r u) (hn : statesInOrder[m]? = some n) :
    Classified s (m + 1) k r (enterN n u) :=
  { h.toReached.enterN hn with classified := h.classified }

/-- An exhausted budget ends the negotiation between two exchanges. -/
theorem Reached.stopped {e : Status} (h : Reached s m k r u) (hk : k ≤ 46) (hr : r ≤ 5) (he : FailureReason e) :
    Stopped s e u where
  reason := he
  outside := h.outside
  passed := h.passed.trans (List.take_sublist _ _)
  cost := by
    rw [releaseCs, h.released]
    exact h.cost.mono hk (Nat.mul_le_mul_right _ hk) hr

/-- One more exchange: it leaves the negotiation's own registers alone, and an error of it ends the negotiation in `Timeout`. -/
theorem Reached.exchange {p : Proc Byte} (h : Reached s m k r u) (hk : k < 46) (hr : r' ≤ 5)
    (hp : p.Sat (fun _ => Released u (k + 1) (k * s.cfg.nR1Poll + u.cfg.nR1Poll) r')
      (BrokenOff u (k + 1) (k * s.cfg.nR1Poll + u.cfg.nR1Poll) r')) :
    p.Sat (fun _ v => Reached s m (k + 1) r' v ∧ outsideExchange v = outsideExchange u) (Stopped s) := by
  have hcfg : u.cfg = s.cfg := (congrArg State.cfg h.outside :)
  rw [hcfg, ← Nat.succ_mul] at hp
  have houtside {v : State} (hv : outsideExchange v = outsideExchange u) : outsideNegotiation v = outsideNegotiation s :=
    (congrArg outsideNegotiation hv).trans h.outside
  have hpassed {v : State} (hv : outsideExchange v = outsideExchange u) : v.npath.Sublist (statesInOrder.take m) := by
    rw [show v.npath = u.npath from (congrArg State.npath hv :)]
    exact h.passed
  refine hp.imp (fun _ v hv => ⟨⟨hv.released, houtside hv.outside, hpassed hv.outside, hv.cost⟩, hv.outside⟩) ?_
  rintro e v ⟨rfl, hv⟩
  refine ⟨.inl rfl, houtside hv.outside, (hpassed hv.outside).trans (List.take_sublist _ _), ?_⟩
  rw [releaseCs, if_pos hv.held]
  exact hv.deselect.cost.mono hk (Nat.mul_le_mul_right _ hk) hr

theorem Reached.xchgShort (h : Reached s m k r u) (hk : k < 46) (hr : r ≤ 5) (index : BitVec 6) (arg : Word) :
    (xchgShort index arg u).Sat (fun _ v => Reached s m (k + 1) r v ∧ outsideExchange v = outsideExchange u) (Stopped s) :=
  h.exchange hk hr (xchgShort_cost index arg h.cost)

theorem Reached.xchgLong (h : Reached s m k r u) (hk : k < 46) (hr : r < 5) (index : BitVec 6) (arg : Word) (want : Byte → Bool) :
    (xchgLong index arg want u).Sat (fun _ v => Reached s m (k + 1) (r + 1) v ∧ outsideExchange v = outsideExchange u)
      (Stopped s) :=
  h.exchange hk hr (xchgLong_cost index arg want h.cost)

theorem Classified.of_exchange {v : State} (h : Classified s m k r u) (hv : Reached s m' k' r' v)
    (ho : outsideExchange v = outsideExchange u) : Classified s m' k' r' v :=
  { hv with classified := by rw [show v.cls = u.cls from (congrArg State.cls ho :)]; exact h.classified }

theorem resetIdle_reached (h : Reached s 0 0 0 u) : (resetIdle u).Sat (fun _ => Reached s 2 1 0) (Stopped s) := by
  have hstart : Reached s 2 0 0 (enterN .resetIdle (enterN .start u)) := (h.enterN rfl).enterN rfl
  exact (hstart.xchgShort (by decide) (by decide) 0 0).andThen fun _ _ hv => hv.1

/-- Each attempt costs one exchange and one receive, and finds a class or leaves one attempt less (R171 to R175). -/
theorem probeLoop_classified {n : Nat} (h : Reached s 3 k r u) (hn : u.nstate = .probeInterface) (hk : k + n ≤ 4)
    (hr : r + n ≤ 3) : (probeLoop n u).Sat (fun _ => Classified s 3 4 3) (Stopped s) := by
  induction n generalizing u k r with
  | zero => exact h.stopped (by omega) (by omega) (.inr (.inl rfl))
  | succ n ih =>
    refine (h.xchgLong (by omega) (by omega) 8 probeArg wantIfCond).andThen fun b v ⟨hv, ho⟩ => ?_
    have hstate : v.nstate = .probeInterface := (congrArg State.nstate ho).trans hn
    have hbound : Reached s 3 4 3 v := hv.mono (Nat.le_refl 3) (by omega) (by omega)
    split
    · exact { hbound with classified := by simp }
    · split
      · have hjudge : judgeIfCond v = setVoltage true (setCls .standardV2 v) := if_pos ⟨hstate, ‹_›⟩
        rw [hjudge]
        exact { hbound with classified := by simp }
      · exact ih (u := setProbeLeft n v) { hv with } hstate (by omega) (by omega)

theorem probeInterface_classified (h : Reached s 2 1 0 u) :
    (probeInterface u).Sat (fun _ => Classified s 3 4 3) (Stopped s) := by
  have hentry : Reached s 3 1 0 (enterN .probeInterface u) := h.enterN rfl
  exact probeLoop_classified (n := 3) (u := setProbeLeft 3 (enterN .probeInterface u)) { hentry with } rfl (by decide) (by decide)

theorem Classified.judgeOcr (h : Classified s m k r u) : Classified s m k r (judgeOcr u) := by
  unfold Sys2Proof.Machine.judgeOcr
  split
  · exact { h with classified := by simp only [setCls_fields]; split <;> decide }
  · exact h

/-- A state that reads the operating conditions: one exchange with its receive, which leaves some class (R176, R184). -/
theorem Classified.ocrExchange {n : NState} (want : Byte → Bool) (h : Classified s m k r u) (hn : statesInOrder[m]? = some n)
    (hk : k < 46) (hr : r < 5) :
    ((xchgLong 58 0 want (Sys2Proof.Machine.enterN n u)).andThen fun _ t => .done () (Sys2Proof.Machine.judgeOcr t)).Sat
      (fun _ => Classified s (m + 1) (k + 1) (r + 1)) (Stopped s) :=
  ((h.enterN hn).xchgLong hk hr 58 0 want).andThen fun _ _ ⟨hv, ho⟩ => ((h.enterN hn).of_exchange hv ho).judgeOcr

theorem readOcrInitial_classified (h : Classified s 3 4 3 u) :
    (readOcrInitial u).Sat (fun _ => Classified s 4 5 4) (Stopped s) := by
  unfold readOcrInitial
  split
  · exact h.mono (by decide) (by decide) (by decide)
  · exact h.ocrExchange _ rfl (by decide) (by decide)

theorem readOcrFinal_classified (h : Classified s 5 45 4 u) :
    (readOcrFinal u).Sat (fun _ => Classified s 6 46 5) (Stopped s) := by
  unfold readOcrFinal
  split
  · exact h.mono (by decide) (by decide) (by decide)
  · exact h.ocrExchange _ rfl (by decide) (by decide)

/-- Each iteration costs two exchanges (R180). -/
theorem acmdLoop_classified {n : Nat} (hcs : Word) (h : Classified s 5 k 4 u) (hk : k + 2 * n ≤ 45) :
    (acmdLoop n hcs u).Sat (fun _ => Classified s 5 45 4) (Stopped s) := by
  induction n generalizing u k with
  | zero => exact h.stopped (by omega) (by decide) (.inr (.inr rfl))
  | succ n ih =>
    refine (h.xchgShort (by omega) (by decide) 55 0).andThen fun _ v ⟨hv, hov⟩ => ?_
    refine (hv.xchgShort (by omega) (by decide) 41 hcs).andThen fun b w ⟨hw, how⟩ => ?_
    have hdone : Classified s 5 (k + 2) 4 (setAcmdDone (w.acmdDone + 1) w) := { h.of_exchange hw (how.trans hov) with }
    split
    · exact ih hdone (by omega)
    · exact hdone.mono (Nat.le_refl 5) (by omega) (Nat.le_refl 4)

theorem acmdInitLoop_classified (h : Classified s 4 5 4 u) :
    (acmdInitLoop u).Sat (fun _ => Classified s 5 45 4) (Stopped s) := by
  have hentry : Classified s 5 5 4 (enterN .acmdInitLoop u) := h.enterN rfl
  exact acmdLoop_classified (n := 20) _ (u := setAcmdDone 0 (enterN .acmdInitLoop u)) { hentry with } (by decide)

/-- The states in their order: a class found and committed, or an end in `Failed`. -/
theorem negotiationStates_classified (h : Reached s 0 0 0 s) :
    (negotiationStates s).Sat
      (fun v t => ∃ u, Classified s 6 46 5 u ∧ v = .cardClass u.cls ∧ t = commitSession u.cls (enterN .ready u)) (Stopped s) :=
  (resetIdle_reached h).andThen fun _ _ h => (probeInterface_classified h).andThen fun _ _ h =>
    (readOcrInitial_classified h).andThen fun _ _ h => (acmdInitLoop_classified h).andThen fun _ _ h =>
    (readOcrFinal_classified h).andThen fun _ u h => ⟨u, h, rfl, rfl⟩

end

/-- The two ends of NEGOTIATE (R186, R187). -/
theorem exec_negotiate_cases {s : State} (hb : Built s) :
    (∃ u, Classified (entered s) 6 46 5 u ∧
      exec .negotiate s = .next (exit .ok (.cardClass u.cls) (commitSession u.cls (enterN .ready u)))) ∨
    ∃ e u, Stopped (entered s) e u ∧ exec .negotiate s = .next (exit e .none (enterN .failed u)) := by
  have hstart : Reached (entered s) 0 0 0 (entered s) :=
    { released := hb.1.released, outside := rfl, passed := List.Sublist.refl []
      cost := cost_nil.mono (Nat.le_refl 0) (Nat.zero_le _) (Nat.le_refl 0) }
  have hstates := negotiationStates_classified hstart
  cases hrun : negotiationStates (entered s) with
  | done v t =>
    rw [hrun] at hstates
    obtain ⟨u, hu, rfl, rfl⟩ := hstates
    exact .inl ⟨u, hu, exec_negotiate_done hb hrun⟩
  | raised e u =>
    rw [hrun] at hstates
    exact .inr ⟨e, u, hstates, exec_negotiate_raised hb hrun⟩

/-- What no state writes is NEGOTIATE's frame, and the session as its entry left it (R166, R167). -/
theorem frame_of_outside {s u : State} (h : outsideNegotiation u = outsideNegotiation (entered s)) :
    NegotiateFrame s u ∧ u.cardClass = .unclassified ∧ u.blockAddressing = .byteAddressed ∧
      u.checksumEnabled = modeAfterNegotiate s := by
  have hframe : NegotiateFrame s (outsideNegotiation u) := by
    rw [h]
    exact ⟨⟨fun _ => rfl, rfl⟩, ⟨fun _ => rfl, fun _ => rfl⟩, ⟨fun _ => rfl, fun _ => rfl⟩, ⟨rfl, rfl, rfl⟩, rfl⟩
  exact ⟨hframe, congrArg State.cardClass h, congrArg State.blockAddressing h, congrArg State.checksumEnabled h⟩

/-- The frame reads no register that the end of an operation writes. -/
theorem negotiateFrame_exit {s u : State} (h : NegotiateFrame s u) (st : Status) (v : Value) : NegotiateFrame s (exit st v u) := by
  simpa [NegotiateFrame, SameTable, SameOut, SameBuffers, SameInputs] using h

theorem FailureReason.ne_ok {e : Status} (h : FailureReason e) : e ≠ .ok := by
  obtain rfl | rfl | rfl := h <;> decide

/-! ### The obligations over any answers -/

/-- Settles O26: nothing is written outside the negotiation's registers until the commit, which writes class and mode together. -/
theorem negotiateOutcomes : Obligations.NegotiateOutcomes := by
  intro s hb
  obtain ⟨u, hu, hexec⟩ | ⟨e, u, hu, hexec⟩ := exec_negotiate_cases hb
  · obtain ⟨hframe, -, -, hmode⟩ := frame_of_outside hu.outside
    refine ⟨_, hexec, negotiateFrame_exit (u := commitSession u.cls (enterN .ready u)) hframe _ _,
      by simpa using hmode, .inl ⟨?_, ?_, ?_⟩⟩
    · simp
    · simpa using hu.classified
    · simpa using addressingOf_eq_block u.cls
  · obtain ⟨hframe, hclass, haddr, hmode⟩ := frame_of_outside hu.outside
    refine ⟨_, hexec, negotiateFrame_exit (u := enterN .failed u) hframe _ _,
      by simpa using hmode, .inr ⟨by simpa using hclass, by simpa using haddr, ?_⟩⟩
    simpa [FailureReason] using hu.reason

/-- Settles O27: the states passed are among those before `Ready`, in order, and the last one goes with the status. -/
theorem negotiationMovesForward : Obligations.NegotiationMovesForward := by
  intro s t hb e
  obtain ⟨u, hu, hexec⟩ | ⟨st, u, hu, hexec⟩ := exec_negotiate_cases hb
  · obtain rfl := Host.Outcome.next.inj (e.symm.trans hexec)
    have hpath : (u.npath ++ [NState.ready]).Sublist (statesInOrder ++ [.ready]) := hu.passed.append (List.Sublist.refl _)
    refine ⟨.inl ?_, by simp, by simp, by simp⟩
    simpa only [exit_fields, commitSession_fields, enterN_fields, statesInOrder, List.cons_append, List.nil_append] using hpath
  · obtain rfl := Host.Outcome.next.inj (e.symm.trans hexec)
    have hpath : (u.npath ++ [NState.failed]).Sublist (statesInOrder ++ [.failed]) := hu.passed.append (List.Sublist.refl _)
    have hne := hu.reason.ne_ok
    refine ⟨.inr ?_, by simp [hne], by simp [hne], by simp⟩
    simpa only [exit_fields, enterN_fields, statesInOrder, List.cons_append, List.nil_append] using hpath

/-- Settles O29: at most 1 + 3 + 1 + 2 * 20 + 1 exchanges, each within its poll budget, five of them with a receive. -/
theorem negotiateCallBounds : Obligations.NegotiateCallBounds := by
  intro s t hb e
  have hcost : Cost 46 (46 * (entered s).cfg.nR1Poll) 5 t.calls := by
    obtain ⟨u, hu, hexec⟩ | ⟨st, u, hu, hexec⟩ := exec_negotiate_cases hb
    · obtain rfl := Host.Outcome.next.inj (e.symm.trans hexec)
      simpa [hu.released] using hu.cost
    · obtain rfl := Host.Outcome.next.inj (e.symm.trans hexec)
      simpa using hu.cost
  exact ⟨hcost.selects, hcost.sends ▸ hcost.selects, hcost.xbytes, hcost.recvs, hcost.deselects, hcost.setDivs, hcost.sends⟩

end Sys2Proof.Machine

/-! PROOF. NEGOTIATE over scripted answers (43_negotiation.md): the classes, the two exhausted budgets and the silent card. -/

namespace Sys2Proof.Machine

/-! ### What NEGOTIATE leaves, once its result is known -/

/-- NEGOTIATE keeps its frame and leaves the mode of R167 and R186, whatever the transport answers. -/
theorem exec_negotiate_frame {s t : State} (hb : Built s) (e : exec .negotiate s = .next t) :
    NegotiateFrame s t ∧ t.checksumEnabled = modeAfterNegotiate s := by
  obtain ⟨t', e', hframe, hmode, -⟩ := negotiateOutcomes s hb
  obtain rfl := Host.Outcome.next.inj (e'.symm.trans e)
  exact ⟨hframe, hmode⟩

/-- An error result goes with an `Unclassified`, byte-addressed session (R187). -/
theorem exec_negotiate_unclassified {s t : State} {st : Status} (hb : Built s) (e : exec .negotiate s = .next t)
    (hr : t.resp = some ⟨st, .none⟩) : t.cardClass = .unclassified ∧ t.blockAddressing = .byteAddressed := by
  obtain ⟨t', e', -, -, ⟨hok, -⟩ | ⟨hclass, haddr, -⟩⟩ := negotiateOutcomes s hb
  · obtain rfl := Host.Outcome.next.inj (e'.symm.trans e)
    simp [hok] at hr
  · obtain rfl := Host.Outcome.next.inj (e'.symm.trans e)
    exact ⟨hclass, haddr⟩

/-! ### The states on scripted answers -/

section

variable {s : State} {w : R1Wait} {e : Bytes4} {rest : List Answer}

/-- The frame of index 0 (R72, R169). -/
theorem frameBytes_goIdle : frameBytes 0 0 = [0x40, 0, 0, 0, 0, 0x95] := by decide +kernel

/-- State `ResetIdle` when the response to index 0 arrives (R169). -/
theorem resetIdle_script (ht : s.table = builtTable) (hw : w.Within s.cfg) (ha : s.answers = w.answers ++ rest) :
    ∃ u, resetIdle s = .done () u ∧
      Exchanged (enterN .resetIdle (enterN .start s)) u (exchangeCalls s.cfg 0 0 w false) rest := by
  obtain ⟨u, hu, hx⟩ := xchgShort_exchanged (s := enterN .resetIdle (enterN .start s)) hw ht ha 0 0
  exact ⟨u, by rw [resetIdle, hu, Proc.done_andThen], hx⟩

/-- A short exchange whose R1 does not come raises `Timeout` in its hold, all polls made (R153). -/
theorem xchgShort_timeout {fs : List Byte} (ht : s.table = builtTable) (hn : fs.length = s.cfg.nR1Poll)
    (hf : ∀ f ∈ fs, f.getLsbD 7 = true) (ha : s.answers = .data [] :: byteAnswers fs ++ rest) (index : BitVec 6) (arg : Word) :
    ∃ u, xchgShort index arg s = .raised .timeout u ∧ u.csHeld = true ∧ u.npath = s.npath ∧ u.answers = rest ∧
      u.calls = s.calls ++ [.select, .send (frameBytes index arg) s.cfg.tBuf] ++ polls s.cfg s.cfg.nR1Poll := by
  have hpoll : (afterSend index arg (byteAnswers fs ++ rest) s).cfg.nR1Poll = fs.length := hn.symm
  refine ⟨setPollLeft 0 (afterPolls fs.length rest (afterSend index arg (byteAnswers fs ++ rest) s)), ?_, ?_⟩
  · rw [xchgShort, sendFrame_script (bs := []) (rest := byteAnswers fs ++ rest) (by simpa using ha), Proc.done_andThen, waitR1,
      hpoll, pollR1_timeout hf rfl, Proc.raised_andThen]
  · rw [afterSend_built ht, hn]
    exact ⟨rfl, rfl, rfl, rfl⟩

/-- State `ReadOcrFinal` is passed over on the legacy path (R182). -/
theorem readOcrFinal_legacy (h : s.cls = .legacyV1) : readOcrFinal s = .done () s := if_pos h

/-- State `ReadOcrFinal` when its response arrives: bit 6 of the first byte decides the class (R184). -/
theorem readOcrFinal_script (hc : s.cls ≠ .legacyV1) (ht : s.table = builtTable) (hw : w.Within s.cfg)
    (ha : s.answers = extAnswers w e ++ rest) :
    ∃ u, readOcrFinal s = .done () (setCls (if e.b0.getLsbD 6 then .highCapacityV2 else .standardV2) u) ∧
      Exchanged (enterN .readOcrFinal s) u (exchangeCalls s.cfg 58 0 w true) rest := by
  obtain ⟨u, hu, hx, hext⟩ := xchgLong_exchanged (s := enterN .readOcrFinal s) hw ht ha 58 0 (wantOcr .readOcrFinal) rfl
  have hjudge : judgeOcr u = setCls (if e.b0.getLsbD 6 then .highCapacityV2 else .standardV2) u := by
    have hstate : u.nstate = .readOcrFinal := hx.nstate
    rw [judgeOcr, if_pos hstate, hext, ocrOf_eq]
  exact ⟨u, by rw [readOcrFinal, if_neg hc, hu, Proc.done_andThen, hjudge], hx⟩

end

/-! ### The init loop after a probe script (R178 to R182) -/

/-- The argument of index 41 is that of the class the probes found (R178). -/
theorem hcsArg_probed (p : ProbeScript) : hcsArg (if p.legacy then .legacyV1 else .standardV2) = p.hcs := by
  cases h : p.legacy <;> simp [hcsArg, ProbeScript.hcs, h]

/-- `u` is NEGOTIATE on `s` after the probe script `p` and `n` iterations of the init loop with the calls `cs`; `rest` is left. -/
structure InitLooped (s : State) (p : ProbeScript) (cs : List Call) (n : Nat) (rest : List Answer) (u : State) : Prop where
  untouched : Untouched (entered s) u
  calls : u.calls = p.calls s.cfg ++ cs
  answers : u.answers = rest
  npath : u.npath = p.path
  cls : u.cls = if p.legacy then .legacyV1 else .standardV2
  voltage : u.voltageAccepted = !p.legacy
  acmdDone : u.acmdDone = n

section

variable {s : State} {p : ProbeScript} {tries : List AcmdTry} {last : AcmdTry} {rest : List Answer}

theorem InitLooped.table {cs : List Call} {n : Nat} {u : State} (h : InitLooped s p cs n rest u) (hb : Built s) :
    u.table = builtTable := h.untouched.table.trans (hb.1.tableContents hb.2)

/-- Iterations that leave the idle flag set use up as many of the 20 (R180, R181). -/
theorem negotiationStates_tried (hb : Built s) (hp : p.Decides s.cfg) (hn : tries.length ≤ 20)
    (ht : ∀ a ∈ tries, a.Ends s.cfg true) (ha : s.answers = p.answers ++ tries.flatMap AcmdTry.answers ++ rest) :
    ∃ u, negotiationStates (entered s) = ((acmdLoop (20 - tries.length) p.hcs u).andThen fun _ s =>
        (readOcrFinal s).andThen fun _ s => becomeReady s) ∧
      InitLooped s p (tries.flatMap (AcmdTry.calls s.cfg p.hcs)) tries.length rest u := by
  have htable : (entered s).table = builtTable := hb.1.tableContents hb.2
  obtain ⟨t, hrun, ut, ct, at', nt, clt, vt⟩ := negotiationStates_probed (s := entered s)
    (rest := tries.flatMap AcmdTry.answers ++ rest) htable hp (by rw [← List.append_assoc]; exact ha) rfl rfl rfl
  have hcfg : t.cfg = s.cfg := ut.cfg
  obtain ⟨u, hloop, uu, cu, au, nu, -, clu, vu, du⟩ := acmdLoop_many (s := setAcmdDone 0 (enterN .acmdInitLoop t))
    (tries := tries) (hcs := p.hcs) (rest := rest) (n := 20 - tries.length) (ut.table.trans htable) (by simpa [hcfg] using ht) at' ut.cs
  rw [Nat.add_sub_of_le hn] at hloop
  refine ⟨u, ?_, ?_⟩
  · rw [hrun, acmdInitLoop, clt, hcsArg_probed]
    simp only [Config.nAcmd, hloop]
  · exact {
      untouched := ut.trans (Untouched.of_enterN (n := .acmdInitLoop) { uu with })
      calls := by simpa [ct, hcfg] using cu
      answers := au
      npath := by simpa [nt] using nu
      cls := clu.trans clt
      voltage := vu.trans vt
      acmdDone := by simpa using du }

/-- An iteration that clears the idle flag within the 20 leaves the loop (R182). -/
theorem negotiationStates_cleared (hb : Built s) (hp : p.Decides s.cfg) (hn : tries.length < 20)
    (ht : ∀ a ∈ tries, a.Ends s.cfg true) (hl : last.Ends s.cfg false)
    (ha : s.answers = p.answers ++ tries.flatMap AcmdTry.answers ++ last.answers ++ rest) :
    ∃ u, negotiationStates (entered s) = ((readOcrFinal u).andThen fun _ s => becomeReady s) ∧
      InitLooped s p (tries.flatMap (AcmdTry.calls s.cfg p.hcs) ++ last.calls s.cfg p.hcs) (tries.length + 1) rest u := by
  obtain ⟨t, hrun, it⟩ := negotiationStates_tried (rest := last.answers ++ rest) hb hp hn.le ht (by rw [ha]; simp)
  have hcfg : t.cfg = s.cfg := it.untouched.cfg
  obtain ⟨u, hone, uu, cu, au, nu, -, clu, vu, du⟩ := acmdLoop_one (s := t) (a := last) (idle := false) (hcs := p.hcs)
    (rest := rest) (n := 19 - tries.length) (it.table hb) (by rw [hcfg]; exact hl) it.answers
  rw [show 19 - tries.length + 1 = 20 - tries.length by omega] at hone
  refine ⟨u, by rw [hrun, hone]; rfl, ?_⟩
  exact {
    untouched := it.untouched.trans uu
    calls := by rw [cu, it.calls, hcfg, List.append_assoc]
    answers := au
    npath := nu.trans it.npath
    cls := clu.trans it.cls
    voltage := vu.trans it.voltage
    acmdDone := by rw [du, it.acmdDone] }

end

/-! ### How often a command is sent (R181) -/

theorem isSendOf_frame (first : Byte) (index : BitVec 6) (arg : Word) (n : Nat) :
    isSendOf first (.send (frameBytes index arg) n) = (0b01#2 ++ index == first) := rfl

/-- One exchange sends its own command once and no other. -/
theorem countCalls_isSendOf_exchange (first : Byte) (c : Config) (index : BitVec 6) (arg : Word) (w : R1Wait) (ext : Bool) :
    countCalls (isSendOf first) (exchangeCalls c index arg w ext) = if 0b01#2 ++ index = first then 1 else 0 := by
  have hpolls (n : Nat) : countCalls (isSendOf first) (polls c n) = 0 := by
    simp [countCalls, polls, isSendOf]
  have hrest : countCalls (isSendOf first) ((if ext then [.recv 4 c.tBuf] else []) ++ [.deselect]) = 0 := by cases ext <;> rfl
  have hhead : countCalls (isSendOf first) [.select, .send (frameBytes index arg) c.tBuf] =
      if 0b01#2 ++ index = first then 1 else 0 := by
    rw [countCalls, List.filter_cons_of_neg (by simp [isSendOf]), List.filter_cons, isSendOf_frame]
    split <;> simp_all
  rw [exchangeCalls, List.append_assoc, countCalls_append, countCalls_append, hhead, hpolls, hrest, Nat.add_zero]

theorem countCalls_flatMap {α : Type} (q : Call → Bool) (f : α → List Call) {n : Nat} {l : List α}
    (h : ∀ a ∈ l, countCalls q (f a) = n) : countCalls q (l.flatMap f) = l.length * n := by
  induction l with
  | nil => simp [countCalls]
  | cons a l ih =>
    rw [List.flatMap_cons, countCalls_append, h a (by simp), ih fun b hb => h b (by simp [hb]), List.length_cons]
    ring

/-- Before the init loop neither index 55 nor index 41 is sent: the indices are 0, 8 and 58 (R169, R171, R176). -/
theorem countCalls_isSendOf_probe (c : Config) (p : ProbeScript) {first : Byte} (h0 : 0b01#2 ++ (0 : BitVec 6) ≠ first)
    (h8 : 0b01#2 ++ (8 : BitVec 6) ≠ first) (h58 : 0b01#2 ++ (58 : BitVec 6) ≠ first) :
    countCalls (isSendOf first) (p.calls c) = 0 := by
  have hmiss : ∀ m ∈ p.misses, countCalls (isSendOf first) (probeCalls c m.1 true) = 0 := fun m _ => by
    rw [probeCalls, countCalls_isSendOf_exchange, if_neg h8]
  rw [ProbeScript.calls, countCalls_append, countCalls_append, countCalls_flatMap _ _ hmiss, countCalls_isSendOf_exchange,
    if_neg h0]
  split
  · rw [probeCalls, countCalls_isSendOf_exchange, if_neg h8, Nat.mul_zero]
  · rw [countCalls_append, probeCalls, countCalls_isSendOf_exchange, countCalls_isSendOf_exchange, if_neg h8, if_neg h58,
      Nat.mul_zero]

/-- An iteration sends index 55 once and index 41 once (R180). -/
theorem countCalls_isSendOf_try (c : Config) (hcs : Word) (a : AcmdTry) :
    countCalls (isSendOf 0x77) (a.calls c hcs) = 1 ∧ countCalls (isSendOf 0x69) (a.calls c hcs) = 1 := by
  simp only [AcmdTry.calls, countCalls_append, countCalls_isSendOf_exchange]
  decide

/-! ### The obligations over scripted answers -/

/-- Settles O22: after the init loop the legacy path commits at once. -/
theorem negotiateClassifiesLegacy : Obligations.NegotiateClassifiesLegacy := by
  intro s p tries last rest hb hp hl hn ht hlast ha
  obtain ⟨u, hrun, iu⟩ := negotiationStates_cleared hb hp hn ht hlast ha
  have hcls : u.cls = .legacyV1 := by rw [iu.cls, if_pos hl]
  have hhcs : p.hcs = 0x00000000 := if_pos hl
  rw [readOcrFinal_legacy hcls, Proc.done_andThen, becomeReady, hcls] at hrun
  have hexec := exec_negotiate_done hb hrun
  obtain ⟨hframe, hmode⟩ := exec_negotiate_frame hb hexec
  refine ⟨_, hexec, by simp, by simp, by simp [addressingOf], hmode, ?_, ?_, ?_, ?_, ?_, hframe⟩
  · simp [iu.untouched.cs, iu.calls, hhcs]
  · simp [iu.npath]
  · simp [iu.acmdDone]
  · simp [iu.voltage, hl]
  · simp [iu.answers]

/-- Settles O23: after the init loop one more index 58, whose capacity bit decides the class that is committed. -/
theorem negotiateClassifiesByCapacity : Obligations.NegotiateClassifiesByCapacity := by
  intro s p tries last w e rest hb hp hl hn ht hlast hw ha
  obtain ⟨u, hrun, iu⟩ := negotiationStates_cleared (rest := extAnswers w e ++ rest) hb hp hn ht hlast (by rw [ha]; simp)
  have hcfg : u.cfg = s.cfg := iu.untouched.cfg
  have hcls : u.cls ≠ .legacyV1 := by simp [iu.cls, hl]
  have hhcs : p.hcs = 0x40000000 := if_neg (by simp [hl])
  obtain ⟨v, hocr, xv⟩ := readOcrFinal_script (w := w) hcls (iu.table hb) (by rw [hcfg]; exact hw) iu.answers
  rw [hocr, Proc.done_andThen, becomeReady] at hrun
  have hexec := exec_negotiate_done hb hrun
  obtain ⟨hframe, hmode⟩ := exec_negotiate_frame hb hexec
  refine ⟨_, hexec, by simp, by simp, ?_, hmode, ?_, ?_, ?_, ?_, ?_, hframe⟩
  · simp only [exit_fields, commitSession_fields, setCls_fields, addressingOf]
    split <;> simp
  · simp [xv.cs, xv.calls, iu.calls, hhcs, hcfg]
  · simp [xv.npath, iu.npath]
  · simp [xv.acmd, iu.acmdDone]
  · simp [xv.volt, iu.voltage, hl]
  · simp [xv.answers]

/-- Settles O24: three misses leave no attempt, and the loop raises `ProtocolMismatch`. -/
theorem threeMismatchesEndNegotiation : Obligations.ThreeMismatchesEndNegotiation := by
  intro s w a b c rest hb hw hma hmb hmc ha
  have htable : (entered s).table = builtTable := hb.1.tableContents hb.2
  obtain ⟨u, hidle, xu⟩ := resetIdle_script (s := entered s) (w := w) (rest := [a, b, c].flatMap missAnswers ++ rest) htable hw
    (by simpa using ha)
  have hcfg : u.cfg = s.cfg := xu.cfg
  have hmiss : ∀ m ∈ [a, b, c], ProbeMiss u.cfg m := by simp [hcfg, hma, hmb, hmc]
  obtain ⟨v, hprobe, uv, cv, av, nv, -⟩ := probeLoop_misses (s := setProbeLeft 3 (enterN .probeInterface u)) (ms := [a, b, c])
    (rest := rest) (n := 0) (xu.table.trans htable) hmiss xu.answers xu.cs
  have hrun : negotiationStates (entered s) = .raised .protocolMismatch v := by
    have hstate : probeInterface u = .raised .protocolMismatch v := hprobe
    rw [negotiationStates, hidle, Proc.done_andThen, hstate, Proc.raised_andThen]
  have hexec := exec_negotiate_raised hb hrun
  obtain ⟨hclass, -⟩ := exec_negotiate_unclassified (st := .protocolMismatch) hb hexec (by simp)
  refine ⟨_, hexec, by simp, hclass, ?_, ?_, ?_⟩
  · simp [uv.cs, cv, xu.calls, hcfg]
  · simp [nv, xu.npath]
  · simp [av]

/-- Settles O25: 20 iterations leave none, and the loop raises `InitTimeout`; only they send index 55 and index 41. -/
theorem twentyTriesEndNegotiation : Obligations.TwentyTriesEndNegotiation := by
  intro s p tries rest hb hp hn ht ha
  obtain ⟨u, hrun, iu⟩ := negotiationStates_tried hb hp hn.le ht ha
  rw [hn, acmdLoop, Proc.raised_andThen] at hrun
  have hexec := exec_negotiate_raised hb hrun
  obtain ⟨hclass, -⟩ := exec_negotiate_unclassified (st := .initTimeout) hb hexec (by simp)
  have hcalls : (exit .initTimeout .none (enterN .failed u)).calls
      = p.calls s.cfg ++ tries.flatMap (AcmdTry.calls s.cfg p.hcs) := by simp [iu.untouched.cs, iu.calls]
  refine ⟨_, hexec, by simp, hclass, hcalls, ?_, ?_, by simp [iu.npath], by simp [iu.acmdDone, hn], by simp [iu.answers]⟩
  · rw [hcalls, countCalls_append, countCalls_isSendOf_probe _ _ (by decide) (by decide) (by decide),
      countCalls_flatMap _ _ fun a _ => (countCalls_isSendOf_try s.cfg p.hcs a).1, hn]
  · rw [hcalls, countCalls_append, countCalls_isSendOf_probe _ _ (by decide) (by decide) (by decide),
      countCalls_flatMap _ _ fun a _ => (countCalls_isSendOf_try s.cfg p.hcs a).2, hn]

/-- Settles O28: the first exchange raises `Timeout` in its hold, and the exit procedure releases chip-select. -/
theorem silentCardEndsNegotiation : Obligations.SilentCardEndsNegotiation := by
  intro s fillers rest hb hn hf ha
  have htable : (enterN .resetIdle (enterN .start (entered s))).table = builtTable := hb.1.tableContents hb.2
  obtain ⟨u, hidle, hheld, hpath, hrest, hcalls⟩ := xchgShort_timeout htable hn hf ha 0 0
  have hrun : negotiationStates (entered s) = .raised .timeout u := by
    rw [negotiationStates, resetIdle, hidle, Proc.raised_andThen, Proc.raised_andThen]
  have hexec := exec_negotiate_raised hb hrun
  obtain ⟨hclass, haddr⟩ := exec_negotiate_unclassified (st := .timeout) hb hexec (by simp)
  rw [frameBytes_goIdle] at hcalls
  refine ⟨_, hexec, by simp, hclass, haddr, (exec_negotiate_frame hb hexec).2, ?_, ?_, ?_⟩
  · simp [hheld, hcalls]
  · simp [hpath]
  · simp [hrest]

end Sys2Proof.Machine

/-! PROOF. The block transfer family (44_block_transfer.md): what a read transaction returns when all its responses arrive, and what
calls it makes whatever is answered. -/

namespace Sys2Proof.Machine

/-! ### The three read operations past their entry checks (R196, R197, R205) -/

/-- A read operation past its entry checks: the transaction, then its payload delivered to `out` (R204). -/
def transactAndDeliver (index : BitVec 6) (arg : Word) (tr : Transfer) (check : Bool) (view : List Byte → Value) (s : State) :
    Proc Value :=
  (readData index arg tr check s).andThen fun p u => .done (view p) (deliverPayload tr p u)

/-- Without the table a read ends before anything else (R197 a). -/
theorem readEntry_unbuilt {s : State} (h : s.tableBuilt = false) : readEntry s = .raised .tableNotBuilt s := by
  rw [readEntry, needTable_unbuilt h, Proc.raised_andThen]

/-- An operation whose entry checks fail ends with their error alone. -/
theorem runOperation_readEntry_raised (f : Unit → State → Proc Value) {s : State} {e : Status} (hs : s.csHeld = false)
    (h : readEntry (accept s) = .raised e (accept s)) :
    runOperation (fun s => (readEntry s).andThen f) s = .next (answered s e .none) := by
  rw [runOperation_raised (by rw [h, Proc.raised_andThen]), exit_accept _ _ hs]

/-- In a Ready session an operation passes its entry checks. -/
theorem runOperation_readEntry_ready (f : Unit → State → Proc Value) {s : State} (hr : Ready s) :
    runOperation (fun s => (readEntry s).andThen f) s = runOperation (f ()) s := by
  have hentry : readEntry (accept s) = .done () (accept s) := readEntry_ready hr.1.2 hr.2
  rw [runOperation, hentry, Proc.done_andThen, runOperation]

/-- A read operation whose entry checks fail. -/
theorem exec_read_rejected {s : State} {i : Instr} {e : Status} (hs : s.csHeld = false)
    (hi : i = .readCid ∨ i = .readCsd ∨ ∃ index, i = .readBlock index)
    (h : readEntry (accept s) = .raised e (accept s)) : exec i s = .next (answered s e .none) := by
  obtain rfl | rfl | ⟨index, rfl⟩ := hi <;> exact runOperation_readEntry_raised _ hs h

theorem exec_readBlock {s : State} (hr : Ready s) (index : Word) : exec (.readBlock index) s =
    runOperation (transactAndDeliver 17 (translateIndex s.blockAddressing index) .block s.checksumEnabled fun _ => .block) s :=
  runOperation_readEntry_ready _ hr

theorem exec_readCid {s : State} (hr : Ready s) :
    exec .readCid s = runOperation (transactAndDeliver 10 0 .register false fun p => .cid (cidOf p)) s :=
  runOperation_readEntry_ready _ hr

theorem exec_readCsd {s : State} (hr : Ready s) :
    exec .readCsd s = runOperation (transactAndDeliver 9 0 .register false fun p => .csd (csdOf p)) s :=
  runOperation_readEntry_ready _ hr

/-! ### Where a transfer's bytes go (R198, R204) -/

@[simp] theorem storeBuffer_block (bs : List Byte) (s : State) : storeBuffer .block bs s = setDbuf bs s := rfl

@[simp] theorem storeBuffer_register (bs : List Byte) (s : State) : storeBuffer .register bs s = setRbuf bs s := rfl

@[simp] theorem deliverPayload_block (bs : List Byte) (s : State) : deliverPayload .block bs s = setOutBlock bs s := rfl

@[simp] theorem deliverPayload_register (bs : List Byte) (s : State) : deliverPayload .register bs s = setOutReg bs s := rfl

/-! ### A transaction whose responses all arrive (R198 to R201) -/

/-- The answers of a read transaction from `s`: R1 `0x00` and the token within their budgets, then the packet `buf`. -/
structure Arrives (w : R1Wait) (fillers buf : List Byte) (rest : List Answer) (s : State) : Prop where
  table : s.table = builtTable
  within : w.Within s.cfg
  noError : w.r1 = 0
  token : TokenWithin s.cfg fillers
  answers : s.answers = readAnswers w fillers buf ++ rest

/-- `s` after a transaction that returned: the packet in its buffer, the registers of the exchange, and `reg16` when the trailer was
checked (R198, R201). -/
def transacted (index : BitVec 6) (arg : Word) (w : R1Wait) (fillers : List Byte) (tr : Transfer) (check : Bool)
    (payload trailer : List Byte) (rest : List Answer) (s : State) : State :=
  storeBuffer tr (payload ++ trailer) { s with
    acc7 := bitFold (frameBody index arg), frame := sentFrame index arg, r1 := 0
    reg16 := if check then crc16Loop payload else s.reg16
    pollLeft := s.cfg.nTokenPoll - fillers.length, csHeld := false, bstate := .bIdle, answers := rest
    draws := s.draws + 1 + (w.fillers.length + 1) + (fillers.length + 1) + 1
    calls := s.calls ++ readCalls s.cfg index arg w fillers (payloadLen tr + 2)
    bpath := s.bpath ++ [.bCommand, .bToken, .bData, .bCheck] }

/-- A payload that is not checked, or has the trailer it must have, is returned (R201). -/
theorem validate_returns {check : Bool} {payload : List Byte} {rx : BitVec 16} (h : check = true → crc16Result payload = rx)
    (tr : Transfer) (s : State) : validate tr check payload rx s =
      .done payload { s with reg16 := if check then crc16Loop payload else s.reg16 } := by
  cases check with
  | false => rfl
  | true =>
    rw [validate, if_pos rfl, ← crc16Result_eq, if_pos (h rfl), ← crc16Loop_eq]
    rfl

/-- A checked payload with another trailer is delivered and refused (R201, R204). -/
theorem validate_rejects {payload : List Byte} {rx : BitVec 16} (h : crc16Result payload ≠ rx) (tr : Transfer) (s : State) :
    validate tr true payload rx s = .raised .dataChecksumError (deliverPayload tr payload (setReg16 (crc16Loop payload) s)) := by
  rw [validate, if_pos rfl, ← crc16Result_eq, if_neg h, ← crc16Loop_eq]

section

variable {s : State} {w : R1Wait} {fillers payload : List Byte} {hi lo : Byte} {rest : List Answer} {tr : Transfer} {check : Bool}

/-- The transaction up to its comparison (R198). -/
theorem readData_validates (h : Arrives w fillers (payload ++ [hi, lo]) rest s) (hp : payload.length = payloadLen tr)
    (index : BitVec 6) (arg : Word) (check : Bool) : readData index arg tr check s =
      (validate tr check payload (hi ++ lo) (dataState index arg w fillers tr (payload ++ [hi, lo]) rest s)).andThen
        fun p u => .done p (endRead (tDeselect u)) := by
  rw [readData_script h.table h.within h.noError h.token tr (by simp [hp]) h.answers, trailerOf_append hp, ← hp, List.take_left]

theorem readData_returns (h : Arrives w fillers (payload ++ [hi, lo]) rest s) (hp : payload.length = payloadLen tr)
    (hc : check = true → crc16Result payload = hi ++ lo) (index : BitVec 6) (arg : Word) : readData index arg tr check s =
      .done payload (transacted index arg w fillers tr check payload [hi, lo] rest s) := by
  rw [readData_validates h hp, validate_returns hc, Proc.done_andThen]
  cases tr <;> simp [transacted, dataState, setDbuf, setRbuf, tDeselect, endRead, readCalls]

theorem transactAndDeliver_returns (h : Arrives w fillers (payload ++ [hi, lo]) rest s) (hp : payload.length = payloadLen tr)
    (hc : check = true → crc16Result payload = hi ++ lo) (index : BitVec 6) (arg : Word) (view : List Byte → Value) :
    transactAndDeliver index arg tr check view s = .done (view payload)
      (deliverPayload tr payload (transacted index arg w fillers tr check payload [hi, lo] rest s)) := by
  rw [transactAndDeliver, readData_returns h hp hc, Proc.done_andThen]

theorem transactAndDeliver_rejects (h : Arrives w fillers (payload ++ [hi, lo]) rest s) (hp : payload.length = payloadLen tr)
    (hc : crc16Result payload ≠ hi ++ lo) (index : BitVec 6) (arg : Word) (view : List Byte → Value) :
    transactAndDeliver index arg tr true view s = .raised .dataChecksumError (deliverPayload tr payload
      (setReg16 (crc16Loop payload) (dataState index arg w fillers tr (payload ++ [hi, lo]) rest s))) := by
  rw [transactAndDeliver, readData_validates h hp, validate_rejects hc, Proc.raised_andThen, Proc.raised_andThen]

/-- Between two operations a built table has the contents of R111. -/
theorem Arrives.of_built {buf : List Byte} (hb : Built s) (hw : w.Within s.cfg) (h0 : w.r1 = 0) (hf : TokenWithin s.cfg fillers)
    (ha : s.answers = readAnswers w fillers buf ++ rest) : Arrives w fillers buf rest s :=
  ⟨hb.1.tableContents hb.2, hw, h0, hf, ha⟩

theorem Arrives.accept {buf : List Byte} (h : Arrives w fillers buf rest s) : Arrives w fillers buf rest (accept s) := { h with }

theorem Arrives.beginStep {buf : List Byte} (h : Arrives w fillers buf rest s) : Arrives w fillers buf rest (beginStep s) := { h with }

/-- A transaction run alone (log 13). -/
theorem readExchange_alone (hb : Built s) (h : Arrives w fillers (payload ++ [hi, lo]) rest s) (hp : payload.length = payloadLen tr)
    (hc : check = true → crc16Result payload = hi ++ lo) (index : BitVec 6) (arg : Word) :
    runInternal (readExchange index arg tr check) s =
      .next (transacted index arg w fillers tr check payload [hi, lo] rest (beginStep s)) :=
  runInternal_needTable_done hb.2 (by rw [readData_returns h.beginStep hp hc, Proc.done_andThen])

end

/-! ### The calls of a read, whatever is answered (R198, R208) -/

theorem countCalls_nil (p : Call → Bool) : countCalls p [] = 0 := rfl

theorem countCalls_cons (p : Call → Bool) (c : Call) (cs : List Call) :
    countCalls p (c :: cs) = (if p c then 1 else 0) + countCalls p cs := by
  cases h : p c <;> simp [countCalls, h, Nat.add_comm]

theorem countCalls_replicate (p : Call → Bool) (n : Nat) (c : Call) :
    countCalls p (List.replicate n c) = if p c then n else 0 := by
  cases h : p c <;> simp [countCalls, h]

/-- The calls of a read in its hold: the frame sent, `x` byte exchanges made, then `r` receives. -/
def heldReadCalls (c : Config) (bytes : List Byte) (x r n : Nat) : List Call :=
  [.select, .send bytes c.tBuf] ++ polls c x ++ List.replicate r (.recv n c.tBuf)

/-- `u` is in the hold of a read with parameters `c`, after at least `lo` and at most `hi` byte exchanges and `r` receives. -/
structure Transacting (c : Config) (lo hi r : Nat) (u : State) : Prop where
  cfg : u.cfg = c
  held : u.csHeld = true
  calls : ∃ bytes x n, lo ≤ x ∧ x ≤ hi ∧ u.calls = heldReadCalls c bytes x r n

/-- A read with parameters `c` raised the error `e` in its hold, after at most `hi` byte exchanges and one receive. -/
def BrokenRead (c : Config) (hi : Nat) (e : Status) (u : State) : Prop := e ≠ .ok ∧ ∃ r ≤ 1, Transacting c 0 hi r u

/-- A call leaves what recording it and taking an answer leave, answered or not. -/
theorem tCall_all_of {P : State → Prop} {c : Call} {n : Nat} {s : State} (h : P (consumeAnswer (logCall c s))) :
    (tCall c n s).All P := by
  unfold tCall
  split <;> exact h

section

variable {c : Config} {lo hi lo' hi' n r : Nat} {e : Status} {s u v : State}

theorem Transacting.mono (h : Transacting c lo hi r u) (hlo : lo' ≤ lo) (hhi : hi ≤ hi') : Transacting c lo' hi' r u :=
  have ⟨bytes, x, n, hl, hh, hcalls⟩ := h.calls
  { h with calls := ⟨bytes, x, n, hlo.trans hl, hh.trans hhi, hcalls⟩ }

/-- Only transport calls move a read's hold on. -/
theorem Transacting.keep (h : Transacting c lo hi r u) (hv : transportOf v = transportOf u) : Transacting c lo hi r v :=
  have hview : Transacting c lo hi r (transportOf v) := hv ▸ { h with }
  { hview with }

theorem Transacting.broken (h : Transacting c lo hi r u) (hr : r ≤ 1) (he : e ≠ .ok) : BrokenRead c hi e u :=
  ⟨he, r, hr, h.mono (Nat.zero_le _) (Nat.le_refl _)⟩

theorem BrokenRead.mono (h : BrokenRead c hi e u) (hhi : hi ≤ hi') : BrokenRead c hi' e u :=
  have ⟨he, r, hr, hu⟩ := h
  ⟨he, r, hr, hu.mono (Nat.le_refl _) hhi⟩

/-- An error a call raises is `Timeout` (R158). -/
theorem tCall_transacting {call : Call} (hr : r ≤ 1) (h : Transacting c lo hi r (consumeAnswer (logCall call u))) :
    (tCall call n u).Sat (fun _ => Transacting c lo hi r) (BrokenRead c hi) :=
  ((tCall_sat_length call n u).and (tCall_all_of h)).imp (fun _ _ h => h.2) fun _ _ ⟨he, hu⟩ => hu.broken hr (he ▸ nofun)

/-- The frame is sent, accepted or not (R151). -/
theorem sendFrame_transacting (index : BitVec 6) (arg : Word) (hcfg : s.cfg = c) (hcalls : s.calls = []) :
    (sendFrame index arg (tSelect s)).Sat (fun _ => Transacting c 0 0 0) (BrokenRead c 0) := by
  refine (tCall_transacting (Nat.zero_le 1) ⟨by simpa using hcfg, by simp, listOf6 (buildFrame index arg (tSelect s)), 0, 0,
    Nat.le_refl 0, Nat.le_refl 0, ?_⟩).andThen fun _ _ h => h
  simp [heldReadCalls, hcfg, hcalls]

/-- One byte exchange (R152). -/
theorem tXbyte_transacting (h : Transacting c lo hi 0 u) :
    (tXbyte u).Sat (fun _ => Transacting c (lo + 1) (hi + 1) 0) (BrokenRead c (hi + 1)) := by
  obtain ⟨bytes, x, n, hl, hh, hcalls⟩ := h.calls
  refine (tCall_transacting (Nat.zero_le 1) ⟨h.cfg, h.held, bytes, x + 1, n, by omega, by omega, ?_⟩).andThen fun _ _ h => h
  simp [hcalls, h.cfg, heldReadCalls, polls, List.replicate_succ', Config.fill]

/-- The wait for R1 makes at least one byte exchange and at most as many as it has polls left (R153). -/
theorem pollR1_transacting (h : Transacting c lo hi 0 u) :
    (pollR1 n u).Sat (fun _ => Transacting c (lo + 1) (hi + n) 0) (BrokenRead c (hi + n)) := by
  induction n generalizing u lo hi with
  | zero => exact (h.keep (v := setPollLeft 0 u) rfl).broken (e := .timeout) (Nat.zero_le 1) nofun
  | succ n ih =>
    refine ((tXbyte_transacting (h.keep (v := setPollLeft (n + 1) u) rfl)).imp (fun _ _ h => h)
      fun _ _ h => h.mono (by omega)).andThen fun b v hv => ?_
    split
    · exact (ih hv).imp (fun _ _ h => h.mono (by omega) (by omega)) fun _ _ h => h.mono (by omega)
    · exact (hv.mono (Nat.le_refl _) (by omega)).keep rfl

/-- The wait for the token likewise (R199). -/
theorem pollToken_transacting (h : Transacting c lo hi 0 u) :
    (pollToken n u).Sat (fun _ => Transacting c (lo + 1) (hi + n) 0) (BrokenRead c (hi + n)) := by
  induction n generalizing u lo hi with
  | zero => exact (h.keep (v := setPollLeft 0 u) rfl).broken (e := .timeout) (Nat.zero_le 1) nofun
  | succ n ih =>
    refine ((tXbyte_transacting (h.keep (v := setPollLeft (n + 1) u) rfl)).imp (fun _ _ h => h)
      fun _ _ h => h.mono (by omega)).andThen fun b v hv => ?_
    split
    · exact (hv.mono (Nat.le_refl _) (by omega)).keep (by simp [transportOf])
    · exact (ih hv).imp (fun _ _ h => h.mono (by omega) (by omega)) fun _ _ h => h.mono (by omega)

theorem r1Error_ne_ok {b : Byte} (h : r1Error b = some e) : e ≠ .ok := by
  rintro rfl
  revert h
  unfold r1Error
  split_ifs <;> simp

/-- Phase `BCommand` (R202). -/
theorem readCommand_transacting (index : BitVec 6) (arg : Word) (hcfg : s.cfg = c) (hcalls : s.calls = []) :
    (readCommand index arg s).Sat (fun _ => Transacting c 1 c.nR1Poll 0) (BrokenRead c c.nR1Poll) := by
  refine ((sendFrame_transacting index arg (s := enterB .bCommand s) hcfg hcalls).imp (fun _ _ h => h)
    fun _ _ h => h.mono (Nat.zero_le _)).andThen fun _ u hu => ?_
  have hwait := pollR1_transacting (n := c.nR1Poll) hu
  simp only [Nat.zero_add] at hwait
  rw [waitR1, hu.cfg]
  refine hwait.andThen fun b v hv => ?_
  split
  · exact hv
  next herr => exact hv.broken (Nat.zero_le 1) (r1Error_ne_ok herr)

/-- Phase `BToken` (R199). -/
theorem waitToken_transacting (h : Transacting c lo hi 0 u) :
    (waitToken u).Sat (fun _ => Transacting c (lo + 1) (hi + c.nTokenPoll) 0) (BrokenRead c (hi + c.nTokenPoll)) := by
  rw [waitToken, h.cfg]
  exact pollToken_transacting (h.keep rfl)

/-- Phase `BData`: one receive (R200). -/
theorem receiveData_transacting (tr : Transfer) (h : Transacting c lo hi 0 u) :
    (receiveData tr u).Sat (fun _ => Transacting c lo hi 1) (BrokenRead c hi) := by
  obtain ⟨bytes, x, n, hl, hh, hcalls⟩ := h.calls
  have hcalled : Transacting c lo hi 1
      (consumeAnswer (logCall (.recv (payloadLen tr + Config.trailerLen) u.cfg.tBuf) u)) :=
    ⟨h.cfg, h.held, bytes, x, payloadLen tr + Config.trailerLen, hl, hh, by simp [hcalls, h.cfg, heldReadCalls]⟩
  exact (tCall_transacting (Nat.le_refl 1) hcalled).andThen fun _ v hv => hv.keep (by cases tr <;> rfl)

/-- Phase `BCheck`: no call (R201). -/
theorem checkData_transacting (tr : Transfer) (check : Bool) (buf : List Byte) (h : Transacting c lo hi 1 u) :
    (checkData tr check buf u).Sat (fun _ => Transacting c lo hi 1) (BrokenRead c hi) := by
  unfold checkData validate
  split
  · split
    · exact h.keep rfl
    · exact (h.keep (by cases tr <;> rfl)).broken (Nat.le_refl 1) nofun
  · exact h.keep rfl

/-- A transaction that returns made its calls and then released chip-select; one that raised still holds it. -/
theorem readData_transacting (index : BitVec 6) (arg : Word) (tr : Transfer) (check : Bool) (hcfg : s.cfg = c) (hcalls : s.calls = []) :
    (readData index arg tr check s).Sat
      (fun _ v => ∃ u, Transacting c 2 (c.nR1Poll + c.nTokenPoll) 1 u ∧ v.csHeld = false ∧ v.calls = u.calls ++ [.deselect])
      (BrokenRead c (c.nR1Poll + c.nTokenPoll)) :=
  ((readCommand_transacting index arg hcfg hcalls).imp (fun _ _ h => h) fun _ _ h => h.mono (Nat.le_add_right _ _)).andThen
    fun _ _ h => (waitToken_transacting h).andThen fun _ _ h => (receiveData_transacting tr h).andThen fun buf _ h =>
      (checkData_transacting tr check buf h).andThen fun _ u hu => ⟨u, hu, rfl, rfl⟩

/-- A read operation makes the calls of one hold and its deselect, the receive and both waits among them when it returns. -/
theorem transactAndDeliver_calls {index : BitVec 6} {arg : Word} {tr : Transfer} {check : Bool} {view : List Byte → Value} {t : State}
    (hexec : runOperation (transactAndDeliver index arg tr check view) s = .next t) :
    ∃ bytes x r n, t.calls = heldReadCalls s.cfg bytes x r n ++ [.deselect] ∧ x ≤ s.cfg.nR1Poll + s.cfg.nTokenPoll ∧ r ≤ 1 ∧
      ((∃ v, t.resp = some ⟨.ok, v⟩) → 2 ≤ x ∧ r = 1) := by
  have hdata := readData_transacting (s := accept s) (c := s.cfg) index arg tr check rfl rfl
  cases hexec
  unfold transactAndDeliver
  cases hrun : readData index arg tr check (accept s) with
  | done p v =>
    rw [hrun] at hdata
    obtain ⟨u, hu, hreleased, hcalls⟩ := hdata
    obtain ⟨bytes, x, n, hlo, hhi, hheld⟩ := hu.calls
    exact ⟨bytes, x, 1, n, by simp [finish, hreleased, hcalls, hheld], hhi, Nat.le_refl 1, fun _ => ⟨hlo, rfl⟩⟩
  | raised e u =>
    rw [hrun] at hdata
    obtain ⟨hne, r, hr, hu⟩ := hdata
    obtain ⟨bytes, x, n, -, hhi, hheld⟩ := hu.calls
    exact ⟨bytes, x, r, n, by simp [finish, hu.held, hheld], hhi, hr, by simp [finish, hne]⟩

/-- How many calls of each kind a hold and its deselect are. -/
theorem countCalls_hold {cs : List Call} {bytes : List Byte} {x : Nat} (h : cs = heldReadCalls c bytes x r n ++ [.deselect]) :
    countCalls isSelect cs = 1 ∧ countCalls isSend cs = 1 ∧ countCalls isXbyte cs = x ∧ countCalls isRecv cs = r ∧
      countCalls isDeselect cs = 1 ∧ countCalls isSetDiv cs = 0 := by
  simp [h, heldReadCalls, polls, countCalls_append, countCalls_cons, countCalls_replicate, countCalls_nil, isSelect, isSend, isXbyte,
    isRecv, isDeselect, isSetDiv]

end

/-- In a Ready session each read operation is one transaction and its delivery. -/
theorem exec_read {s : State} {i : Instr} (hr : Ready s) (hi : i = .readCid ∨ i = .readCsd ∨ ∃ index, i = .readBlock index) :
    ∃ index arg tr check view, exec i s = runOperation (transactAndDeliver index arg tr check view) s := by
  obtain rfl | rfl | ⟨j, rfl⟩ := hi
  · exact ⟨_, _, _, _, _, exec_readCid hr⟩
  · exact ⟨_, _, _, _, _, exec_readCsd hr⟩
  · exact ⟨_, _, _, _, _, exec_readBlock hr j⟩

/-! ### The obligations -/

/-- Settles O30: the transaction returns the payload, since the trailer is CRC16 of it wherever it is checked. -/
theorem readBlockDelivers : Obligations.ReadBlockDelivers := by
  intro s index w fillers payload hi lo rest hr hw h0 hf hp hc ha
  have harr := Arrives.of_built hr.1 hw h0 hf ha
  have hrun := transactAndDeliver_returns (tr := .block) harr.accept hp hc 17 (translateIndex s.blockAddressing index) fun _ => .block
  refine ⟨_, (exec_readBlock hr index).trans (runOperation_done hrun (by simp [transacted])), ?_⟩
  rw [← translateIndex_eq]
  simp [transacted, payloadLen, Config.blockLen, ReadFrame, SameSession, SameTable, SameInputs]

/-- Settles O31: the comparison refuses the trailer after the payload is delivered, and the exit procedure releases chip-select. -/
theorem readBlockRejectsBadTrailer : Obligations.ReadBlockRejectsBadTrailer := by
  intro s index w fillers payload hi lo rest hr hw h0 hf hp hm hc ha
  have harr := Arrives.of_built hr.1 hw h0 hf ha
  have hrun := transactAndDeliver_rejects (tr := .block) harr.accept hp hc 17 (translateIndex s.blockAddressing index) fun _ => .block
  have hexec := exec_readBlock hr index
  rw [hm, runOperation_raised hrun] at hexec
  refine ⟨_, hexec, ?_⟩
  rw [← translateIndex_eq]
  simp [dataState, payloadLen, Config.blockLen, readCalls, ReadFrame, SameSession, SameTable, SameInputs]

/-- Settles O32: a trailer that also fitted the changed payload would make the two bytes equal. -/
theorem oneFlippedByteIsCaught : Obligations.OneFlippedByteIsCaught := by
  intro s index w fillers pre suf sent got hi lo rest hr hw h0 hf hp hm hc hne ha
  have hbad : crc16Result (pre ++ got :: suf) ≠ hi ++ lo := fun h =>
    hne (crc16_inj_byte (by rw [← crc16Result_eq, ← crc16Result_eq, hc, h]))
  obtain ⟨t, hexec, hresp, -, -, -, hframe⟩ := readBlockRejectsBadTrailer s index w fillers (pre ++ got :: suf) hi lo rest hr hw h0 hf
    (by simpa using hp) hm hbad ha
  exact ⟨t, hexec, hresp, hframe⟩

/-- Settles O33: both operations run the register transaction unchecked and view its payload as their decoder does. -/
theorem registerReadsDeliver : Obligations.RegisterReadsDeliver := by
  intro s w fillers p hi lo rest i d index hr hw h0 hf hp hi' ha
  obtain ⟨view, hexec, hdecode⟩ : ∃ view : List Byte → Value,
      exec i s = runOperation (transactAndDeliver index 0 .register false view) s ∧
      exec d s = .next (answered s .ok (view p)) := by
    obtain ⟨rfl, rfl, rfl⟩ | ⟨rfl, rfl, rfl⟩ := hi'
    · exact ⟨_, exec_readCid hr, exec_decodeCid hr.1.1.released p⟩
    · exact ⟨_, exec_readCsd hr, exec_decodeCsd hr.1.1.released p⟩
  have harr := Arrives.of_built hr.1 hw h0 hf ha
  have hrun := transactAndDeliver_returns (tr := .register) (check := false) harr.accept hp nofun index 0 view
  refine ⟨_, _, hexec.trans (runOperation_done hrun (by simp [transacted])), hdecode, ?_⟩
  simp [transacted, answered, payloadLen, Config.regLen, ReadFrame, SameSession, SameTable, SameInputs]

/-- Settles O37: the transaction raises `Timeout` in its token wait, before its data. -/
theorem readWithoutToken : Obligations.ReadWithoutToken := by
  intro s i index arg w fillers rest hr hi hw h0 hn hf ha
  have ht : (accept s).table = builtTable := hr.1.1.tableContents hr.1.2
  refine ⟨_, exec_read_raised hr hi fun tr check => readData_noToken (s := accept s) ht hw h0 hn hf ha index arg tr check, ?_⟩
  rw [exit_held _ _ rfl]
  simp [polls, hn, readCallsUntil, SameOut, SameBuffers, ReadFrame, SameSession, SameTable, SameInputs]

/-- Settles O39: one hold, whose two waits each keep to their budget. -/
theorem readCallBounds : Obligations.ReadCallBounds := by
  intro s t i hr hi hexec
  obtain ⟨index, arg, tr, check, view, hread⟩ := exec_read hr hi
  obtain ⟨bytes, x, r, n, hcalls, hx, hr1, hok⟩ := transactAndDeliver_calls (hread.symm.trans hexec)
  obtain ⟨hselect, hsend, hxbyte, hrecv, hdeselect, hsetDiv⟩ := countCalls_hold hcalls
  rw [hxbyte, hrecv]
  exact ⟨hselect, hsend, hx, hr1, hdeselect, hsetDiv, hok⟩

/-- Settles O57: each frame runs the transaction of its index, and a procedure that returns leaves the control registers at rest. -/
theorem dataFramesRunTheTransaction : Obligations.DataFramesRunTheTransaction := by
  intro s i index arg crc w fillers payload hi lo rest n hb hw h0 hf hp ha hi'
  have harr := Arrives.of_built hb hw h0 hf ha
  obtain ⟨tr, check, hn, hc, hcheck, hexec⟩ : ∃ tr check, n = payloadLen tr ∧ (check = true → crc16Result payload = hi ++ lo) ∧
      (check = true ↔ index = 17 ∧ s.checksumEnabled = true) ∧ exec i s = runInternal (readExchange index arg tr check) s := by
    obtain ⟨rfl, rfl, rfl⟩ | ⟨rfl, rfl, rfl⟩ | ⟨rfl, rfl, rfl, hc⟩ := hi'
    · exact ⟨.register, false, rfl, nofun, by simp, rfl⟩
    · exact ⟨.register, false, rfl, nofun, by simp, rfl⟩
    · exact ⟨.block, s.checksumEnabled, rfl, hc, by simp, rfl⟩
  subst hn
  refine ⟨_, hexec.trans (readExchange_alone hb harr hp hc index arg), ?_⟩
  have hreleased := hb.1.released
  have hrest := hb.1.bAtRest
  simp only [← hcheck]
  cases tr <;> simp [transacted, setDbuf, setRbuf, beginStep, payloadLen, Config.regLen, Config.blockLen, hreleased, hrest]

/-- Settles O34: the two entry checks fail in order, on the state as it was accepted. -/
theorem readsAreGated : Obligations.ReadsAreGated := by
  intro s i hinv hi
  exact ⟨fun ht => exec_read_rejected hinv.released hi (readEntry_unbuilt ht),
    fun ht hclass => exec_read_rejected hinv.released hi (readEntry_notReady ht hclass)⟩

end Sys2Proof.Machine

/-! PROOF. The Card Session (45_session.md): what the two toggles, the three queries and the teardown leave in the state. None is
gated (R216), so each holds in any session state. -/

namespace Sys2Proof.Machine

/-! ### The three queries (R220, R221, R223) -/

theorem exec_cardClass {s : State} (hs : s.csHeld = false) :
    exec .cardClass s = .next (answered s .ok (.cardClass s.cardClass)) :=
  pureOperation_eq _ hs

theorem exec_blockAddressing {s : State} (hs : s.csHeld = false) :
    exec .blockAddressing s = .next (answered s .ok (.addressing s.blockAddressing)) :=
  pureOperation_eq _ hs

/-- The Ready gate of BLOCK_LENGTH (R221) in terms of the class (R248). -/
theorem blockLength_eq (s : State) :
    (if sessionReady s then 512 else 0 : Word) = if s.cardClass = .unclassified then 0 else 512 := by
  simp only [sessionReady_iff, ne_eq, ite_not]

theorem exec_blockLength {s : State} (hs : s.csHeld = false) :
    exec .blockLength s = .next (answered s .ok (.u32 (if s.cardClass = .unclassified then 0 else 512))) := by
  rw [← blockLength_eq]
  exact pureOperation_eq _ hs

/-! ### The obligations -/

/-- Settles O18: the body writes the mode on the accepted state and returns. -/
theorem setDataChecksumWritesTheMode : Obligations.SetDataChecksumWritesTheMode := fun _ enabled hs =>
  runOperation_done (body := fun s => .done .none (setChecksumEnabled enabled s)) rfl hs

/-- Settles O19: the body records its one call on the accepted state, whose call list is empty, and returns. -/
theorem setSpeedClassSignalsTheTransport : Obligations.SetSpeedClassSignalsTheTransport := fun _ c hs =>
  runOperation_done (body := fun s => .done .none (tSetDiv c s)) rfl hs

/-- Settles O20: the three queries only compute, and the invariant ties the addressing mode to the class. -/
theorem queriesReadTheSession : Obligations.QueriesReadTheSession := fun _ hinv =>
  ⟨exec_cardClass hinv.released, exec_blockLength hinv.released, exec_blockAddressing hinv.released, hinv.session⟩

/-- Settles O21: the body tears the session down on the accepted state and returns. -/
theorem sessionResetTearsDown : Obligations.SessionResetTearsDown := fun _ hs =>
  runOperation_done (body := fun s => .done .none (teardown s)) rfl hs

end Sys2Proof.Machine

/-! PROOF. The errors and modes family (60_exceptions.md): the one status each operation ends with, the errors of a read in their order,
the calls at the boundary, and the ways into and out of the Ready mode. -/

namespace Sys2Proof.Machine

/-! ### The end of every host operation (R235, R245) -/

/-- A host operation is a procedure and the end that answers it (R12, R86). -/
theorem exec_request {i : Instr} (hi : i.port = .request) (s : State) : ∃ p, exec i s = .next (finish p) := by
  cases i with
  | cmd0 | cmd8 | cmd9 | cmd10 | cmd17 | cmd41 | cmd55 | cmd58 | cmd59 | cmdAny | r1Response | startToken | ocrView | ifCondView =>
    cases hi
  | _ => exact ⟨_, rfl⟩

/-- The end of an operation delivers one status, with no value on an error, and puts CORE to rest (R235, R236, R245). -/
theorem finish_answers (p : Proc Value) :
    ∃ r, (finish p).resp = some r ∧ (r.status ≠ .ok → r.value = .none) ∧ AtRest (finish p) := by
  cases p with
  | done v u => exact ⟨⟨.ok, v⟩, by simp [finish], fun h => absurd rfl h, exit_atRest _ _ _⟩
  | raised e u => exact ⟨⟨e, .none⟩, by simp [finish], fun _ => rfl, exit_atRest _ _ _⟩

/-! ### An unassigned select code (R84, R244) -/

theorem decode_unassigned {code : Byte} (h : 0x14 ≤ code.toNat) (rest : List Byte) :
    decode .request (code :: rest) = .badCode code rest := by
  show decodeOperation code rest = .badCode code rest
  unfold decodeOperation
  split
  any_goals omega
  rfl

/-- The one effect of `BadOperation` is its result. -/
theorem badOperation_eq {s : State} (h : s.csHeld = false) : badOperation s = answered s .badOperation .none :=
  exit_accept _ _ h

/-! ### The calls at the boundary (R252) -/

/-- Every call recorded is a select, a deselect or one made in a hold; parameters `c₀`. -/
def AtBoundary (c₀ : Config) (s : State) : Prop :=
  s.cfg = c₀ ∧ ∀ c ∈ s.calls, c = .select ∨ c = .deselect ∨ HeldCall c₀ c

theorem AtBoundary.snoc {c₀ : Config} {c : Call} {s t : State} (h : AtBoundary c₀ s)
    (hc : c = .select ∨ c = .deselect ∨ HeldCall c₀ c) (hcfg : t.cfg = s.cfg) (hcalls : t.calls = s.calls ++ [c]) :
    AtBoundary c₀ t := by
  obtain ⟨hcfg₀, hcalls₀⟩ := h
  refine ⟨hcfg.trans hcfg₀, fun d hd => ?_⟩
  rw [hcalls, List.mem_append, List.mem_singleton] at hd
  obtain hd | rfl := hd
  · exact hcalls₀ d hd
  · exact hc

/-- The exit procedure makes no call but a deselect (R245). -/
theorem AtBoundary.exit {c₀ : Config} {s : State} (h : AtBoundary c₀ s) (st : Status) (v : Value) :
    AtBoundary c₀ (exit st v s) := by
  cases hs : s.csHeld with
  | true =>
    rw [exit_held _ _ hs]
    exact h.snoc (c := .deselect) (.inr (.inl rfl)) rfl rfl
  | false =>
    rw [exit_released _ _ hs]
    exact h

theorem atBoundary_stable (c₀ : Config) : TransportStable c₀ (fun s => s.cfg = c₀) (AtBoundary c₀) (AtBoundary c₀)
    (fun _ => AtBoundary c₀) (AtBoundary c₀) where
  viewF := fun _ => Iff.rfl
  viewP := fun _ => Iff.rfl
  viewE := fun _ _ => Iff.rfl
  cfg := fun _ h => h.1
  call := fun c _ s hc h => tCall_all_of (h.snoc (t := consumeAnswer (logCall c s)) (.inr (.inr hc)) rfl rfl)
  fail := fun _ _ h => h
  failFree := fun _ _ h => h
  select := fun _ h => h.snoc (c := .select) (.inl rfl) rfl rfl
  deselect := fun _ h => h.snoc (c := .deselect) (.inr (.inl rfl)) rfl rfl
  beginStep := fun _ h => ⟨h, nofun⟩
  finishOk := fun v _ h => h.exit .ok v
  finishError := fun e _ h => h.exit e .none
  internal := fun _ h => h

/-! ### NEGOTIATE's two ends, from any state (R167, R186, R187, R248) -/

/-- The entry leaves no session, and nothing is recorded yet (R167). -/
theorem negotiateEntry_unclassified (s : State) : (negotiateEntry s).cardClass = .unclassified ∧
    (negotiateEntry s).calls = s.calls ∧ (negotiateEntry s).npath = s.npath := by
  unfold negotiateEntry
  split
  · exact ⟨rfl, rfl, rfl⟩
  next h =>
    rw [sessionReady_iff, not_not] at h
    exact ⟨h, rfl, rfl⟩

/-- The first exchange selects, so the states do not depend on how chip-select stood before them. -/
theorem negotiationStates_released (s : State) : negotiationStates { s with csHeld := false } = negotiationStates s := rfl

/-- Past the table check NEGOTIATE commits a class and returns it, or ends with an error in an `Unclassified` session. -/
theorem negotiate_commits_or_fails (s : State) (hcalls : s.calls = []) (hpath : s.npath = []) :
    (toFailed (negotiationStates (negotiateEntry s))).Sat
      (fun v t => t.cardClass ≠ .unclassified ∧ v = .cardClass t.cardClass)
      (fun e t => t.cardClass = .unclassified ∧ e ≠ .ok) := by
  obtain ⟨hclass, hcalls', hpath'⟩ := negotiateEntry_unclassified s
  have hstart : Reached { negotiateEntry s with csHeld := false } 0 0 0 { negotiateEntry s with csHeld := false } :=
    { released := rfl, outside := rfl
      passed := by simp [hpath', hpath, statesInOrder]
      cost := by simpa [hcalls', hcalls] using cost_nil }
  have hstates := negotiationStates_classified hstart
  rw [negotiationStates_released] at hstates
  revert hstates
  cases negotiationStates (negotiateEntry s) with
  | done v t =>
    rintro ⟨u, hu, rfl, rfl⟩
    exact ⟨hu.classified, rfl⟩
  | raised e t => exact fun ht => ⟨(congrArg State.cardClass ht.outside).trans hclass, ht.reason.ne_ok⟩

/-- NEGOTIATE from any state: the class untouched for want of the table, a class committed, or none left. -/
theorem exec_negotiate_class {s t : State} (e : exec .negotiate s = .next t) :
    (t.cardClass = s.cardClass ∧ t.resp = some ⟨.tableNotBuilt, .none⟩) ∨
    (t.cardClass ≠ .unclassified ∧ t.resp = some ⟨.ok, .cardClass t.cardClass⟩) ∨
    (t.cardClass = .unclassified ∧ ∃ st, st ≠ .ok ∧ t.resp = some ⟨st, .none⟩) := by
  cases e
  cases ht : s.tableBuilt with
  | false =>
    rw [negotiateBody, needTable_unbuilt (by simpa using ht)]
    exact .inl (by simp [finish])
  | true =>
    rw [negotiateBody, needTable_built (by simpa using ht), Proc.done_andThen]
    have hends := negotiate_commits_or_fails (accept s) rfl rfl
    revert hends
    cases toFailed (negotiationStates (negotiateEntry (accept s))) with
    | done v u =>
      rintro ⟨hclass, rfl⟩
      exact .inr (.inl (by simpa [finish] using hclass))
    | raised st u =>
      rintro ⟨hclass, hst⟩
      exact .inr (.inr (by simpa [finish, hclass] using hst))

theorem exec_sessionReset_class {s t : State} (e : exec .sessionReset s = .next t) : t.cardClass = .unclassified := by
  cases e
  simp [finish]

/-! ### The R1 of a read (R202, R240) -/

/-- The error of an R1 byte other than `0x00`, by the order of R240. -/
theorem r1Error_of_ne_zero {b : Byte} (h : b ≠ 0) : r1Error b = some (
    if b.getLsbD 3 then .commandChecksumError else if b.getLsbD 2 then .illegalCommandError
    else if b.getLsbD 5 then .addressError else if b.getLsbD 6 then .parameterError else .genericCardError) := by
  rw [r1Error, if_neg h]
  split_ifs <;> rfl

/-- A transaction whose R1 maps to an error ends there, in its hold (R202). -/
theorem readData_r1Error {s : State} {w : R1Wait} {rest : List Answer} {e : Status} (hw : w.Within s.cfg)
    (he : r1Error w.r1 = some e) (ha : s.answers = w.answers ++ rest) (index : BitVec 6) (arg : Word) (tr : Transfer) (check : Bool) :
    readData index arg tr check s = .raised e (afterR1 index arg w rest (enterB .bCommand s)) := by
  rw [readData, readCommand_error hw he ha, Proc.raised_andThen]

/-! ### A read, whatever is answered (R195, R204, R246) -/

/-- The statuses a read operation past its entry checks ends with (R236). -/
def readStatuses : List Status := [.ok, .timeout, .commandChecksumError, .illegalCommandError, .addressError, .parameterError,
  .genericCardError, .dataChecksumError]

/-- The phases a read has passed when it is in phase `b`, that one included (R195). -/
def phasesTo : BState → List BState
  | .bIdle => []
  | .bCommand => [.bCommand]
  | .bToken => [.bCommand, .bToken]
  | .bData => [.bCommand, .bToken, .bData]
  | .bCheck => [.bCommand, .bToken, .bData, .bCheck]

theorem phasesTo_isPrefix (b : BState) : phasesTo b <+: phasesTo .bCheck := by
  cases b <;> decide

/-- The fields that no read writes before its payload is delivered; what it writes is cleared. -/
def outsideRead (s : State) : State := { s with
  csHeld := false, acc7 := 0, frame := ⟨0, 0, 0, 0, 0, 0⟩, r1 := 0, pollLeft := 0, answers := [], draws := 0, calls := []
  bstate := .bIdle, bpath := [], dbuf := [], rbuf := [], reg16 := 0 }

/-- `u` is in phase `b` of a read begun at `s`, its payload not yet delivered. -/
structure Reading (s : State) (b : BState) (u : State) : Prop where
  outside : outsideRead u = outsideRead s
  phase : u.bstate = b
  passed : u.bpath = phasesTo b

/-- A read begun at `s` ends at `u` with status `st`; `check` says whether its trailer is checked. -/
structure ReadEnded (s : State) (check : Bool) (st : Status) (u : State) : Prop where
  status : st ∈ readStatuses
  frame : ReadFrame s u
  checked : st = .dataChecksumError → check = true
  out : st ≠ .ok → st ≠ .dataChecksumError → SameOut s u
  passed : u.bpath <+: phasesTo .bCheck

section

variable {s u : State} {b : BState} {check : Bool} {st : Status}

theorem Reading.enterB (h : Reading s b u) {b' : BState} (hb : phasesTo b ++ [b'] = phasesTo b') :
    Reading s b' (enterB b' u) where
  outside := h.outside
  phase := rfl
  passed := by rw [← hb, ← h.passed]; rfl

/-- What no read writes is its frame (R196, R246). -/
theorem Reading.frame (h : Reading s b u) : ReadFrame s u := by
  have hframe : ReadFrame s (outsideRead u) := by
    rw [h.outside]
    exact ⟨⟨rfl, rfl, rfl⟩, ⟨fun _ => rfl, rfl⟩, ⟨rfl, rfl, rfl⟩, rfl, rfl, rfl, rfl, rfl⟩
  exact hframe

theorem Reading.sameOut (h : Reading s b u) : SameOut s u := by
  have hout : SameOut s (outsideRead u) := by
    rw [h.outside]
    exact ⟨fun _ => rfl, fun _ => rfl⟩
  exact hout

/-- A status other than `DataChecksumError` ends a read with nothing delivered. -/
theorem Reading.ended (h : Reading s b u) (hst : st ∈ readStatuses) (hne : st ≠ .dataChecksumError) : ReadEnded s check st u where
  status := hst
  frame := h.frame
  checked := fun hd => absurd hd hne
  out := fun _ _ => h.sameOut
  passed := h.passed ▸ phasesTo_isPrefix b

theorem Reading.timeout (h : Reading s b u) : ReadEnded s check .timeout u := h.ended (by decide) (by decide)

theorem tCall_reading {c : Call} {n : Nat} (h : Reading s b u) :
    (tCall c n u).Sat (fun _ => Reading s b) (ReadEnded s check) := by
  have hcalled : Reading s b (consumeAnswer (logCall c u)) := { h with }
  refine ((tCall_sat_length c n u).and (tCall_all_of hcalled)).imp (fun _ _ h => h.2) ?_
  rintro _ v ⟨rfl, hv⟩
  exact hv.timeout

theorem tXbyte_reading (h : Reading s b u) : (tXbyte u).Sat (fun _ => Reading s b) (ReadEnded s check) :=
  (tCall_reading h).andThen fun _ _ h => h

theorem sendFrame_reading (index : BitVec 6) (arg : Word) (h : Reading s b u) :
    (sendFrame index arg u).Sat (fun _ => Reading s b) (ReadEnded s check) :=
  (tCall_reading (u := loadFrame index arg u) { h with }).andThen fun _ _ h => h

theorem pollR1_reading {n : Nat} (h : Reading s b u) : (pollR1 n u).Sat (fun _ => Reading s b) (ReadEnded s check) := by
  induction n generalizing u with
  | zero => exact Reading.timeout (b := b) { h with }
  | succ n ih =>
    refine (tXbyte_reading (u := setPollLeft (n + 1) u) { h with }).andThen fun r v hv => ?_
    split
    · exact ih hv
    · exact { hv with }

/-- The token ends its wait with the data phase (R198, R199). -/
theorem pollToken_reading {n : Nat} (h : Reading s .bToken u) :
    (pollToken n u).Sat (fun _ => Reading s .bData) (ReadEnded s check) := by
  induction n generalizing u with
  | zero => exact Reading.timeout (b := .bToken) { h with }
  | succ n ih =>
    refine (tXbyte_reading (u := setPollLeft (n + 1) u) { h with }).andThen fun r v hv => ?_
    split
    · rw [Proc.sat_done, takeToken_waiting hv.phase]
      exact hv.enterB rfl
    · exact ih hv

/-- An R1 error is one of the errors of R240. -/
theorem r1Error_mem {r : Byte} (h : r1Error r = some st) : st ∈ readStatuses ∧ st ≠ .dataChecksumError := by
  have hne : r ≠ 0 := fun h0 => by simp [r1Error, h0] at h
  rw [r1Error_of_ne_zero hne, Option.some.injEq] at h
  subst h
  split_ifs <;> decide

/-- Phase `BCommand` (R198, R202). -/
theorem readCommand_reading (index : BitVec 6) (arg : Word) (hpath : s.bpath = []) :
    (readCommand index arg s).Sat (fun _ => Reading s .bCommand) (ReadEnded s check) := by
  have hstart : Reading s .bCommand (tSelect (enterB .bCommand s)) := ⟨rfl, rfl, by simp [hpath, phasesTo]⟩
  refine (sendFrame_reading index arg hstart).andThen fun _ v hv => (pollR1_reading hv).andThen fun r w hw => ?_
  split
  · exact hw
  next herr => exact hw.ended (r1Error_mem herr).1 (r1Error_mem herr).2

/-- Phase `BData`: one receive into the buffer of the transfer (R200). -/
theorem receiveData_reading (tr : Transfer) (h : Reading s b u) :
    (receiveData tr u).Sat (fun _ => Reading s b) (ReadEnded s check) :=
  (tCall_reading h).andThen fun _ _ hv => by cases tr <;> exact { hv with }

/-- A payload refused by the comparison stands in `out` (R201, R204). -/
theorem Reading.refused (h : Reading s b u) (hc : check = true) (tr : Transfer) (payload : List Byte) :
    ReadEnded s check .dataChecksumError (deliverPayload tr payload u) where
  status := by decide
  frame := by simpa [ReadFrame, SameSession, SameTable, SameInputs] using h.frame
  checked := fun _ => hc
  out := fun _ hne => absurd rfl hne
  passed := by simpa [h.passed] using phasesTo_isPrefix b

/-- A payload returned stands in `out` (R204). -/
theorem ReadEnded.deliver (h : ReadEnded s check .ok u) (tr : Transfer) (payload : List Byte) :
    ReadEnded s check .ok (deliverPayload tr payload u) where
  status := h.status
  frame := by simpa [ReadFrame, SameSession, SameTable, SameInputs] using h.frame
  checked := h.checked
  out := fun hne => absurd rfl hne
  passed := by simpa using h.passed

/-- Phase `BCheck` (R201). -/
theorem checkData_reading (tr : Transfer) (buf : List Byte) (h : Reading s .bData u) :
    (checkData tr check buf u).Sat (fun _ => Reading s .bCheck) (ReadEnded s check) := by
  have hcheck : Reading s .bCheck (enterB .bCheck u) := h.enterB rfl
  unfold checkData validate
  split
  next hc =>
    split
    · exact { hcheck with }
    · have hreg : Reading s .bCheck (setReg16 (crc16Reg (buf.take (payloadLen tr))) (enterB .bCheck u)) :=
        { hcheck with }
      exact hreg.refused hc tr _
  · exact hcheck

theorem readData_ended (index : BitVec 6) (arg : Word) (tr : Transfer) (hpath : s.bpath = []) :
    (readData index arg tr check s).Sat (fun _ => ReadEnded s check .ok) (ReadEnded s check) :=
  (readCommand_reading index arg hpath).andThen fun _ _ h => (pollToken_reading (h.enterB rfl)).andThen fun _ _ h =>
    (receiveData_reading tr h).andThen fun buf _ h => (checkData_reading tr buf h).andThen fun _ v hv =>
      have hend : ReadEnded s check .ok v := hv.ended (by decide) (by decide)
      { hend with }

/-- The end of an operation writes nothing that the end of a read speaks of (R245). -/
theorem ReadEnded.exit (h : ReadEnded s check st u) (v : Value) : ReadEnded s check st (exit st v u) where
  status := h.status
  frame := by simpa [ReadFrame, SameSession, SameTable, SameInputs] using h.frame
  checked := h.checked
  out := by simpa [SameOut] using h.out
  passed := by simpa using h.passed

/-- A read operation past its entry checks delivers the status it ends with. -/
theorem transactAndDeliver_ended (index : BitVec 6) (arg : Word) (tr : Transfer) (check : Bool) (view : List Byte → Value) (s : State) :
    ∃ t r, runOperation (transactAndDeliver index arg tr check view) s = .next t ∧ t.resp = some r ∧
      ReadEnded (accept s) check r.status t := by
  have hrun : (transactAndDeliver index arg tr check view (accept s)).Sat
      (fun _ => ReadEnded (accept s) check .ok) (ReadEnded (accept s) check) :=
    (readData_ended index arg tr rfl).andThen fun p _ h => h.deliver tr p
  unfold runOperation
  revert hrun
  cases transactAndDeliver index arg tr check view (accept s) with
  | done v u => exact fun h => ⟨_, ⟨.ok, v⟩, rfl, by simp [finish], h.exit v⟩
  | raised e u => exact fun h => ⟨_, ⟨e, .none⟩, rfl, by simp [finish], h.exit .none⟩

end

/-- Only a block read with the mode on checks its trailer (R196, R205). -/
theorem exec_read_checks {s : State} {i : Instr} (hr : Ready s) (hi : i = .readCid ∨ i = .readCsd ∨ ∃ index, i = .readBlock index) :
    ∃ index arg tr check view, exec i s = runOperation (transactAndDeliver index arg tr check view) s ∧
      (check = true → s.checksumEnabled = true ∧ ∃ index, i = .readBlock index) := by
  obtain rfl | rfl | ⟨j, rfl⟩ := hi
  · exact ⟨_, _, _, _, _, exec_readCid hr, nofun⟩
  · exact ⟨_, _, _, _, _, exec_readCsd hr, nofun⟩
  · exact ⟨_, _, _, _, _, exec_readBlock hr j, fun h => ⟨h, j, rfl⟩⟩

/-! ### The obligations -/

/-- Settles O35: the transaction raises the error of its R1 in its hold, and the exit procedure releases chip-select. -/
theorem readR1Errors : Obligations.ReadR1Errors := by
  intro s i index arg w rest hr hi hw hne ha
  have ht : (enterB .bCommand (accept s)).table = builtTable := hr.1.1.tableContents hr.1.2
  have herr := r1Error_of_ne_zero hne
  refine ⟨_, exec_read_raised hr hi fun tr check => readData_r1Error (s := accept s) hw herr ha index arg tr check, ?_⟩
  rw [afterR1_built ht, exit_held _ _ rfl]
  simp [readCallsUntil, SameOut, SameBuffers, ReadFrame, SameSession, SameTable, SameInputs]

/-- Settles O38: nothing but the transaction's own registers is written until the payload is delivered. -/
theorem readsKeepTheSession : Obligations.ReadsKeepTheSession := by
  intro s i hr hi
  obtain ⟨index, arg, tr, check, view, hexec, hcheck⟩ := exec_read_checks hr hi
  obtain ⟨t, r, hrun, hresp, hend⟩ := transactAndDeliver_ended index arg tr check view s
  exact ⟨t, r, hexec.trans hrun, hresp, hend.frame, hend.status, fun hd => hcheck (hend.checked hd), hend.out, hend.passed⟩

/-- Settles O41: SET_SPEED_CLASS makes its one call; every other instruction calls from holds and their ends alone. -/
theorem callsKeepTheBoundary : Obligations.CallsKeepTheBoundary := by
  intro i s t hs e c hc
  suffices h : (c = .select ∨ c = .deselect ∨ HeldCall s.cfg c) ∨ ∃ k, c = .setDiv k ∧ i = .setSpeedClass k by
    simpa only [HeldCall, or_assoc] using h
  by_cases hi : ∃ k, i = .setSpeedClass k
  · obtain ⟨k, rfl⟩ := hi
    obtain rfl := Host.Outcome.next.inj (e.symm.trans (setSpeedClassSignalsTheTransport s k hs))
    exact .inr ⟨k, List.mem_singleton.1 hc, rfl⟩
  · obtain ⟨-, hcalls⟩ := exec_stable ((atBoundary_stable s.cfg).machineStable i) (fun k hk => hi ⟨k, hk⟩) rfl e
    exact .inl (hcalls c hc)

/-- Settles O43: every host operation ends with the exit procedure, which delivers its result and puts CORE to rest. -/
theorem everyOperationAnswersOnce : Obligations.EveryOperationAnswersOnce := by
  intro i s _ hi
  obtain ⟨p, hexec⟩ := exec_request hi s
  obtain ⟨r, hresp, hvalue, hrest⟩ := finish_answers p
  exact ⟨_, r, hexec, hresp, hvalue, hrest.quiet, hrest.released, hrest.nAtRest, hrest.bAtRest⟩

/-- Settles O45: no instruction but NEGOTIATE and SESSION_RESET writes the class, and NEGOTIATE's status says how it left it. -/
theorem modeChanges : Obligations.ModeChanges := by
  intro i s t e
  by_cases hn : i = .negotiate
  · subst hn
    obtain ⟨hsame, -⟩ | ⟨hclass, hresp⟩ | ⟨hclass, herr⟩ := exec_negotiate_class e
    · exact ⟨fun hs ht => absurd (hsame.trans hs) ht, fun hs ht => absurd (hsame.symm.trans ht) hs⟩
    · exact ⟨fun _ _ => ⟨rfl, hresp⟩, fun _ ht => absurd ht hclass⟩
    · exact ⟨fun _ ht => absurd hclass ht, fun _ _ => .inr ⟨rfl, herr⟩⟩
  by_cases hr : i = .sessionReset
  · subst hr
    exact ⟨fun _ ht => absurd (exec_sessionReset_class e) ht, fun _ _ => .inl rfl⟩
  · obtain ⟨-, hsession, -⟩ := exec_writesOnly e
    have hsame : t.cardClass = s.cardClass := (hsession hn hr).1
    exact ⟨fun hs ht => absurd (hsame.trans hs) ht, fun hs ht => absurd (hsame.symm.trans ht) hs⟩

/-- Settles O8: each of the six asks for the table before anything else. -/
theorem tableNotBuiltComesFirst : Obligations.TableNotBuiltComesFirst := by
  intro s i hinv ht hi
  obtain rfl | rfl | rfl | ⟨msg, rfl⟩ | ⟨index, arg, rfl⟩ | ⟨index, rfl⟩ := hi
  · exact runOperation_needTable_unbuilt _ hinv.released ht
  · exact (readsAreGated s _ hinv (.inl rfl)).1 ht
  · exact (readsAreGated s _ hinv (.inr (.inl rfl))).1 ht
  · exact exec_crc7_unbuilt hinv.released ht msg
  · exact encodeBody_unbuilt hinv.released ht index arg
  · exact (readsAreGated s _ hinv (.inr (.inr ⟨index, rfl⟩))).1 ht

/-- Settles O51: the code decodes to no row, and the answer is delivered once its byte is taken. -/
theorem unassignedCodeIsBadOperation : Obligations.UnassignedCodeIsBadOperation := by
  intro s code rest hinv hw hp hcode
  have hstep : step s = .next (badOperation (takeRequest rest s)) := by
    rw [step_request hw hinv.quiet, stepRequest, hp, decode_unassigned hcode]
    rfl
  refine ⟨_, hstep, ?_⟩
  rw [badOperation_eq (s := takeRequest rest s) hinv.released]
  exact ⟨rfl, rfl⟩

end Sys2Proof.Machine

/-! PROOF. Reset (70_reset_and_hazards.md): the values R38 gives, and the invariant that follows from them and from the model's own zeros
and empty storages (log 10, log 11). -/

namespace Sys2Proof.Machine

/-- An empty storage is canonical at every size (log 11). -/
@[simp] theorem Memory.wf_nil (size : Nat) : Memory.wf size [] = true := rfl

/-! ### The obligations -/

/-- Settles O48: each is the field's value in the definition of the reset state. -/
theorem resetValues : Obligations.ResetValues := ⟨rfl, rfl, rfl, rfl, rfl, rfl, rfl, rfl, rfl, rfl⟩

/-- Settles O47: the session, the control registers and the missing table are the spec's own reset values; the storages are empty and
the counters 0, which is within every bound, whatever the parameters are. -/
theorem resetHasInvariant : Obligations.ResetHasInvariant := by
  obtain ⟨hclass, haddr, -, hunbuilt, hn, hb, hbusy, hcs, -, -⟩ := resetValues
  exact {
    session := by simp [hclass, haddr]
    released := hcs
    quiet := hbusy
    nAtRest := hn
    bAtRest := hb
    tableContents := fun hbuilt => absurd hbuilt (Bool.eq_false_iff.1 hunbuilt)
    tableWf := Memory.wf_nil _
    dbufWf := Memory.wf_nil _
    rbufWf := Memory.wf_nil _
    outBlockWf := Memory.wf_nil _
    outRegWf := Memory.wf_nil _
    probeBound := Nat.zero_le _
    acmdBound := Nat.zero_le _
    pollBound := Nat.zero_le _ }

end Sys2Proof.Machine
